-- ==== Sys2Proof/Word.lean ====
section
/-! DEFINITION. The word types of the block and their plainest arithmetic (spec/00_scope.md R9, R10). -/

namespace Sys2Proof

/-- A bank register, a descriptor word or a data operand: 32 bits (R9). -/
abbrev Word := BitVec 32

/-- The 16 data bits that a pull register of layouts 2 and 3 stores (R38). -/
abbrev Half := BitVec 16

/-- One byte of a word as a bus master presents it. -/
abbrev Byte := BitVec 8

/-- The one-hot mask `1 << i` of pin offset `i` (R10, R80). -/
abbrev oneHot (i : Nat) : Word := 1#32 <<< i

end Sys2Proof
end

