-- ==== Sys2Proof/Syntax.lean ====
section
/-! DEFINITION. The operations of the block, one constructor for each row of spec/opcode_table.json
(spec/30_encoding.md R95 to R101), and the names their operands use. -/

namespace Sys2Proof

/-- The pull-configuration layouts; one holds for every bank of a system (R3, D51). -/
inductive Variant where
  | pullGeneric     -- layout 1
  | pullPmuSplit    -- layout 2
  | pullWritemask   -- layout 3
  deriving DecidableEq, Repr, Inhabited

/-- The registers of a bank block, in the order of their ids 0 to 8 (R22, R96). -/
inductive Reg where
  | dir | dr | ext | inten | inttype | intpol | intstatus | eoi | pull1
  deriving DecidableEq, Repr, Inhabited

/-- The pull register regions, codes 0 to 2 of field `A` (R97). -/
inductive PullRegion where
  | pmu | grf | wm
  deriving DecidableEq, Repr, Inhabited

/-- The five trigger kinds, codes 0 to 4 of field `A` (R92). -/
inductive Trigger where
  | levelLow | levelHigh | edgeRising | edgeFalling | edgeBoth
  deriving DecidableEq, Repr, Inhabited

/-- The four pull modes, codes 0 to 3 of field `A` (R93). -/
inductive PullMode where
  | disabled | up | down | defaultEnabled
  deriving DecidableEq, Repr, Inhabited

/-- One operation of the block. Pin numbers, bank indices, register ids, group indices and the 4-bit
pull and trigger codes are natural numbers: the spec compares and subtracts them as naturals (R90,
R104), and codes and numbers outside the named ones still decode (R100). -/
inductive Instr where
  /-- `REG_READ`, `read B, REG` (R110). -/
  | regRead (b r : Nat)
  /-- `REG_WRITE`, `write B, REG, value` (R111). -/
  | regWrite (b r : Nat) (value : Word)
  /-- `SET_BITS`, `set_bits B, REG, mask, enable` (R114). -/
  | setBits (b r : Nat) (enable : Bool) (mask : Word)
  /-- `WM_WRITE`, `wm_write REGION, B, G, word` (R117). -/
  | wmWrite (region : PullRegion) (b g : Nat) (word : Word)
  /-- `WM_READ`, `wm_read REGION, B, G` (R118). -/
  | wmRead (region : PullRegion) (b g : Nat)
  /-- `SET_DIRECTION`, `set_direction PIN, in|out` (R131). -/
  | setDirection (pin : Nat) (output : Bool)
  /-- `SET_LEVEL`, `set_level PIN, 0|1` (R132). -/
  | setLevel (pin : Nat) (level : Bool)
  /-- `GET_LEVEL`, `get_level PIN` (R133). -/
  | getLevel (pin : Nat)
  /-- `SET_PULL`, `set_pull PIN, code` (R134). -/
  | setPull (pin code : Nat)
  /-- `SET_TRIGGER_TYPE`, `set_trigger_type PIN, code` (R138). -/
  | setTriggerType (pin code : Nat)
  /-- `REQUEST`, `request PIN` (R140). -/
  | request (pin : Nat)
  /-- `TO_IRQ`, `to_irq PIN` (R141). -/
  | toIrq (pin : Nat)
  /-- `IRQ_ENABLE`, `irq_enable PIN` (R170). -/
  | irqEnable (pin : Nat)
  /-- `IRQ_DISABLE`, `irq_disable PIN` (R171). -/
  | irqDisable (pin : Nat)
  /-- `IRQ_ACK`, `irq_ack PIN` (R172). -/
  | irqAck (pin : Nat)
  /-- `SET_WAKE`, `set_wake PIN, 0|1` (R173). -/
  | setWake (pin : Nat) (on : Bool)
  /-- `DEMUX`, `demux B` (R202). -/
  | demux (b : Nat)
  /-- `SUSPEND` (R220). -/
  | suspend
  /-- `RESUME` (R221). -/
  | resume
  deriving DecidableEq, Repr, Inhabited

/-- Why the decoder refuses what it is given: the cases of R100, and the accesses narrower than a
word of R66. -/
inductive DecodeError where
  /-- `OP` is not in the opcode map (R98). -/
  | unknownOp
  /-- Field `Z` is not 0. -/
  | nonzeroZ
  /-- A field that R99 requires to be 0 is not 0. -/
  | nonzeroField
  /-- A 1-bit `A` is 2 or more. -/
  | flagTooLarge
  /-- A region code is 3 or more. -/
  | reservedRegion
  /-- Fewer bytes than the word, or the data operand, needs (R66, R101). -/
  | narrow
  deriving DecidableEq, Repr

end Sys2Proof
end

