-- ==== Sys2Proof/Config.lean ====
section
/-! DEFINITION. What a system fixes (spec/00_scope.md R8) as plain data, and the free values that the
spec leaves to the environment. Nothing here changes while the machine runs (spec/10_state.md R20). -/

namespace Sys2Proof

/-- Byte order of a register word on the bus, `BUS_ENDIAN` (R66, D11). -/
inductive Endian where
  | little | big
  deriving DecidableEq, Repr, Inhabited

/-- One row of the static bank table (R8, R20): what each bank is built from. -/
structure BankRow where
  /-- `base_pin(b)`, the global number of pin 0. -/
  basePin : Nat
  /-- `pin_count(b)`, 32 or 16 in a valid table (R33). -/
  pinCount : Nat
  /-- `base_irq(b)`, the logical interrupt number of pin 0. -/
  baseIrq : Nat
  /-- `reg_base(b)`, the bus address of the register block. -/
  regBase : Nat
  /-- `clock(b)`, an opaque clock handle. -/
  clock : Nat
  /-- The bank has a cascade interrupt line mapping (R33 d). -/
  cascade : Bool
  /-- `IRQ_CORE(b)`, the core of the bank's interrupt agent. -/
  irqCore : Nat
  /-- `GRF_PULL_ADDR(b, g)` for g = 0 to 3 (layout 2). -/
  grfPullAddr : List Nat
  /-- `WM_PULL_ADDR(b, g)` for g = 0 to 3 (layout 3). -/
  wmPullAddr : List Nat
  deriving DecidableEq, Repr, Inhabited

/-- `PULL2_ENC`: the 2-bit field value of each mode, or none where the parameter leaves a mode
undefined (R88, R134). -/
structure Pull2Enc where
  disabled : Option (BitVec 2)
  up : Option (BitVec 2)
  down : Option (BitVec 2)
  deriving DecidableEq, Repr, Inhabited

/-- What the host interrupt framework may do around a dispatched pin (R255). -/
inductive FlowStep where
  /-- `IRQ_ACK(PIN)`. -/
  | ack
  /-- `IRQ_DISABLE(PIN)`. -/
  | mask
  /-- `Handler(n)`. -/
  | handler
  /-- `IRQ_ENABLE(PIN)`. -/
  | unmask
  /-- `IRQ_ENABLE(PIN)` if the handler did not disable the pin. -/
  | unmaskUnlessDisabled
  deriving DecidableEq, Repr, Inhabited

/-- `HOST_FLOW`: the steps for edge-type and for level-type pins (R255, D29). -/
structure HostFlow where
  edge : List FlowStep
  level : List FlowStep
  deriving DecidableEq, Repr, Inhabited

/-- The parameters of R8 that are common to all banks. `NBANKS` and the per-bank parameters are the
bank table itself. -/
structure Config where
  /-- `VARIANT`. -/
  variant : Variant
  /-- `PMU_PULL_REGION_PINS`. -/
  pmuPullRegionPins : Nat
  /-- `PULL1_ENABLE_VALUE`. -/
  pull1EnableValue : Bool
  /-- `PULL2_ENC`. -/
  pull2Enc : Pull2Enc
  /-- `HOST_FLOW`. -/
  hostFlow : HostFlow
  /-- `NESTED_DISPATCH`. -/
  nestedDispatch : Bool
  /-- `NCORES`. -/
  ncores : Nat
  /-- `CORE(a)` of the call-context agents 0, 1, …; an agent past the end of the list is on core 0. -/
  callCores : List Nat
  /-- The call-context agent that is the power-management agent (R223, R259). -/
  pmAgent : Nat
  /-- `BUS_ENDIAN`. -/
  busEndian : Endian
  /-- `REG_OFFSET(r)` for the register ids 0 to 8. -/
  regOffset : List Nat
  /-- `PMU_PULL_ADDR(g)` for g = 0, 1. -/
  pmuPullAddr : List Nat
  deriving DecidableEq, Repr, Inhabited

/-- The spec's default host flow (R255, D29). -/
def HostFlow.default : HostFlow :=
  { edge := [.ack, .handler], level := [.mask, .ack, .handler, .unmaskUnlessDisabled] }

/-- The spec's default `PULL2_ENC` (R88, D21). -/
def Pull2Enc.default : Pull2Enc := { disabled := some 0, up := some 1, down := some 2 }

/-- A free value: the pin-multiplexing controller's n-th verdict that the input queue does not
supply (R140, U12). It has no body, so nothing is known of it. -/
opaque Config.freeVerdict : Nat → Bool

/-- A free value: the n-th handler draw that the input queue does not supply (R255, U13). It has no
body, so nothing is known of it. -/
opaque Config.freeHandler : Nat → List Instr

/-- The parameters of the test configuration `TC` (spec/95_test_vectors.md section 0).
DESIGN CHOICE (log 2): reset takes these values; the addresses, which TC does not give either, are
the model's own. -/
def Config.tc : Config :=
  { variant := .pullPmuSplit
    pmuPullRegionPins := 12
    pull1EnableValue := true
    pull2Enc := Pull2Enc.default
    hostFlow := HostFlow.default
    nestedDispatch := true
    ncores := 1
    callCores := [0, 0]
    pmAgent := 1
    busEndian := .little
    regOffset := [0x0, 0x4, 0x8, 0xC, 0x10, 0x14, 0x18, 0x1C, 0x20]
    pmuPullAddr := [0x10000, 0x10004] }

/-- The three banks of the test configuration `TC` (spec/95_test_vectors.md section 0). -/
def BankRow.tcRows : List BankRow :=
  [ { basePin := 0, pinCount := 32, baseIrq := 160, regBase := 0x1000, clock := 0, cascade := true,
      irqCore := 0, grfPullAddr := [0x20000, 0x20004, 0x20008, 0x2000C],
      wmPullAddr := [0x30000, 0x30004, 0x30008, 0x3000C] },
    { basePin := 32, pinCount := 32, baseIrq := 192, regBase := 0x2000, clock := 1, cascade := true,
      irqCore := 0, grfPullAddr := [0x20010, 0x20014, 0x20018, 0x2001C],
      wmPullAddr := [0x30010, 0x30014, 0x30018, 0x3001C] },
    { basePin := 64, pinCount := 16, baseIrq := 224, regBase := 0x3000, clock := 2, cascade := true,
      irqCore := 0, grfPullAddr := [0x20020, 0x20024, 0x20028, 0x2002C],
      wmPullAddr := [0x30020, 0x30024, 0x30028, 0x3002C] } ]

end Sys2Proof
end

