-- ==== Sys2Proof/WellFormed.lean ====
section
/-! DEFINITION. Which operations the descriptor can express: every operand fits its field
(spec/30_encoding.md R95, R99). -/

namespace Sys2Proof

/-- `PIN` is a 16-bit field. -/
def pinFits (pin : Nat) : Bool := decide (pin < 2 ^ 16)

/-- `B`, `R` and `G` are 8-bit fields. -/
def byteFits (n : Nat) : Bool := decide (n < 2 ^ 8)

/-- `A` is a 4-bit field where it holds a pull or trigger code. -/
def codeFits (n : Nat) : Bool := decide (n < 2 ^ 4)

/-- Every operand fits the descriptor field that carries it (R95). -/
def Instr.wf : Instr → Bool
  | .regRead b r => byteFits b && byteFits r
  | .regWrite b r _ => byteFits b && byteFits r
  | .setBits b r _ _ => byteFits b && byteFits r
  | .wmWrite _ b g _ => byteFits b && byteFits g
  | .wmRead _ b g => byteFits b && byteFits g
  | .setDirection p _ => pinFits p
  | .setLevel p _ => pinFits p
  | .getLevel p => pinFits p
  | .setPull p c => pinFits p && codeFits c
  | .setTriggerType p c => pinFits p && codeFits c
  | .request p => pinFits p
  | .toIrq p => pinFits p
  | .irqEnable p => pinFits p
  | .irqDisable p => pinFits p
  | .irqAck p => pinFits p
  | .setWake p _ => pinFits p
  | .demux b => byteFits b
  | .suspend => true
  | .resume => true

end Sys2Proof
end

