-- ==== Sys2Proof/Decode.lean ====
section
/-! DEFINITION. The decoder, total on any words and any bytes, and after it the encoder
(spec/30_encoding.md R95 to R101). The descriptor is the spec's own, not hardware (D39). -/

namespace Sys2Proof

/-- Bits `[lo+n-1:lo]` of a word as an unsigned number (R10). -/
def field (w : Word) (lo n : Nat) : Nat := w.toNat / 2 ^ lo % 2 ^ n

/-- The operation, if `A` is 0 as R99 requires of it. -/
def needZero (a : Nat) (i : Instr) : Except DecodeError Instr :=
  if a = 0 then .ok i else .error .nonzeroField

/-- The operation with the 1-bit flag `A`; a larger `A` is malformed (R99, R100). -/
def needFlag (a : Nat) (i : Bool → Instr) : Except DecodeError Instr :=
  if a = 0 then .ok (i false) else if a = 1 then .ok (i true) else .error .flagTooLarge

/-- The operation with the pull region `A`; codes 3 to 15 are malformed (R97, R100). -/
def needRegion (a : Nat) (i : PullRegion → Instr) : Except DecodeError Instr :=
  if a = 0 then .ok (i .pmu)
  else if a = 1 then .ok (i .grf)
  else if a = 2 then .ok (i .wm)
  else .error .reservedRegion

/-- The opcode map (R98) with the use of `A` and `P` per operation (R99): `d0` is the data operand. -/
def decodeFields (op a p b r : Nat) (d0 : Word) : Except DecodeError Instr :=
  match op with
  | 0x01 => needZero a (.regRead b r)
  | 0x02 => needZero a (.regWrite b r d0)
  | 0x03 => needFlag a (fun e => .setBits b r e d0)
  | 0x04 => needRegion a (fun g => .wmWrite g b r d0)
  | 0x05 => needRegion a (fun g => .wmRead g b r)
  | 0x10 => needFlag a (fun e => .setDirection p e)
  | 0x11 => needFlag a (fun e => .setLevel p e)
  | 0x12 => needZero a (.getLevel p)
  | 0x13 => .ok (.setPull p a)
  | 0x14 => .ok (.setTriggerType p a)
  | 0x15 => needZero a (.request p)
  | 0x16 => needZero a (.toIrq p)
  | 0x20 => needZero a (.irqEnable p)
  | 0x21 => needZero a (.irqDisable p)
  | 0x22 => needZero a (.irqAck p)
  | 0x23 => needFlag a (fun e => .setWake p e)
  | 0x30 => if r = 0 then needZero a (.demux b) else .error .nonzeroField
  | 0x40 => if p = 0 then needZero a .suspend else .error .nonzeroField
  | 0x41 => if p = 0 then needZero a .resume else .error .nonzeroField
  | _ => .error .unknownOp

/-- Decode a descriptor word with the data operand beside it (R95, R100, R101). Operations that take
no data operand ignore `d0`. -/
def decodeWord (w d0 : Word) : Except DecodeError Instr :=
  if field w 16 4 = 0 then
    decodeFields (field w 24 8) (field w 20 4) (field w 0 16) (field w 8 8) (field w 0 8) d0
  else .error .nonzeroZ

/-- Whether a descriptor's operation takes the data operand `D0` (R101). -/
def takesOperand (w : Word) : Bool :=
  decide (field w 24 8 = 2 ∨ field w 24 8 = 3 ∨ field w 24 8 = 4)

/-- The four bytes of a word, the lowest address first, in the bus byte order (R66). -/
def wordBytes (e : Endian) (w : Word) : List Byte :=
  let low := [BitVec.ofNat 8 (w.toNat), BitVec.ofNat 8 (w.toNat / 2 ^ 8),
    BitVec.ofNat 8 (w.toNat / 2 ^ 16), BitVec.ofNat 8 (w.toNat / 2 ^ 24)]
  match e with
  | .little => low
  | .big => low.reverse

/-- The word that four bytes, the lowest address first, make in the bus byte order (R66). -/
def bytesWord (e : Endian) (x0 x1 x2 x3 : Byte) : Word :=
  match e with
  | .little => BitVec.ofNat 32
      (x0.toNat + x1.toNat * 2 ^ 8 + x2.toNat * 2 ^ 16 + x3.toNat * 2 ^ 24)
  | .big => BitVec.ofNat 32
      (x3.toNat + x2.toNat * 2 ^ 8 + x1.toNat * 2 ^ 16 + x0.toNat * 2 ^ 24)

/-- The first word of a list of bytes and the bytes after it; none if there are fewer than four: an
access narrower than 32 bits is refused (R66). -/
def takeWord (e : Endian) : List Byte → Option (Word × List Byte)
  | x0 :: x1 :: x2 :: x3 :: rest => some (bytesWord e x0 x1 x2 x3, rest)
  | _ => none

/-- Decode the bytes a bus master presents: the descriptor word, then the data operand where the
operation takes one. The bytes after those are given back. -/
def decodeBytes (e : Endian) (bytes : List Byte) : Except DecodeError (Instr × List Byte) :=
  match takeWord e bytes with
  | none => .error .narrow
  | some (w, rest) =>
    if takesOperand w then
      match takeWord e rest with
      | none =>
        match decodeWord w 0 with
        | .error err => .error err
        | .ok _ => .error .narrow
      | some (d0, rest') =>
        match decodeWord w d0 with
        | .error err => .error err
        | .ok i => .ok (i, rest')
    else
      match decodeWord w 0 with
      | .error err => .error err
      | .ok i => .ok (i, rest)

/-- The eight bytes of a table word: the descriptor word and the data operand, each in the bus byte
order, the bits from `nbits` up all 0. -/
def tableBytes (e : Endian) (nbits w : Nat) : List Byte :=
  wordBytes e (BitVec.ofNat 32 (w % 2 ^ nbits)) ++
    wordBytes e (BitVec.ofNat 32 (w % 2 ^ nbits / 2 ^ 32))

/-- What the decoder reads from an instruction whose bits are `w`. -/
def decodeTableWord (nbits w : Nat) : Option Instr :=
  match decodeBytes .little (tableBytes .little nbits w) with
  | .ok (i, _) => some i
  | .error _ => none

/-! ### The encoder -/

/-- A descriptor from its fields `OP`, `A` and `P`, with `Z` = 0 (R95). -/
def descriptor (op a p : Nat) : Word := BitVec.ofNat 32 (op * 2 ^ 24 + a * 2 ^ 20 + p)

/-- The field `P` of a bank operation: `B` in bits [15:8], `R` or `G` in bits [7:0] (R95). -/
def bankField (b r : Nat) : Nat := b * 2 ^ 8 + r

/-- The code of a 1-bit flag. -/
def flagCode (f : Bool) : Nat := if f then 1 else 0

/-- The code of a pull region (R97). -/
def PullRegion.code : PullRegion → Nat
  | .pmu => 0
  | .grf => 1
  | .wm => 2

/-- The descriptor word of an operation (R98, R99). -/
def encodeWord : Instr → Word
  | .regRead b r => descriptor 0x01 0 (bankField b r)
  | .regWrite b r _ => descriptor 0x02 0 (bankField b r)
  | .setBits b r e _ => descriptor 0x03 (flagCode e) (bankField b r)
  | .wmWrite g b n _ => descriptor 0x04 g.code (bankField b n)
  | .wmRead g b n => descriptor 0x05 g.code (bankField b n)
  | .setDirection p e => descriptor 0x10 (flagCode e) p
  | .setLevel p e => descriptor 0x11 (flagCode e) p
  | .getLevel p => descriptor 0x12 0 p
  | .setPull p c => descriptor 0x13 c p
  | .setTriggerType p c => descriptor 0x14 c p
  | .request p => descriptor 0x15 0 p
  | .toIrq p => descriptor 0x16 0 p
  | .irqEnable p => descriptor 0x20 0 p
  | .irqDisable p => descriptor 0x21 0 p
  | .irqAck p => descriptor 0x22 0 p
  | .setWake p e => descriptor 0x23 (flagCode e) p
  | .demux b => descriptor 0x30 0 (bankField b 0)
  | .suspend => descriptor 0x40 0 0
  | .resume => descriptor 0x41 0 0

/-- The data operand of the three operations that take one (R101). -/
def encodeOperand : Instr → Option Word
  | .regWrite _ _ v => some v
  | .setBits _ _ _ m => some m
  | .wmWrite _ _ _ w => some w
  | _ => none

/-- The words of an operation, the descriptor first. -/
def encode (i : Instr) : List Word := encodeWord i :: (encodeOperand i).toList

/-- The bytes of an operation's words, the descriptor first, in the bus byte order. -/
def encodeBytes (e : Endian) (i : Instr) : List Byte := (encode i).flatMap (wordBytes e)

end Sys2Proof
end

