-- ==== Sys2Proof/Machine/State.lean ====
section
/-! DEFINITION. The state of the block as plain data (spec/10_state.md), the agents that step it
(spec/60_exceptions.md R259), and the state after reset (spec/10_state.md R51). -/

namespace Sys2Proof.Machine

open Sys2Proof

/-- An agent that takes steps (R259): a call-context agent by number, or the interrupt agent of a
bank. The environment's steps are inputs. -/
inductive Agent where
  | call (n : Nat)
  | irq (b : Nat)
  deriving DecidableEq, Repr, Inhabited

/-- The faults of R241. One stops the agent that takes it for good and is recorded in its context. -/
inductive AgentFault where
  | invalidRegister
  | clockGatedAccess
  | selfDeadlock
  deriving DecidableEq, Repr

/-- The result codes 0 to 4 that operations return (R94, R240). -/
inductive ResultCode where
  | ok | outOfRange | unsupportedTrigger | unsupportedPull | requestRefused
  deriving DecidableEq, Repr

/-- What an operation gave its caller (the result column of R98). -/
inductive OpResult where
  /-- It ended and returns nothing. -/
  | done
  /-- A 32-bit value (`REG_READ`, `WM_READ`). -/
  | word (w : Word)
  /-- A result code alone. -/
  | code (c : ResultCode)
  /-- `(OK, level)` (`GET_LEVEL`). -/
  | level (l : Bool)
  /-- `(OK, irq)` (`TO_IRQ`), a natural number with no wrap (R104). -/
  | irq (n : Nat)
  deriving DecidableEq, Repr

/-- The software bank fields of spec/10_state.md section 4 that are 32-bit masks. -/
inductive SoftField where
  | wakeMask | savedEnable | toggleEdgeMask
  deriving DecidableEq, Repr

/-- The local variables an operation's pseudocode assigns (`x <- v`, R11). -/
inductive LocalVar where
  | v | wake | saved
  deriving DecidableEq, Repr

/-- The values of those locals while an operation is under way. -/
structure Locals where
  /-- The value last read (`v`, `st`, `saved` of the pseudocode). -/
  v : Word := 0
  /-- `wake_mask(b)` as last read. -/
  wake : Word := 0
  /-- `saved_enable(b)` as last read. -/
  saved : Word := 0
  /-- The level, verdict or `gated(b)` last read. -/
  flag : Bool := false
  deriving DecidableEq, Repr, Inhabited

/-- A value to write, computed from the locals. -/
inductive Val where
  /-- A constant. -/
  | lit (w : Word)
  /-- The value read. -/
  | v
  /-- The value read with the mask's bits set. -/
  | setMask (m : Word)
  /-- The value read with the mask's bits cleared. -/
  | clearMask (m : Word)
  /-- The value read with the mask's bits set to the complement of the flag (R138, `1 - lvl`). -/
  | setNotFlag (m : Word)
  /-- The wake mask read. -/
  | wake
  /-- `saved_enable | (st & wake_mask)` (R221). -/
  | resumed
  deriving DecidableEq, Repr

/-- The two power states (R262). -/
inductive PowerState where
  | running | suspended
  deriving DecidableEq, Repr, Inhabited

/-- One atomic step of an operation (R12): a bus access, a lock step, a host call, an access to a
software bank field, or a local step. What each does is `microStep` in Machine/Ops.lean. -/
inductive Micro where
  | lock (b : Nat)
  | unlock (b : Nat)
  | busRead (b : Nat) (r : Reg)
  | busWrite (b : Nat) (r : Reg) (e : Val)
  /-- `lvl <- BusRead(b, EXT)[i]`. -/
  | readLevel (b i : Nat)
  | pullRead (g : PullRegion) (b n : Nat)
  | pullWrite (g : PullRegion) (b n : Nat) (w : Word)
  | softRead (b : Nat) (f : SoftField) (x : LocalVar)
  | softWrite (b : Nat) (f : SoftField) (e : Val)
  /-- The host call `ClockDisable(clock(b))`, if the wake mask read is 0 (R220). -/
  | clockDisableIfNoWake (b : Nat)
  /-- `clock_on(b) <- false`, if the wake mask read is 0 (R220). -/
  | clockOffIfNoWake (b : Nat)
  /-- `gated(b) <- true`, if the wake mask read is 0 (R220). -/
  | gateIfNoWake (b : Nat)
  /-- Read `gated(b)` (R221). -/
  | readGated (b : Nat)
  /-- The host call `ClockEnable(clock(b))`, if the bank was read as gated (R221). -/
  | clockEnableIfGated (b : Nat)
  /-- `clock_on(b) <- true`, if the bank was read as gated (R221). -/
  | clockOnIfGated (b : Nat)
  /-- `gated(b) <- false`, if the bank was read as gated (R221). -/
  | ungateIfGated (b : Nat)
  /-- The system is now running or suspended (R262). -/
  | setPower (p : PowerState)
  /-- `PinmuxRequest(pin)`, a draw (R140). -/
  | pinmux (pin : Nat)
  | ret (r : OpResult)
  | retWord
  | retLevel
  | retVerdict
  /-- A check that failed: `fault F` (R11). -/
  | raiseFault (f : AgentFault)
  /-- Step 4c of bank b's pass is over (R197). -/
  | serviced (b : Nat)
  /-- Step 5 of bank b's pass is over (R199). -/
  | updated (b : Nat)
  deriving DecidableEq, Repr

/-- What an agent is doing: the atomic steps left of its operation, the operation's locals, the
result it was last given, and the fault that stopped it, if any. -/
structure Ctx where
  plan : List Micro := []
  loc : Locals := {}
  result : Option OpResult := none
  fault : Option AgentFault := none
  deriving DecidableEq, Repr, Inhabited

/-- Where a pass is (R45). `snapTmask` is the first atomic step of R193; `scan`, `service` and
`clear` are the parts of the spec's position `Scan`: steps 4 and 4a, 4b and 4c, and 4d. -/
inductive PassPos where
  | enter | snapIsr | snapIlr | snapTmask | snapPol | snapLvl
  | scan | service | clear | update | exit
  deriving DecidableEq, Repr, Inhabited

/-- The pass registers (R46). A value that R193 leaves unset is `none`. -/
structure PassRegs where
  isrSnap : Word := 0
  ilrSnap : Word := 0
  tmaskSnap : Word := 0
  polSnap : Option Word := none
  lvlSnap : Option Word := none
  newPol : Option Word := none
  remaining : Word := 0
  cur : Nat := 0
  acked : Bool := false
  needUpdate : Bool := false
  deriving DecidableEq, Repr, Inhabited

/-- `pass(b)`, the demultiplexer's sequencer (R45). An idle pass has no registers (R46, R200). -/
inductive Pass where
  | idle
  | active (pos : PassPos) (regs : PassRegs)
  deriving DecidableEq, Repr, Inhabited

/-- The four pull registers of a bank and region, 16 data bits each (R36, R37, R38). -/
structure PullQuad where
  g0 : Half := 0
  g1 : Half := 0
  g2 : Half := 0
  g3 : Half := 0
  deriving DecidableEq, Repr, Inhabited

/-- `PMU_PULL[0]` and `PMU_PULL[1]` (R35). -/
structure PullPair where
  g0 : Half := 0
  g1 : Half := 0
  deriving DecidableEq, Repr, Inhabited

/-- One bank: its row of the bank table, its registers, its latch, its software fields and its
cascade and pass state (R20). `EXT`, `INTSTATUS` and `EOI` store nothing (R25, R30, R31). -/
structure Bank where
  /-- The bank's row of the bank table: configuration, never changed (R20). -/
  row : BankRow
  dir : Word
  dr : Word
  inten : Word
  inttype : Word
  intpol : Word
  /-- `LATCH(b)` (R29). -/
  latch : Word
  /-- `PULL1`, present in layout 1 only (R34). -/
  pull1 : Word
  /-- `GRF_PULL[b]`, present in layout 2 only (R36). -/
  grfPull : PullQuad
  /-- `WM_PULL[b]`, present in layout 3 only (R37). -/
  wmPull : PullQuad
  /-- `env(b)`, the input that the environment drives (R25). -/
  env : Word
  wakeMask : Word
  savedEnable : Word
  toggleEdgeMask : Word
  /-- `lock(b)`: free, or the agent that holds it (R42). -/
  lock : Option Agent
  clockOn : Bool
  gated : Bool
  /-- `in_service(b)` of the parent controller (R44). -/
  inService : Bool
  pass : Pass
  deriving DecidableEq, Repr, Inhabited

/-- A call the block makes to a collaborator (R11, R266). -/
inductive HostCall where
  | chainedEnter (b : Nat)
  | chainedExit (b : Nat)
  | dispatch (n : Nat)
  | clockEnable (h : Nat)
  | clockDisable (h : Nat)
  | pinmuxRequest (pin : Nat)
  /-- Bank `b`'s cascade handler is registered with the host interrupt framework (R282 step 6). -/
  | registerHandler (b : Nat)
  deriving DecidableEq, Repr

/-- What happens next from outside the block: which agent moves, or what the environment does. -/
inductive Input where
  /-- An agent issues the descriptor in these bytes and runs it with no other agent's step between
  its own. -/
  | issue (a : Agent) (bytes : List Byte)
  /-- An agent issues the descriptor in these bytes and takes no step of it yet. -/
  | start (a : Agent) (bytes : List Byte)
  /-- An agent takes its next atomic step. -/
  | advance (a : Agent)
  /-- An agent runs what is left of its operation or pass until it ends or waits. -/
  | run (a : Agent)
  /-- A bus master reads at a bus address, `size` bytes wide. -/
  | busRead (a : Agent) (addr size : Nat)
  /-- A bus master writes these bytes at a bus address. -/
  | busWrite (a : Agent) (addr : Nat) (bytes : List Byte)
  /-- The environment sets `env(b)` (R25, R259). -/
  | setEnv (b : Nat) (v : Word)
  /-- The environment supplies the next pin-multiplexing verdict (R140). -/
  | verdict (accept : Bool)
  /-- The environment supplies the next handler draw (R255). -/
  | handler (ops : List Instr)
  deriving DecidableEq, Repr

/-- Everything the machine holds. -/
structure State where
  /-- The parameters of R8: configuration, never changed. -/
  cfg : Config
  /-- The banks, one for each row of the bank table (R20). -/
  banks : List Bank
  /-- The PMU region's pull registers, present in layout 2 only (R35). -/
  pmuPull : PullPair
  /-- Running or suspended (R262). -/
  power : PowerState
  /-- The contexts of the agents that have acted; any other agent's context is the initial one. -/
  ctxs : List (Agent × Ctx)
  /-- The agent whose operation `exec` performs. -/
  actor : Agent
  /-- What happens next, the first first (a field of the model). -/
  inputs : List Input
  /-- Verdicts supplied and not yet drawn (a field of the model). -/
  verdicts : List Bool
  /-- Handler draws supplied and not yet drawn (a field of the model). -/
  handlers : List (List Instr)
  /-- How many free values have been drawn (a field of the model). -/
  freeDraws : Nat
  /-- The calls made to collaborators, those of initialisation among them, the first first (a field of
  the model, log 20). -/
  trace : List HostCall
  deriving DecidableEq, Repr, Inhabited

/-- A stop of the whole machine. -/
inductive Fault where
  /-- The bank table breaks R33: initialisation stops, no bank exists and no operation has meaning
  (R243, R283). Raised by `initialise` and by `step`. Safe. -/
  | invalidBankTable
  deriving DecidableEq, Repr

/-- What the model gives no meaning to (R242): the permanent refused mark, with no state change. -/
inductive Refusal where
  /-- An instruction that has no meaning in this model. Raised by no arm now. Safe. -/
  | notModelled (mnemonic : String)
  /-- A malformed descriptor, or an access narrower than 32 bits (R100, R66). Raised by `step`, and
  safe. -/
  | malformed (e : DecodeError)
  /-- A `DEMUX` from an agent other than the bank's interrupt agent, or at a time R254 does not allow.
  Raised by the meaning of `DEMUX`, and safe. -/
  | notDeliverable (a : Agent) (b : Nat)
  deriving DecidableEq, Repr

/-- The values of one bank's registers that `RESET_<reg>` may override (R8, R280). The defaults are
those of R51; where R51 says any value (the pull registers and `env`) the default is 0, a DESIGN
CHOICE (log 1). -/
structure BankReset where
  dir : Word := 0
  dr : Word := 0
  inten : Word := 0
  inttype : Word := 0
  intpol : Word := 0
  latch : Word := 0
  pull1 : Word := 0
  grfPull : PullQuad := {}
  wmPull : PullQuad := {}
  env : Word := 0
  deriving DecidableEq, Repr, Inhabited

/-- Every `RESET_<reg>` override: those of bank 0, 1 and so on, a bank past the end of the list having
none, and those of the PMU block. The spec gives `RESET_<reg>` no bank index; that each bank, and each
pull register of a bank, has its own is the model's DESIGN CHOICE, and one value for all banks is a
list of equal entries (log 1). -/
structure ResetValues where
  banks : List BankReset := []
  pmuPull : PullPair := {}
  deriving DecidableEq, Repr, Inhabited

/-- A bank after initialisation: the software and cascade state of R51 over the given register
values. -/
def Bank.initial (rv : BankReset) (row : BankRow) : Bank :=
  { row, dir := rv.dir, dr := rv.dr, inten := rv.inten, inttype := rv.inttype, intpol := rv.intpol
    latch := rv.latch, pull1 := rv.pull1, grfPull := rv.grfPull, wmPull := rv.wmPull, env := rv.env
    wakeMask := 0, savedEnable := 0, toggleEdgeMask := 0, lock := none, clockOn := true
    gated := false, inService := false, pass := .idle }

/-- The banks that a bank table constructs, the first with the number `b` (R282 step 2). -/
def banksFrom (rv : ResetValues) (b : Nat) : List BankRow → List Bank
  | [] => []
  | row :: rest => Bank.initial (rv.banks.getD b {}) row :: banksFrom rv (b + 1) rest

/-- The calls that initialisation makes: each bank's clock is enabled (R282 step 5), then each bank's
cascade handler is registered (step 6). The banks in ascending order in both: DESIGN CHOICE (log
30). -/
def initCalls (rows : List BankRow) : List HostCall :=
  rows.map (fun row => .clockEnable row.clock) ++ (List.range rows.length).map .registerHandler

/-- The state after initialisation of a system with these parameters and this bank table (R280,
R282 steps 2 to 6). -/
def State.initial (cfg : Config) (rows : List BankRow) (rv : ResetValues) : State :=
  { cfg, banks := banksFrom rv 0 rows, pmuPull := rv.pmuPull, power := .running, ctxs := []
    actor := .call 0, inputs := [], verdicts := [], handlers := [], freeDraws := 0
    trace := initCalls rows }

/-- The machine right after reset: R51 over the test configuration of spec/95_test_vectors.md
(DESIGN CHOICE for the parameters and for the values R51 leaves open, log 1 and 2). -/
def State.reset : State := State.initial Config.tc BankRow.tcRows {}

end Sys2Proof.Machine
end

