-- ==== Sys2Proof/Machine/Flags.lean ====
section
/-! DEFINITION. The conditions the block derives from a bank's state: the pin mask, the pad, the
active-sense condition, the pending status, the bank line, edge detection and the trigger type
(spec/10_state.md R25, R30, R32, R48; spec/60_exceptions.md R246 to R251). The block has no flags
register (R21). -/

namespace Sys2Proof.Machine

open Sys2Proof

/-- The mask of a bank's pins, `(1 << pin_count) - 1` (R112). -/
def Bank.pinMask (k : Bank) : Word := BitVec.ofNat 32 (2 ^ k.row.pinCount - 1)

/-- The pad levels (R25). -/
def Bank.pad (k : Bank) : Word := ((k.dir &&& k.dr) ||| (~~~k.dir &&& k.env)) &&& k.pinMask

/-- The active-sense condition `s` of every pin (R30). -/
def Bank.sense (k : Bank) : Word := ~~~(k.pad ^^^ k.intpol) &&& k.pinMask

/-- `INTSTATUS`, derived and never stored (R30, R112). -/
def Bank.status (k : Bank) : Word :=
  k.inten &&& ((k.inttype &&& k.latch) ||| (~~~k.inttype &&& k.sense)) &&& k.pinMask

/-- `line(b)` (R251, R263). -/
def Bank.line (k : Bank) : Bool := k.clockOn && decide (k.status ≠ 0)

/-- The latches that a step from `before` to `after` sets (R247, R263). -/
def newLatches (before after : Bank) : Word :=
  if after.clockOn then
    after.inten &&& after.inttype &&& ~~~before.sense &&& after.sense &&& after.pinMask
  else 0

/-- `EdgeDetect(b)` of a step from `before` to `after` (R247). -/
def edgeDetect (before after : Bank) : Bank :=
  { after with latch := after.latch ||| newLatches before after }

/-- The trigger type of a pin offset (R48). -/
def Bank.triggerType (k : Bank) (i : Nat) : Trigger :=
  if k.toggleEdgeMask.getLsbD i then .edgeBoth
  else match k.inttype.getLsbD i, k.intpol.getLsbD i with
    | false, false => .levelLow
    | false, true => .levelHigh
    | true, true => .edgeRising
    | true, false => .edgeFalling

/-- Edge-type kinds take the edge flow (R255). -/
def isEdgeTrigger : Trigger → Bool
  | .edgeRising | .edgeFalling | .edgeBoth => true
  | .levelLow | .levelHigh => false

end Sys2Proof.Machine
end

