-- ==== Sys2Proof/Machine/Operands.lean ====
section
/-! DEFINITION. What an operation's operands name: registers, pins, interrupt numbers, pull fields,
codes and bus addresses (spec/30_encoding.md R80 to R97, spec/20_memory.md R63 to R67), and the
check of the bank table (spec/10_state.md R33). -/

namespace Sys2Proof.Machine

open Sys2Proof

/-- `NBANKS` (R8). -/
def State.nbanks (s : State) : Nat := s.banks.length

/-! ### The bank table -/

/-- Two rows, the first before the second, keep R33 (b) and (c): pin ranges ascend and do not
overlap, and interrupt ranges do not overlap. -/
def rowsApart (x y : BankRow) : Bool :=
  decide (x.basePin + x.pinCount ≤ y.basePin) &&
    (decide (x.baseIrq + x.pinCount ≤ y.baseIrq) || decide (y.baseIrq + y.pinCount ≤ x.baseIrq))

/-- One row keeps R33 (a) and (d). -/
def rowOk (x : BankRow) : Bool :=
  (decide (x.pinCount = 32) || decide (x.pinCount = 16)) && x.cascade

/-- The bank table keeps R33. -/
def tableOk : List BankRow → Bool
  | [] => true
  | x :: rest => rowOk x && rest.all (rowsApart x ·) && tableOk rest

/-- The bank table of a state. -/
def State.rows (s : State) : List BankRow := s.banks.map (·.row)

/-- The bank table of the state keeps R33, and there is at least one bank (R8). -/
def State.tableOk (s : State) : Bool :=
  decide (s.banks ≠ []) && Sys2Proof.Machine.tableOk s.rows

/-! ### Registers -/

/-- The register with an id, where the variant has it (R96): `PULL1` exists in layout 1 only. -/
def regOfId (var : Variant) (r : Nat) : Option Reg :=
  match r with
  | 0 => some .dir
  | 1 => some .dr
  | 2 => some .ext
  | 3 => some .inten
  | 4 => some .inttype
  | 5 => some .intpol
  | 6 => some .intstatus
  | 7 => some .eoi
  | 8 => if var = .pullGeneric then some .pull1 else none
  | _ => none

/-- The id of a register (R96). -/
def regId : Reg → Nat
  | .dir => 0
  | .dr => 1
  | .ext => 2
  | .inten => 3
  | .inttype => 4
  | .intpol => 5
  | .intstatus => 6
  | .eoi => 7
  | .pull1 => 8

/-- The register that `(B, R)` names; none if it is an invalid register address (R96). -/
def State.regAt (s : State) (b r : Nat) : Option Reg :=
  if b < s.nbanks then regOfId s.cfg.variant r else none

/-! ### Pins and interrupt numbers -/

/-- `ResolvePin` over the banks from index `b` on (R90). -/
def resolveFrom (b : Nat) (p : Nat) : List Bank → Option (Nat × Nat)
  | [] => none
  | k :: rest =>
    if k.row.basePin ≤ p ∧ p < k.row.basePin + k.row.pinCount then some (b, p - k.row.basePin)
    else resolveFrom (b + 1) p rest

/-- `ResolvePin(p)`: the bank and the offset; none is `OutOfRange` (R90). -/
def State.resolvePin (s : State) (p : Nat) : Option (Nat × Nat) := resolveFrom 0 p s.banks

/-- `IrqToPin` over the banks from index `b` on (R91). -/
def irqToPinFrom (b : Nat) (n : Nat) : List Bank → Option (Nat × Nat)
  | [] => none
  | k :: rest =>
    if k.row.baseIrq ≤ n ∧ n < k.row.baseIrq + k.row.pinCount then some (b, n - k.row.baseIrq)
    else irqToPinFrom (b + 1) n rest

/-- `IrqToPin(n)`, the inverse of `to_interrupt_number`, undefined (none) off its range (R91). -/
def State.irqToPin (s : State) (n : Nat) : Option (Nat × Nat) := irqToPinFrom 0 n s.banks

/-- `to_interrupt_number` of pin offset `i` of bank `b` (R91). -/
def State.irqNumber (s : State) (b i : Nat) : Nat :=
  match s.banks[b]? with
  | some k => k.row.baseIrq + i
  | none => i

/-! ### Codes -/

/-- The trigger kind of a code; none for the codes 5 to 15 (R92). -/
def triggerOfCode (c : Nat) : Option Trigger :=
  match c with
  | 0 => some .levelLow
  | 1 => some .levelHigh
  | 2 => some .edgeRising
  | 3 => some .edgeFalling
  | 4 => some .edgeBoth
  | _ => none

/-- The pull mode of a code; none for the codes 4 to 15 (R93). -/
def pullOfCode (c : Nat) : Option PullMode :=
  match c with
  | 0 => some .disabled
  | 1 => some .up
  | 2 => some .down
  | 3 => some .defaultEnabled
  | _ => none

/-- `PULL2_ENC(m)`; none where it is undefined, as it is for `default_enabled` (R88, R134). -/
def pull2Value (e : Pull2Enc) : PullMode → Option (BitVec 2)
  | .disabled => e.disabled
  | .up => e.up
  | .down => e.down
  | .defaultEnabled => none

/-- The numeric result codes (R94). -/
def ResultCode.number : ResultCode → Nat
  | .ok => 0
  | .outOfRange => 1
  | .unsupportedTrigger => 2
  | .unsupportedPull => 3
  | .requestRefused => 4

/-! ### Pull fields -/

/-- Where the pull field of a pin is: region, group and shift (R85, R86, R87). -/
structure PullPlace where
  region : PullRegion
  group : Nat
  shift : Nat
  deriving DecidableEq, Repr

/-- The place of a pin's 2-bit pull field in layout 2 (R85, R86, R136). -/
def pullPlaceSplit (pmuPins b i : Nat) : PullPlace :=
  if b = 0 ∧ i < pmuPins then ⟨.pmu, i / 8, i % 8 * 2⟩ else ⟨.grf, i / 8, (7 - i % 8) * 2⟩

/-- The place of a pin's 2-bit pull field in layout 3 (R87, R137). -/
def pullPlaceWm (i : Nat) : PullPlace := ⟨.wm, i / 8, i % 8 * 2⟩

/-- The write-mask word of a 2-bit field: `(0x3 << (16 + sh)) | (val << sh)` (R83). -/
def writeMaskWord (sh : Nat) (val : BitVec 2) : Word :=
  (3#32 <<< (16 + sh)) ||| (val.setWidth 32 <<< sh)

/-- Whether a region, bank and group name a pull register that exists (R97). -/
def pullExists (var : Variant) (nbanks : Nat) (g : PullRegion) (b n : Nat) : Bool :=
  match g with
  | .pmu => decide (var = .pullPmuSplit ∧ b = 0 ∧ n < 2 ∧ b < nbanks)
  | .grf => decide (var = .pullPmuSplit ∧ n < 4 ∧ b < nbanks)
  | .wm => decide (var = .pullWritemask ∧ n < 4 ∧ b < nbanks)

/-- Whether a region, bank and group name a pull register of this system (R97). -/
def State.pullOk (s : State) (g : PullRegion) (b n : Nat) : Bool :=
  pullExists s.cfg.variant s.nbanks g b n

/-! ### Bus addresses -/

/-- What a bus address names. -/
inductive BusTarget where
  | reg (b : Nat) (r : Reg)
  | pull (g : PullRegion) (b n : Nat)
  deriving DecidableEq, Repr

/-- Every register of the system with its bus address: the bank block at `reg_base(b) +
REG_OFFSET(r)` (R63), and the pull registers of the variant (R64). The spec leaves the address width
open; an address is a natural number of no width here, and the sum never wraps: DESIGN CHOICE (log
26). -/
def State.addressMap (s : State) : List (Nat × BusTarget) :=
  let perBank := s.banks.zipIdx.flatMap fun (k, b) =>
    (s.cfg.regOffset.zipIdx.filterMap fun (off, r) =>
      (regOfId s.cfg.variant r).map fun reg => (k.row.regBase + off, BusTarget.reg b reg)) ++
    (k.row.grfPullAddr.zipIdx.filterMap fun (a, n) =>
      if s.pullOk .grf b n then some (a, BusTarget.pull .grf b n) else none) ++
    (k.row.wmPullAddr.zipIdx.filterMap fun (a, n) =>
      if s.pullOk .wm b n then some (a, BusTarget.pull .wm b n) else none)
  perBank ++ (s.cfg.pmuPullAddr.zipIdx.filterMap fun (a, n) =>
    if s.pullOk .pmu 0 n then some (a, BusTarget.pull .pmu 0 n) else none)

/-- The register at a bus address; none for an address that is no register's (R67). -/
def State.busTarget (s : State) (addr : Nat) : Option BusTarget :=
  (s.addressMap.find? (fun x => x.1 == addr)).map (·.2)

/-- Every register is at a 4-byte-aligned bus address (R67), no two at one. -/
def State.addressesOk (s : State) : Bool :=
  s.addressMap.all (fun x => x.1 % 4 == 0) && decide (s.addressMap.map (·.1)).Nodup

/-! ### Agents and cores -/

/-- The core of an agent: `CORE(a)` or `IRQ_CORE(b)` (R8, R259). -/
def State.coreOf (s : State) : Agent → Nat
  | .call n => s.cfg.callCores.getD n 0
  | .irq b =>
    match s.banks[b]? with
    | some k => k.row.irqCore
    | none => 0

/-- The parameters are in their legal ranges (R8). -/
def State.paramsOk (s : State) : Bool :=
  decide (1 ≤ s.cfg.ncores) && s.cfg.callCores.all (· < s.cfg.ncores) &&
    s.rows.all (·.irqCore < s.cfg.ncores) && decide (s.cfg.pmuPullRegionPins ≤ 16) &&
    decide (s.cfg.regOffset.length = 9) && s.addressesOk

end Sys2Proof.Machine
end

