-- ==== Sys2Proof/Machine/Ops.lean ====
section
/-! DEFINITION. The shared operations: bus and pull accesses (spec/40_register_primitives.md R112 to
R116), locks (spec/20_memory.md R60, R61), host calls, contexts, taking a fault or an interrupt and
returning from one (spec/60_exceptions.md R241, R252 to R254), and running the atomic steps of an
operation (spec/00_scope.md R12). -/

namespace Sys2Proof.Machine

open Sys2Proof

/-- The outcome of one operation or step. -/
abbrev Out := Host.Outcome State Fault Refusal

/-! ### Banks -/

/-- The state with bank `b` replaced. -/
def State.setBank (s : State) (b : Nat) (k : Bank) : State := { s with banks := s.banks.set b k }

/-- The state with one more call to a collaborator. -/
def State.emit (s : State) (c : HostCall) : State := { s with trace := s.trace ++ [c] }

/-- `BusRead(b, r)` on a bank (R112). -/
def Bank.busRead (k : Bank) (r : Reg) : Except AgentFault Word :=
  if k.clockOn then
    .ok (match r with
      | .dir => k.dir &&& k.pinMask
      | .dr => k.dr &&& k.pinMask
      | .ext => k.pad &&& k.pinMask
      | .inten => k.inten &&& k.pinMask
      | .inttype => k.inttype &&& k.pinMask
      | .intpol => k.intpol &&& k.pinMask
      | .intstatus => k.status
      | .eoi => 0
      | .pull1 => k.pull1 &&& k.pinMask)
  else .error .clockGatedAccess

/-- What a bus write stores, before edge detection (R113). -/
def Bank.store (k : Bank) (r : Reg) (v : Word) : Bank :=
  match r with
  | .dir => { k with dir := v &&& k.pinMask }
  | .dr => { k with dr := v &&& k.pinMask }
  | .ext => k
  | .inten => { k with inten := v &&& k.pinMask }
  | .inttype => { k with inttype := v &&& k.pinMask }
  | .intpol => { k with intpol := v &&& k.pinMask }
  | .intstatus => k
  | .eoi => { k with latch := k.latch &&& ~~~(v &&& k.pinMask) }
  | .pull1 => { k with pull1 := v &&& k.pinMask }

/-- `BusWrite(b, r, v)` on a bank, edge detection in the same step (R113). -/
def Bank.busWrite (k : Bank) (r : Reg) (v : Word) : Except AgentFault Bank :=
  if k.clockOn then .ok (edgeDetect k (k.store r v)) else .error .clockGatedAccess

/-- The environment's step on a bank: `env(b) <- v`, edge detection in the same step (R247, R259). -/
def Bank.setEnv (k : Bank) (v : Word) : Bank := edgeDetect k { k with env := v }

/-- A software bank field. -/
def Bank.soft (k : Bank) : SoftField → Word
  | .wakeMask => k.wakeMask
  | .savedEnable => k.savedEnable
  | .toggleEdgeMask => k.toggleEdgeMask

/-- The bank with a software field written. -/
def Bank.setSoft (k : Bank) (f : SoftField) (v : Word) : Bank :=
  match f with
  | .wakeMask => { k with wakeMask := v }
  | .savedEnable => { k with savedEnable := v }
  | .toggleEdgeMask => { k with toggleEdgeMask := v }

/-! ### Pull registers -/

/-- One register of a bank's four. -/
def PullQuad.get (q : PullQuad) (n : Nat) : Option Half :=
  match n with
  | 0 => some q.g0
  | 1 => some q.g1
  | 2 => some q.g2
  | 3 => some q.g3
  | _ => none

/-- A bank's four registers with one written. -/
def PullQuad.set (q : PullQuad) (n : Nat) (d : Half) : PullQuad :=
  match n with
  | 0 => { q with g0 := d }
  | 1 => { q with g1 := d }
  | 2 => { q with g2 := d }
  | 3 => { q with g3 := d }
  | _ => q

/-- One of the PMU block's two registers. -/
def PullPair.get (q : PullPair) (n : Nat) : Option Half :=
  match n with
  | 0 => some q.g0
  | 1 => some q.g1
  | _ => none

/-- The PMU block's registers with one written. -/
def PullPair.set (q : PullPair) (n : Nat) (d : Half) : PullPair :=
  match n with
  | 0 => { q with g0 := d }
  | 1 => { q with g1 := d }
  | _ => q

/-- The data bits of a pull register after the write-mask word `w` is written (R116): data bit `j`
becomes `w[j]` where `w[16 + j]` is 1, and keeps its value where it is 0. -/
def maskedWrite (d : Half) (w : Word) : Half :=
  (d &&& ~~~(w.extractLsb' 16 16)) ||| (w.extractLsb' 0 16 &&& w.extractLsb' 16 16)

/-- The data bits of the pull register `(region, b, n)`; none if the model holds no such register. -/
def State.pullData (s : State) (g : PullRegion) (b n : Nat) : Option Half :=
  match g with
  | .pmu => s.pmuPull.get n
  | .grf => (s.banks[b]?).bind (·.grfPull.get n)
  | .wm => (s.banks[b]?).bind (·.wmPull.get n)

/-- The state with the data bits of a pull register written. -/
def State.setPullData (s : State) (g : PullRegion) (b n : Nat) (d : Half) : State :=
  match g, s.banks[b]? with
  | .pmu, _ => { s with pmuPull := s.pmuPull.set n d }
  | .grf, some k => s.setBank b { k with grfPull := k.grfPull.set n d }
  | .wm, some k => s.setBank b { k with wmPull := k.wmPull.set n d }
  | _, none => s

/-! ### Contexts -/

/-- The context of an agent in a list; the initial one if the list has none. -/
def lookupCtx (a : Agent) : List (Agent × Ctx) → Ctx
  | [] => {}
  | (x, c) :: rest => if x = a then c else lookupCtx a rest

/-- The list with an agent's context replaced, or added at the end. -/
def putCtx (a : Agent) (c : Ctx) : List (Agent × Ctx) → List (Agent × Ctx)
  | [] => [(a, c)]
  | (x, c') :: rest => if x = a then (x, c) :: rest else (x, c') :: putCtx a c rest

/-- What an agent is doing. -/
def State.ctx (s : State) (a : Agent) : Ctx := lookupCtx a s.ctxs

/-- The state with an agent's context replaced. -/
def State.setCtx (s : State) (a : Agent) (c : Ctx) : State := { s with ctxs := putCtx a c s.ctxs }

/-- The state with the steps left of an agent's operation replaced. -/
def State.setPlan (s : State) (a : Agent) (p : List Micro) : State :=
  s.setCtx a { s.ctx a with plan := p }

/-- The state with an agent's locals replaced. -/
def State.setLoc (s : State) (a : Agent) (l : Locals) : State :=
  s.setCtx a { s.ctx a with loc := l }

/-- The state in which an agent's operation has returned a result: its locals are gone. -/
def State.returned (s : State) (a : Agent) (r : OpResult) : State :=
  s.setCtx a { s.ctx a with loc := {}, result := some r }

/-- TAKING A FAULT (R241): it is recorded in the agent's context and never cleared, and the agent
takes no further step; the steps left of its operation, and the locks it holds, stay as they are. It
has no result: an operation that faults returns nothing (log 5). -/
def State.recordFault (s : State) (a : Agent) (f : AgentFault) : State :=
  s.setCtx a { s.ctx a with result := none, fault := some f }

/-- The locals with one variable assigned. -/
def Locals.put (l : Locals) (x : LocalVar) (w : Word) : Locals :=
  match x with
  | .v => { l with v := w }
  | .wake => { l with wake := w }
  | .saved => { l with saved := w }

/-- A value computed from the locals. -/
def Locals.eval (l : Locals) : Val → Word
  | .lit w => w
  | .v => l.v
  | .setMask m => l.v ||| m
  | .clearMask m => l.v &&& ~~~m
  | .setNotFlag m => if l.flag then l.v &&& ~~~m else l.v ||| m
  | .wake => l.wake
  | .resumed => l.saved ||| (l.v &&& l.wake)

/-! ### Interrupts: delivery, entry and return -/

/-- Whether a pass is under way. -/
def Pass.isActive : Pass → Bool
  | .idle => false
  | .active _ _ => true

/-- Whether a call-context agent is frozen under a pass on its core (R260). -/
def State.interrupted (s : State) (a : Agent) : Bool :=
  match a with
  | .call n => s.banks.any fun k => k.pass.isActive && decide (k.row.irqCore = s.coreOf (.call n))
  | .irq _ => false

/-- Whether an agent may take a step at all: no fault stopped it and no pass freezes it. -/
def State.canStep (s : State) (a : Agent) : Bool :=
  decide ((s.ctx a).fault = none) && !s.interrupted a

/-- Whether an agent is between operations: no steps of one are left and, for an interrupt agent, its
pass is idle. -/
def State.betweenOps (s : State) (a : Agent) : Bool :=
  decide ((s.ctx a).plan = []) &&
    match a with
    | .call _ => true
    | .irq b =>
      match s.banks[b]? with
      | some k => !k.pass.isActive
      | none => true

/-- Whether an agent may begin an operation. -/
def State.canBegin (s : State) (a : Agent) : Bool := s.canStep a && s.betweenOps a

/-- Whether a lock is held by a call-context agent on this core (R254, R260). A lock that another bank's
interrupt agent holds does not count, on this core either, so a pass or its handler may spin on one:
DESIGN CHOICE where R294 speaks of holders on another core only (log 32). -/
def State.heldOnCore (s : State) (core : Nat) (l : Option Agent) : Bool :=
  match l with
  | some (.call n) => decide (s.coreOf (.call n) = core)
  | _ => false

/-- Whether the calls on a core let a pass start there (R254, R260): none of them holds the lock of
any bank and, without nested dispatch, each of them is between operations. An agent that a fault stopped
in the middle of an operation is not between operations: DESIGN CHOICE (log 28). -/
def State.coreFree (s : State) (core : Nat) : Bool :=
  !(s.banks.any fun k => s.heldOnCore core k.lock) &&
    (s.cfg.nestedDispatch || s.ctxs.all fun x =>
      match x.1 with
      | .call n => decide (x.2.plan = []) || decide (s.coreOf (.call n) ≠ core)
      | .irq _ => true)

/-- DELIVERY (R254): bank `b`'s interrupt agent may begin a pass. -/
def State.deliverable (s : State) (b : Nat) : Bool :=
  match s.banks[b]? with
  | none => false
  | some k => !k.pass.isActive && !k.inService && k.line && s.coreFree k.row.irqCore

/-- `ChainedEnter(b)` on a bank (R252). -/
def Bank.chainedEnter (k : Bank) : Bank := { k with inService := true }

/-- `ChainedExit(b)` on a bank: the cascade's return to the parent controller (R253, R258). -/
def Bank.chainedExit (k : Bank) : Bank := { k with inService := false }

/-! ### Atomic steps -/

/-- What came of one atomic step of an agent. -/
inductive MicroOut where
  /-- The step was taken. -/
  | ok (s : State)
  /-- The agent has no step here: it spins on a lock that another agent holds (R60). -/
  | wait
  /-- The agent takes a fault (R241). -/
  | fault (f : AgentFault)
  deriving DecidableEq, Repr

/-- A step on a bank; a bank that does not exist is an invalid register address (R96). -/
def onBank (s : State) (b : Nat) (f : Bank → MicroOut) : MicroOut :=
  match s.banks[b]? with
  | some k => f k
  | none => .fault .invalidRegister

/-- Draw the pin-multiplexing controller's verdict: the next supplied one, else a free value (R140,
U12). -/
def State.drawVerdict (s : State) : Bool × State :=
  match s.verdicts with
  | v :: rest => (v, { s with verdicts := rest })
  | [] => (Config.freeVerdict s.freeDraws, { s with freeDraws := s.freeDraws + 1 })

/-- One atomic step of agent `a`. -/
def microStep (a : Agent) (m : Micro) (s : State) : MicroOut :=
  let l := (s.ctx a).loc
  match m with
  | .lock b => onBank s b fun k =>
      match k.lock with
      | none => .ok (s.setBank b { k with lock := some a })
      | some h => if h = a then .fault .selfDeadlock else .wait
  | .unlock b => onBank s b fun k =>
      .ok (s.setBank b (if k.lock = some a then { k with lock := none } else k))
  | .busRead b r => onBank s b fun k =>
      match k.busRead r with
      | .ok w => .ok (s.setLoc a { l with v := w })
      | .error f => .fault f
  | .busWrite b r e => onBank s b fun k =>
      match k.busWrite r (l.eval e) with
      | .ok k' => .ok (s.setBank b k')
      | .error f => .fault f
  | .readLevel b i => onBank s b fun k =>
      match k.busRead .ext with
      | .ok w => .ok (s.setLoc a { l with flag := w.getLsbD i })
      | .error f => .fault f
  | .pullRead g b n =>
      match s.pullData g b n with
      | some d => .ok (s.setLoc a { l with v := d.setWidth 32 })
      | none => .fault .invalidRegister
  | .pullWrite g b n w =>
      match s.pullData g b n with
      | some d => .ok (s.setPullData g b n (maskedWrite d w))
      | none => .fault .invalidRegister
  | .softRead b f x => onBank s b fun k => .ok (s.setLoc a (l.put x (k.soft f)))
  | .softWrite b f e => onBank s b fun k => .ok (s.setBank b (k.setSoft f (l.eval e)))
  | .clockDisableIfNoWake b => onBank s b fun k =>
      if l.wake = 0 then .ok (s.emit (.clockDisable k.row.clock)) else .ok s
  | .clockOffIfNoWake b => onBank s b fun k =>
      if l.wake = 0 then .ok (s.setBank b { k with clockOn := false }) else .ok s
  | .gateIfNoWake b => onBank s b fun k =>
      if l.wake = 0 then .ok (s.setBank b { k with gated := true }) else .ok s
  | .readGated b => onBank s b fun k => .ok (s.setLoc a { l with flag := k.gated })
  | .clockEnableIfGated b => onBank s b fun k =>
      if l.flag then .ok (s.emit (.clockEnable k.row.clock)) else .ok s
  | .clockOnIfGated b => onBank s b fun k =>
      if l.flag then .ok (s.setBank b { k with clockOn := true }) else .ok s
  | .ungateIfGated b => onBank s b fun k =>
      if l.flag then .ok (s.setBank b { k with gated := false }) else .ok s
  | .setPower p => .ok { s with power := p }
  | .pinmux pin =>
      let d := s.drawVerdict
      .ok ((d.2.emit (.pinmuxRequest pin)).setLoc a { l with flag := d.1 })
  | .ret r => .ok (s.returned a r)
  | .retWord => .ok (s.returned a (.word l.v))
  | .retLevel => .ok (s.returned a (.level l.flag))
  | .retVerdict => .ok (s.returned a (.code (if l.flag then .ok else .requestRefused)))
  | .raiseFault f => .fault f
  | .serviced b => onBank s b fun k =>
      match k.pass with
      | .active .service r => .ok (s.setBank b { k with pass := .active .clear r })
      | _ => .ok s
  | .updated b => onBank s b fun k =>
      match k.pass with
      | .active .update r => .ok ((s.setBank b { k with pass := .active .exit r }).setLoc a {})
      | _ => .ok s

/-- Run the steps left of an agent's operation, with no other agent's step between them, until they
end, the agent waits for a lock, or a fault stops it. The context keeps the steps not yet taken. -/
def runPlan (a : Agent) : List Micro → State → State
  | [], s => s
  | m :: rest, s =>
    match microStep a m s with
    | .ok s' => runPlan a rest (s'.setPlan a rest)
    | .wait => s
    | .fault f => s.recordFault a f

/-- Run what is left of an agent's operation. -/
def State.drain (s : State) (a : Agent) : State := runPlan a (s.ctx a).plan s

/-- The state in which an agent has begun an operation and taken no step of it. -/
def State.beginPlan (s : State) (a : Agent) (p : List Micro) : State :=
  s.setCtx a { s.ctx a with plan := p, loc := {}, result := none }

/-- The meaning of an operation with these atomic steps, performed by the acting agent with no other
agent's step between its own. An agent that has no step here (it is in the middle of an operation,
frozen under a pass, or stopped by a fault) begins nothing. -/
def runOp (p : List Micro) (s : State) : Out :=
  if s.canBegin s.actor then .next ((s.beginPlan s.actor p).drain s.actor) else .next s

/-! ### Steps that several operations share -/

/-- `SET_BITS(b, r, m, enable)`: a read, then a write (R114). -/
def setBitsPlan (b : Nat) (r : Reg) (m : Word) (enable : Bool) : List Micro :=
  [.busRead b r, .busWrite b r (if enable then .setMask m else .clearMask m)]

/-- An operation that ends at once with a result code and has changed no state (R130). -/
def codePlan (c : ResultCode) : List Micro := [.ret (.code c)]

/-- The steps of a pin operation on the pin it resolves to, or the error `OutOfRange` (R130). -/
def State.onPin (s : State) (pin : Nat) (f : Nat → Nat → List Micro) : List Micro :=
  match s.resolvePin pin with
  | some (b, i) => f b i
  | none => codePlan .outOfRange

/-- Steps done under bank `b`'s lock, then `return OK`. -/
def lockedOk (b : Nat) (p : List Micro) : List Micro :=
  .lock b :: (p ++ [.unlock b, .ret (.code .ok)])

end Sys2Proof.Machine
end

