-- ==== Sys2Proof/Machine/IrqChip.lean ====
section
/-! DEFINITION. The interrupt-chip operations, OP 0x20 to 0x23 (spec/42_irq_chip.md R170 to R173). -/

namespace Sys2Proof.Machine

open Sys2Proof

/-- The steps of `IRQ_ENABLE` (R170). -/
def planIrqEnable (pin : Nat) (s : State) : List Micro :=
  s.onPin pin fun b i => lockedOk b (setBitsPlan b .inten (oneHot i) true)

/-- `IRQ_ENABLE` (R170). -/
def execIrqEnable (pin : Nat) (s : State) : Out := runOp (planIrqEnable pin s) s

/-- The steps of `IRQ_DISABLE` (R171). -/
def planIrqDisable (pin : Nat) (s : State) : List Micro :=
  s.onPin pin fun b i => lockedOk b (setBitsPlan b .inten (oneHot i) false)

/-- `IRQ_DISABLE` (R171). -/
def execIrqDisable (pin : Nat) (s : State) : Out := runOp (planIrqDisable pin s) s

/-- The steps of `IRQ_ACK` (R172): one write, no lock. -/
def planIrqAck (pin : Nat) (s : State) : List Micro :=
  s.onPin pin fun b i => [.busWrite b .eoi (.lit (oneHot i)), .ret (.code .ok)]

/-- `IRQ_ACK` (R172). -/
def execIrqAck (pin : Nat) (s : State) : Out := runOp (planIrqAck pin s) s

/-- The steps of `SET_WAKE` (R173): no register is written. -/
def planSetWake (pin : Nat) (on : Bool) (s : State) : List Micro :=
  s.onPin pin fun b i => lockedOk b
    [.softRead b .wakeMask .v,
     .softWrite b .wakeMask (if on then .setMask (oneHot i) else .clearMask (oneHot i))]

/-- `SET_WAKE` (R173). -/
def execSetWake (pin : Nat) (on : Bool) (s : State) : Out := runOp (planSetWake pin on s) s

end Sys2Proof.Machine
end

