-- ==== Sys2Proof/Machine/PinConfig.lean ====
section
/-! DEFINITION. The pin configuration operations, OP 0x10 to 0x16 (spec/41_pin_config.md R130 to
R141). -/

namespace Sys2Proof.Machine

open Sys2Proof

/-- The steps of `SET_DIRECTION` (R131). -/
def planSetDirection (pin : Nat) (output : Bool) (s : State) : List Micro :=
  s.onPin pin fun b i => lockedOk b (setBitsPlan b .dir (oneHot i) output)

/-- `SET_DIRECTION` (R131). -/
def execSetDirection (pin : Nat) (output : Bool) (s : State) : Out :=
  runOp (planSetDirection pin output s) s

/-- The steps of `SET_LEVEL` (R132). -/
def planSetLevel (pin : Nat) (level : Bool) (s : State) : List Micro :=
  s.onPin pin fun b i => lockedOk b (setBitsPlan b .dr (oneHot i) level)

/-- `SET_LEVEL` (R132). -/
def execSetLevel (pin : Nat) (level : Bool) (s : State) : Out := runOp (planSetLevel pin level s) s

/-- The steps of `GET_LEVEL` (R133): one read, no lock. -/
def planGetLevel (pin : Nat) (s : State) : List Micro :=
  s.onPin pin fun b i => [.readLevel b i, .retLevel]

/-- `GET_LEVEL` (R133). -/
def execGetLevel (pin : Nat) (s : State) : Out := runOp (planGetLevel pin s) s

/-- `SET_PULL` in layout 1 (R135); none where the layout cannot represent the mode (R134). -/
def pullGenericPlan (s : State) (b i : Nat) : PullMode → Option (List Micro)
  | .disabled => some (lockedOk b (setBitsPlan b .pull1 (oneHot i) (!s.cfg.pull1EnableValue)))
  | .defaultEnabled => some (lockedOk b (setBitsPlan b .pull1 (oneHot i) s.cfg.pull1EnableValue))
  | .up => none
  | .down => none

/-- The one write-mask write of a pull field, with no lock, then `return OK` (R136, R137). -/
def pullFieldPlan (b : Nat) (at_ : PullPlace) (val : BitVec 2) : List Micro :=
  [.pullWrite at_.region b at_.group (writeMaskWord at_.shift val), .ret (.code .ok)]

/-- The steps of `SET_PULL` on a resolved pin and a known mode, by variant; none where the layout
cannot represent the mode (R134 to R137). -/
def pullPlan (s : State) (b i : Nat) (m : PullMode) : Option (List Micro) :=
  match s.cfg.variant with
  | .pullGeneric => pullGenericPlan s b i m
  | .pullPmuSplit => (pull2Value s.cfg.pull2Enc m).map
      (pullFieldPlan b (pullPlaceSplit s.cfg.pmuPullRegionPins b i))
  | .pullWritemask => (pull2Value s.cfg.pull2Enc m).map (pullFieldPlan b (pullPlaceWm i))

/-- The steps of `SET_PULL` (R134). -/
def planSetPull (pin code : Nat) (s : State) : List Micro :=
  s.onPin pin fun b i =>
    ((pullOfCode code).bind (pullPlan s b i)).getD (codePlan .unsupportedPull)

/-- `SET_PULL` (R134). -/
def execSetPull (pin code : Nat) (s : State) : Out := runOp (planSetPull pin code s) s

/-- Program the type and the polarity of the pins in `m`, and take them out of `toggle_edge_mask`
(the first four cases of R138). -/
def triggerPlan (b : Nat) (m : Word) (edge high : Bool) : List Micro :=
  setBitsPlan b .inttype m edge ++ setBitsPlan b .intpol m high ++
    [.softRead b .toggleEdgeMask .v, .softWrite b .toggleEdgeMask (.clearMask m)]

/-- Read the level, arm the opposite edge, and record the pin in `toggle_edge_mask` (the last case of
R138, R139). -/
def edgeBothPlan (b i : Nat) : List Micro :=
  .readLevel b i :: (setBitsPlan b .inttype (oneHot i) true ++
    [.busRead b .intpol, .busWrite b .intpol (.setNotFlag (oneHot i)),
     .softRead b .toggleEdgeMask .v, .softWrite b .toggleEdgeMask (.setMask (oneHot i))])

/-- The steps of a trigger kind after the pin is forced to input (R138). -/
def triggerKindPlan (b i : Nat) : Trigger → List Micro
  | .levelLow => triggerPlan b (oneHot i) false false
  | .levelHigh => triggerPlan b (oneHot i) false true
  | .edgeRising => triggerPlan b (oneHot i) true true
  | .edgeFalling => triggerPlan b (oneHot i) true false
  | .edgeBoth => edgeBothPlan b i

/-- The steps of `SET_TRIGGER_TYPE` (R138). -/
def planSetTriggerType (pin code : Nat) (s : State) : List Micro :=
  s.onPin pin fun b i =>
    match triggerOfCode code with
    | none => codePlan .unsupportedTrigger
    | some t => lockedOk b (setBitsPlan b .dir (oneHot i) false ++ triggerKindPlan b i t)

/-- `SET_TRIGGER_TYPE` (R138). -/
def execSetTriggerType (pin code : Nat) (s : State) : Out := runOp (planSetTriggerType pin code s) s

/-- The steps of `REQUEST` (R140): the pin-multiplexing controller decides. -/
def planRequest (pin : Nat) (s : State) : List Micro :=
  s.onPin pin fun _ _ => [.pinmux pin, .retVerdict]

/-- `REQUEST` (R140). -/
def execRequest (pin : Nat) (s : State) : Out := runOp (planRequest pin s) s

/-- The steps of `TO_IRQ` (R141): no state is read or written. -/
def planToIrq (pin : Nat) (s : State) : List Micro :=
  s.onPin pin fun b i => [.ret (.irq (s.irqNumber b i))]

/-- `TO_IRQ` (R141). -/
def execToIrq (pin : Nat) (s : State) : Out := runOp (planToIrq pin s) s

end Sys2Proof.Machine
end

