-- ==== Sys2Proof/Machine/RegOps.lean ====
section
/-! DEFINITION. The register primitives, OP 0x01 to 0x05 (spec/40_register_primitives.md R110, R111,
R114, R117, R118). Each operation is the list of its atomic steps, and its meaning runs them. -/

namespace Sys2Proof.Machine

open Sys2Proof

/-- Steps on the register that `(B, R)` names, or `fault InvalidRegister` before any access (R96,
R244). -/
def State.onReg (s : State) (b r : Nat) (f : Reg → List Micro) : List Micro :=
  match s.regAt b r with
  | some reg => f reg
  | none => [.raiseFault .invalidRegister]

/-- Steps on a pull register that exists, or `fault InvalidRegister` before any access (R97). -/
def State.onPull (s : State) (g : PullRegion) (b n : Nat) (p : List Micro) : List Micro :=
  if s.pullOk g b n then p else [.raiseFault .invalidRegister]

/-- The steps of `REG_READ` (R110). -/
def planRegRead (b r : Nat) (s : State) : List Micro :=
  s.onReg b r fun reg => [.busRead b reg, .retWord]

/-- `REG_READ` (R110). -/
def execRegRead (b r : Nat) (s : State) : Out := runOp (planRegRead b r s) s

/-- The steps of `REG_WRITE` (R111). -/
def planRegWrite (b r : Nat) (value : Word) (s : State) : List Micro :=
  s.onReg b r fun reg => [.busWrite b reg (.lit value), .ret .done]

/-- `REG_WRITE` (R111). -/
def execRegWrite (b r : Nat) (value : Word) (s : State) : Out := runOp (planRegWrite b r value s) s

/-- The steps of `SET_BITS` (R114). -/
def planSetBits (b r : Nat) (enable : Bool) (mask : Word) (s : State) : List Micro :=
  s.onReg b r fun reg => setBitsPlan b reg mask enable ++ [.ret .done]

/-- `SET_BITS` (R114). -/
def execSetBits (b r : Nat) (enable : Bool) (mask : Word) (s : State) : Out :=
  runOp (planSetBits b r enable mask s) s

/-- The steps of `WM_WRITE` (R117). -/
def planWmWrite (g : PullRegion) (b n : Nat) (word : Word) (s : State) : List Micro :=
  s.onPull g b n [.pullWrite g b n word, .ret .done]

/-- `WM_WRITE` (R117). -/
def execWmWrite (g : PullRegion) (b n : Nat) (word : Word) (s : State) : Out :=
  runOp (planWmWrite g b n word s) s

/-- The steps of `WM_READ` (R118). -/
def planWmRead (g : PullRegion) (b n : Nat) (s : State) : List Micro :=
  s.onPull g b n [.pullRead g b n, .retWord]

/-- `WM_READ` (R118). -/
def execWmRead (g : PullRegion) (b n : Nat) (s : State) : Out := runOp (planWmRead g b n s) s

end Sys2Proof.Machine
end

