-- ==== Sys2Proof/Machine/Demux.lean ====
section
/-! DEFINITION. The cascaded interrupt demultiplexer with both-edge emulation, OP 0x30
(spec/43_demux.md R191 to R207), and the host flow around each dispatch (spec/60_exceptions.md
R255). -/

namespace Sys2Proof.Machine

open Sys2Proof

/-- The index of the highest set bit below `n`, 0 if there is none. -/
def msbBelow (v : Word) : Nat → Nat
  | 0 => 0
  | n + 1 => if v.getLsbD n then n else msbBelow v n

/-- `msb(v)` (R10). -/
def msb (v : Word) : Nat := msbBelow v 32

/-- Bit `i` of `v` set to `x`. -/
def setBit (v : Word) (i : Nat) (x : Bool) : Word :=
  if x then v ||| oneHot i else v &&& ~~~(oneHot i)

/-! ### The host flow -/

/-- The steps of an operation that a handler may contain, OP 0x01 to 0x23; a handler must not contain
`DEMUX`, `SUSPEND` or `RESUME`, so a drawn one is no step of the handler (R255). -/
def handlerOpPlan (s : State) : Instr → List Micro
  | .regRead b r => planRegRead b r s
  | .regWrite b r v => planRegWrite b r v s
  | .setBits b r e m => planSetBits b r e m s
  | .wmWrite g b n w => planWmWrite g b n w s
  | .wmRead g b n => planWmRead g b n s
  | .setDirection p o => planSetDirection p o s
  | .setLevel p l => planSetLevel p l s
  | .getLevel p => planGetLevel p s
  | .setPull p c => planSetPull p c s
  | .setTriggerType p c => planSetTriggerType p c s
  | .request p => planRequest p s
  | .toIrq p => planToIrq p s
  | .irqEnable p => planIrqEnable p s
  | .irqDisable p => planIrqDisable p s
  | .irqAck p => planIrqAck p s
  | .setWake p o => planSetWake p o s
  | .demux _ => []
  | .suspend => []
  | .resume => []

/-- The steps of `Handler(n)` for a drawn sequence of operations (R255). -/
def handlerPlan (s : State) (ops : List Instr) : List Micro := ops.flatMap (handlerOpPlan s)

/-- Whether the handler disables the pin: it runs `IRQ_DISABLE` on it. DEDUCED (log 8). -/
def handlerDisables (pin : Nat) (ops : List Instr) : Bool := ops.any (· == .irqDisable pin)

/-- The steps of one part of the host flow for a pin (R255). -/
def flowStepPlan (s : State) (pin : Nat) (ops : List Instr) : FlowStep → List Micro
  | .ack => planIrqAck pin s
  | .mask => planIrqDisable pin s
  | .handler => handlerPlan s ops
  | .unmask => planIrqEnable pin s
  | .unmaskUnlessDisabled => if handlerDisables pin ops then [] else planIrqEnable pin s

/-- The steps of `Dispatch` for a pin of this trigger type (R255). -/
def flowPlan (s : State) (pin : Nat) (t : Trigger) (ops : List Instr) : List Micro :=
  (if isEdgeTrigger t then s.cfg.hostFlow.edge else s.cfg.hostFlow.level).flatMap
    (flowStepPlan s pin ops)

/-- Draw a handler: the next supplied one, else a free value (R255, U13). -/
def State.drawHandler (s : State) : List Instr × State :=
  match s.handlers with
  | h :: rest => (h, { s with handlers := rest })
  | [] => (Config.freeHandler s.freeDraws, { s with freeDraws := s.freeDraws + 1 })

/-! ### The pass -/

/-- The guarded polarity rewrite, step 5 (R199): the interrupt enables read are a local. -/
def updatePlan (b : Nat) (newPol : Word) : List Micro :=
  [.lock b, .busRead b .inten, .busWrite b .inten (.lit 0), .busWrite b .intpol (.lit newPol),
   .busWrite b .inten .v, .unlock b]

/-- The end of step 3 (R193): `new_pol`, the flags and `remaining` get their values. -/
def PassRegs.scanStart (r : PassRegs) : PassRegs :=
  { r with newPol := r.polSnap, needUpdate := false, acked := false, remaining := r.isrSnap }

/-- Step 4b (R196): the both-edge polarity of the current pin, from the snapshots. -/
def PassRegs.toggle (r : PassRegs) : PassRegs :=
  if r.tmaskSnap.getLsbD r.cur then
    { r with
      newPol := r.newPol.map fun n => setBit n r.cur (!((r.lvlSnap.getD 0).getLsbD r.cur))
      needUpdate := true }
  else r

/-- The state in which bank `b`'s pass is at a position with these registers. -/
def State.setPass (s : State) (b : Nat) (k : Bank) (p : Pass) : State :=
  s.setBank b { k with pass := p }

/-- A snapshot read of a bank register by the pass, and the state it goes on in. -/
def snapRead (s : State) (b : Nat) (k : Bank) (r : Reg) (f : Word → Pass) : MicroOut :=
  match k.busRead r with
  | .ok w => .ok (s.setPass b k (f w))
  | .error e => .fault e

/-- Steps 4b and 4c (R196, R197): the current pin's polarity, then `Dispatch` of its interrupt
number, whose steps are those of the host flow for its trigger type now. -/
def servicePin (s : State) (b : Nat) (k : Bank) (r : PassRegs) : State :=
  let d := s.drawHandler
  let s1 := (d.2.setPass b k (.active .service r.toggle)).emit (.dispatch (k.row.baseIrq + r.cur))
  s1.setPlan (.irq b)
    (flowPlan s (k.row.basePin + r.cur) (k.triggerType r.cur) d.1 ++ [.serviced b])

/-- One step of bank `b`'s pass at its own position, taken by the bank's interrupt agent when no step
of a dispatch or of the polarity rewrite is left (R191 to R201). Step 6's `ChainedExit` and the end of
the pass are one step: DESIGN CHOICE (log 7). The pass ends with nothing returned (R98, R202, R207),
whatever its dispatched operations returned (log 27). -/
def passStep (b : Nat) (s : State) : MicroOut :=
  onBank s b fun k =>
    match k.pass with
    | .idle => .ok s
    | .active pos r =>
      match pos with
      | .enter =>
          .ok ((s.setBank b { k.chainedEnter with pass := .active .snapIsr r }).emit (.chainedEnter b))
      | .snapIsr => snapRead s b k .intstatus fun w => .active .snapIlr { r with isrSnap := w }
      | .snapIlr => snapRead s b k .inttype fun w => .active .snapTmask { r with ilrSnap := w }
      | .snapTmask =>
          let r' := { r with tmaskSnap := k.toggleEdgeMask }
          .ok (s.setPass b k
            (if k.toggleEdgeMask = 0 then .active .scan r'.scanStart else .active .snapPol r'))
      | .snapPol => snapRead s b k .intpol fun w => .active .snapLvl { r with polSnap := some w }
      | .snapLvl => snapRead s b k .ext fun w =>
          .active .scan { r with lvlSnap := some w }.scanStart
      | .scan =>
          if r.remaining = 0 then
            .ok (s.setPass b k (.active (if r.needUpdate then .update else .exit) r))
          else
            let r' := { r with cur := msb r.remaining }
            if r.ilrSnap.getLsbD r'.cur && !r.acked then
              .ok ((s.setBank b
                { k.chainedExit with pass := .active .service { r' with acked := true } }).emit
                  (.chainedExit b))
            else .ok (s.setPass b k (.active .service r'))
      | .service => .ok (servicePin s b k r)
      | .clear => .ok (s.setPass b k
          (.active .scan { r with remaining := r.remaining &&& ~~~(oneHot r.cur) }))
      | .update => .ok (s.setPlan (.irq b)
          ((match r.newPol with | some n => updatePlan b n | none => []) ++ [.updated b]))
      | .exit =>
          if r.acked then .ok ((s.setPass b k .idle).returned (.irq b) .done)
          else .ok (((s.setBank b { k.chainedExit with pass := .idle }).emit
            (.chainedExit b)).returned (.irq b) .done)

/-- One step of the pass, taking the fault it may raise. -/
def State.movePass (s : State) (b : Nat) : State :=
  match passStep b s with
  | .ok s' => s'
  | .wait => s
  | .fault f => s.recordFault (.irq b) f

/-- Whether bank `b`'s pass is under way, with no step of a dispatch or of the rewrite left and no
fault taken. -/
def State.passReady (s : State) (b : Nat) : Bool :=
  match s.banks[b]? with
  | some k => k.pass.isActive && decide ((s.ctx (.irq b)).plan = []) &&
      decide ((s.ctx (.irq b)).fault = none)
  | none => false

/-- At most this many positions occur in one pass: six before the scan, three for each of at most 32
pins, and three after (R207). -/
def passBound : Nat := 105

/-- Run a pass with no other agent's step between its own, until it ends, waits for a lock, or takes
a fault: one position at a time, each with the steps it leaves to be taken. -/
def runPass (b : Nat) : Nat → State → State
  | 0, s => s
  | n + 1, s =>
    if s.passReady b then runPass b n ((s.movePass b).drain (.irq b)) else s

/-- ENTRY (R257): the pass is about to take its first step, `ChainedEnter` (R191, log 31). Nothing of the
interrupted agent is saved. -/
def State.enterPass (s : State) (b : Nat) : State :=
  match s.banks[b]? with
  | some k => s.setPass b k (.active .enter {})
  | none => s

/-- What a `DEMUX` descriptor comes to before its pass runs (R202, R242, R254): only the bank's own
interrupt agent may perform it, and only when the parent controller delivers; a bank that does not
exist is `fault InvalidRegister` (R96, R100, log 12). Delivery is tested here, when the pass comes to
its position `Enter`, and `ChainedEnter` is the pass's own next step: that these are two atomic steps,
between which another agent or the environment may move, is a DESIGN CHOICE (log 31). -/
def beginDemux (b : Nat) (s : State) : Out :=
  if s.actor ≠ .irq b then .refused (.notDeliverable s.actor b)
  else if s.nbanks ≤ b then runOp [.raiseFault .invalidRegister] s
  else if !s.deliverable b then .refused (.notDeliverable s.actor b)
  else if s.canBegin s.actor then .next ((s.enterPass b).beginPlan s.actor [])
  else .next s

/-- `DEMUX` (R202): one pass of bank `b` by its interrupt agent. -/
def execDemux (b : Nat) (s : State) : Out :=
  match beginDemux b s with
  | .next s' => .next (runPass b passBound s')
  | .fault f => .fault f
  | .refused r => .refused r

end Sys2Proof.Machine
end

