-- ==== Sys2Proof/Machine/Power.lean ====
section
/-! DEFINITION. The suspend/resume coordinator, OP 0x40 and 0x41 (spec/44_power.md R220 to R223). -/

namespace Sys2Proof.Machine

open Sys2Proof

/-- Bank `b`'s part of `SUSPEND`, under its lock (R220). -/
def suspendBankPlan (b : Nat) : List Micro :=
  [.lock b, .busRead b .inten, .softWrite b .savedEnable .v, .softRead b .wakeMask .wake,
   .busWrite b .inten .wake, .softRead b .wakeMask .wake, .clockDisableIfNoWake b,
   .clockOffIfNoWake b, .gateIfNoWake b, .unlock b]

/-- The steps of `SUSPEND`: the banks in ascending order (R220, D55). -/
def planSuspend (s : State) : List Micro :=
  (List.range s.nbanks).flatMap suspendBankPlan ++ [.setPower .suspended, .ret .done]

/-- `SUSPEND` (R220). -/
def execSuspend (s : State) : Out := runOp (planSuspend s) s

/-- Bank `b`'s part of `RESUME`, under its lock (R221). -/
def resumeBankPlan (b : Nat) : List Micro :=
  [.lock b, .readGated b, .clockEnableIfGated b, .clockOnIfGated b, .ungateIfGated b,
   .busRead b .intstatus, .softRead b .savedEnable .saved, .softRead b .wakeMask .wake,
   .busWrite b .inten .resumed, .unlock b]

/-- The steps of `RESUME`: the banks in ascending order (R221, D55). -/
def planResume (s : State) : List Micro :=
  (List.range s.nbanks).flatMap resumeBankPlan ++ [.setPower .running, .ret .done]

/-- `RESUME` (R221). -/
def execResume (s : State) : Out := runOp (planResume s) s

end Sys2Proof.Machine
end

