-- ==== Sys2Proof/Machine/Dispatch.lean ====
section
/-! DEFINITION. One arm for each operation of spec/opcode_table.json (spec/30_encoding.md R98): the
acting agent performs it with no other agent's step between its own. -/

namespace Sys2Proof.Machine
open Sys2Proof

def exec (i : Instr) (s : State) : Host.Outcome State Fault Refusal :=
  match i with
  | .regRead b r => Sys2Proof.Machine.execRegRead b r s
  | .regWrite b r value => Sys2Proof.Machine.execRegWrite b r value s
  | .setBits b r enable mask => Sys2Proof.Machine.execSetBits b r enable mask s
  | .wmWrite region b g word => Sys2Proof.Machine.execWmWrite region b g word s
  | .wmRead region b g => Sys2Proof.Machine.execWmRead region b g s
  | .setDirection pin output => Sys2Proof.Machine.execSetDirection pin output s
  | .setLevel pin level => Sys2Proof.Machine.execSetLevel pin level s
  | .getLevel pin => Sys2Proof.Machine.execGetLevel pin s
  | .setPull pin code => Sys2Proof.Machine.execSetPull pin code s
  | .setTriggerType pin code => Sys2Proof.Machine.execSetTriggerType pin code s
  | .request pin => Sys2Proof.Machine.execRequest pin s
  | .toIrq pin => Sys2Proof.Machine.execToIrq pin s
  | .irqEnable pin => Sys2Proof.Machine.execIrqEnable pin s
  | .irqDisable pin => Sys2Proof.Machine.execIrqDisable pin s
  | .irqAck pin => Sys2Proof.Machine.execIrqAck pin s
  | .setWake pin on => Sys2Proof.Machine.execSetWake pin on s
  | .demux b => Sys2Proof.Machine.execDemux b s
  | .suspend => Sys2Proof.Machine.execSuspend s
  | .resume => Sys2Proof.Machine.execResume s

end Sys2Proof.Machine
end

