-- ==== Sys2Proof/Machine/Inputs.lean ====
section
/-! DEFINITION. What each input does: an agent issues a descriptor, takes one atomic step or runs on, a
bus master makes a raw access, or the environment moves (spec/60_exceptions.md R254 to R261,
spec/20_memory.md R63 to R67); and initialisation (spec/70_reset_and_hazards.md R282, R283). -/

namespace Sys2Proof.Machine

open Sys2Proof

/-! ### Agents that interleave -/

/-- The atomic steps of an operation; a `DEMUX` has none here, its steps are its pass (R12). -/
def planOf (s : State) : Instr → List Micro
  | .suspend => planSuspend s
  | .resume => planResume s
  | i => handlerOpPlan s i

/-- The acting agent begins an operation and takes no step of it yet. -/
def beginInstr (i : Instr) (s : State) : Out :=
  match i with
  | .demux b => beginDemux b s
  | _ => if s.canBegin s.actor then .next (s.beginPlan s.actor (planOf s i)) else .next s

/-- An agent takes its next atomic step, if it has one (R12, R60, R260). -/
def State.advance (s : State) (a : Agent) : State :=
  if s.canStep a then
    match (s.ctx a).plan with
    | m :: rest =>
      match microStep a m s with
      | .ok s' => s'.setPlan a rest
      | .wait => s
      | .fault f => s.recordFault a f
    | [] =>
      match a with
      | .call _ => s
      | .irq b => if s.passReady b then s.movePass b else s
  else s

/-- An agent runs what is left of its operation or pass until it ends, waits, or takes a fault. -/
def State.runOn (s : State) (a : Agent) : State :=
  if s.canStep a then
    match a with
    | .call _ => s.drain a
    | .irq b => runPass b passBound (s.drain a)
  else s

/-! ### Bus masters -/

/-- The one atomic step of a read at a bus address (R63, R64, R67). -/
def busReadPlan (s : State) (addr : Nat) : List Micro :=
  match s.busTarget addr with
  | some (.reg b r) => [.busRead b r, .retWord]
  | some (.pull g b n) => [.pullRead g b n, .retWord]
  | none => [.raiseFault .invalidRegister]

/-- The one atomic step of a write at a bus address (R63, R64, R67). -/
def busWritePlan (s : State) (addr : Nat) (w : Word) : List Micro :=
  match s.busTarget addr with
  | some (.reg b r) => [.busWrite b r (.lit w), .ret .done]
  | some (.pull g b n) => [.pullWrite g b n w, .ret .done]
  | none => [.raiseFault .invalidRegister]

/-- The 32-bit word of a bus write; none if it is not 32 bits wide (R66). -/
def wholeWord (e : Endian) (bytes : List Byte) : Option Word :=
  match takeWord e bytes with
  | some (w, []) => some w
  | _ => none

/-! ### The environment -/

/-- `env(b) <- v` with edge detection in the same step (R25, R247); a bank that does not exist has no
pins. -/
def State.setEnv (s : State) (b : Nat) (v : Word) : State :=
  match s.banks[b]? with
  | some k => s.setBank b (k.setEnv v)
  | none => s

/-! ### One input -/

/-- What one input does to the state. A descriptor is refused before any state change (R100, R242),
whatever the agent that issues it is doing: also one that is stopped, frozen or busy. That a refusal
comes before the agent's own readiness is a DESIGN CHOICE (log 29). -/
def applyInput (x : Input) (s : State) : Out :=
  match x with
  | .issue a bytes =>
    match decodeBytes s.cfg.busEndian bytes with
    | .ok (i, _) => exec i { s with actor := a }
    | .error e => .refused (.malformed e)
  | .start a bytes =>
    match decodeBytes s.cfg.busEndian bytes with
    | .ok (i, _) => beginInstr i { s with actor := a }
    | .error e => .refused (.malformed e)
  | .advance a => .next (s.advance a)
  | .run a => .next (s.runOn a)
  | .busRead a addr size =>
    if size = 4 then runOp (busReadPlan s addr) { s with actor := a }
    else .refused (.malformed .narrow)
  | .busWrite a addr bytes =>
    match wholeWord s.cfg.busEndian bytes with
    | some w => runOp (busWritePlan s addr w) { s with actor := a }
    | none => .refused (.malformed .narrow)
  | .setEnv b v => .next (s.setEnv b v)
  | .verdict v => .next { s with verdicts := s.verdicts ++ [v] }
  | .handler ops => .next { s with handlers := s.handlers ++ [ops] }

/-- Take the next input, if there is one. With none, nothing happens. -/
def takeInput (s : State) : Out :=
  match s.inputs with
  | [] => .next s
  | x :: rest => applyInput x { s with inputs := rest }

/-- The agent that issues a descriptor word in the test harness: a bank's interrupt agent for its
`DEMUX`, the power-management agent for `SUSPEND` and `RESUME`, call-context agent 0 for the rest
(R259). -/
def issuerOf (cfg : Config) (w : Word) : Agent :=
  if field w 24 8 = 0x30 then .irq (field w 8 8)
  else if field w 24 8 = 0x40 ∨ field w 24 8 = 0x41 then .call cfg.pmAgent
  else .call 0

/-- The input by which the instruction with these bits is issued. -/
def fetchInput (cfg : Config) (nbits w : Nat) : Input :=
  .issue (issuerOf cfg (BitVec.ofNat 32 (w % 2 ^ nbits))) (tableBytes cfg.busEndian nbits w)

/-! ### Initialisation -/

/-- Initialisation (R282): the bank table is checked first, and a table that breaks R33 ends it
(R243, R283). No bank register is written but to the values `RESET_<reg>` names (R280). Each bank's
clock is enabled and its cascade handler registered (steps 5 and 6), which the trace records. -/
def initialise (cfg : Config) (rows : List BankRow) (rv : ResetValues) : Out :=
  if (State.initial cfg rows rv).tableOk then .next (State.initial cfg rows rv)
  else .fault .invalidBankTable

end Sys2Proof.Machine
end

