-- ==== Sys2Proof/Machine/Step.lean ====
section
/-! DEFINITION. One step of the machine. The block fetches nothing (spec/20_memory.md R75): a step
takes the next input, in which an agent issues a descriptor or moves on, or the environment moves. -/

namespace Sys2Proof.Machine

open Sys2Proof

/-- One step: with a bank table that breaks R33 no operation has meaning (R243); else the next input
happens. -/
def step (s : State) : Host.Outcome State Fault Refusal :=
  if s.tableOk then takeInput s else .fault .invalidBankTable

/-- The state in which the next step issues the instruction whose bits are `w`: its descriptor is put
before the other inputs, issued by the agent that may issue it (log 3). -/
def State.withFetchWord (s : State) (nbits w : Nat) : State :=
  { s with inputs := fetchInput s.cfg nbits w :: s.inputs }

end Sys2Proof.Machine
end

