-- ==== Sys2Proof/Machine/PinView.lean ====
section
/-! DEFINITION. The per-pin state, read off the bank state (spec/10_state.md R47, R48;
spec/30_encoding.md R84, R88, R89). No per-pin object exists and no operation reads it: it serves
statements and tests. -/

namespace Sys2Proof.Machine

open Sys2Proof

/-- The pull mode a field value stands for (R89). -/
inductive PullReading where
  | mode (m : PullMode)
  | unrepresented (v : BitVec 2)
  deriving DecidableEq, Repr

/-- The mode that a 2-bit field value encodes (R89). -/
def readPull2 (e : Pull2Enc) (v : BitVec 2) : PullReading :=
  if e.disabled = some v then .mode .disabled
  else if e.up = some v then .mode .up
  else if e.down = some v then .mode .down
  else .unrepresented v

/-- The 2-bit field at a shift of a pull register's data bits. -/
def pullFieldAt (d : Half) (sh : Nat) : BitVec 2 := d.extractLsb' sh 2

/-- The pull mode of pin `(b, i)` (R89). -/
def State.pullMode (s : State) (b i : Nat) (k : Bank) : Option PullReading :=
  match s.cfg.variant with
  | .pullGeneric =>
    some (.mode (if k.pull1.getLsbD i = s.cfg.pull1EnableValue then .defaultEnabled else .disabled))
  | .pullPmuSplit =>
    let p := pullPlaceSplit s.cfg.pmuPullRegionPins b i
    (s.pullData p.region b p.group).map fun d => readPull2 s.cfg.pull2Enc (pullFieldAt d p.shift)
  | .pullWritemask =>
    let p := pullPlaceWm i
    (s.pullData p.region b p.group).map fun d => readPull2 s.cfg.pull2Enc (pullFieldAt d p.shift)

/-- The state of one pin (R47). -/
structure PinView where
  /-- Output, or input. -/
  output : Bool
  outputLevel : Bool
  inputLevel : Bool
  pull : Option PullReading
  trigger : Trigger
  masked : Bool
  wakeArmed : Bool
  deriving DecidableEq, Repr

/-- The state of pin `(b, i)` (R47). -/
def State.pinView (s : State) (b i : Nat) : Option PinView :=
  (s.banks[b]?).map fun k =>
    { output := k.dir.getLsbD i
      outputLevel := k.dr.getLsbD i
      inputLevel := k.pad.getLsbD i
      pull := s.pullMode b i k
      trigger := k.triggerType i
      masked := !k.inten.getLsbD i
      wakeArmed := k.wakeMask.getLsbD i }

end Sys2Proof.Machine
end

