-- ==== Sys2Proof/Safety.lean ====
section
/-! DEFINITION. What counts as a sound state and a safe run, in the terms that statements use. -/

namespace Sys2Proof.Machine

open Sys2Proof

/-- A word has no bit at or above a bank's pin count (R32). -/
def Bank.within (k : Bank) (w : Word) : Bool := decide (w &&& ~~~k.pinMask = 0)

/-- The bank's registers and latch hold nothing at or above its pin count (R32). -/
def Bank.lanesOk (k : Bank) : Bool :=
  k.within k.dir && k.within k.dr && k.within k.inten && k.within k.inttype && k.within k.intpol &&
    k.within k.latch && k.within k.pull1

/-- Every bank keeps R32. -/
def State.lanesOk (s : State) : Bool := s.banks.all (·.lanesOk)

/-- The cascade state agrees with the pass (R44, R191, R195, R200, R204): a line is in service exactly
from a pass's `ChainedEnter` to its one `ChainedExit`. -/
def Bank.cascadeOk (k : Bank) : Bool :=
  match k.pass with
  | .idle => !k.inService
  | .active .enter r => !k.inService && !r.acked
  | .active .snapIsr r => k.inService && !r.acked
  | .active .snapIlr r => k.inService && !r.acked
  | .active .snapTmask r => k.inService && !r.acked
  | .active .snapPol r => k.inService && !r.acked
  | .active .snapLvl r => k.inService && !r.acked
  | .active _ r => k.inService == !r.acked

/-- Every bank's cascade state agrees with its pass. -/
def State.cascadeOk (s : State) : Bool := s.banks.all (·.cascadeOk)

/-- No agent has been stopped by a fault. -/
def State.noFault (s : State) : Bool := s.ctxs.all fun x => decide (x.2.fault = none)

/-- A pin under both-edge emulation is edge-type: what the operations maintain, and a raw write can
break (R48). -/
def Bank.toggleOk (k : Bank) : Bool := decide (k.toggleEdgeMask &&& ~~~k.inttype = 0)

/-- Every bank keeps the rule of R48. -/
def State.toggleOk (s : State) : Bool := s.banks.all (·.toggleOk)

/-- Which agent may issue an operation (R259). The block does not check it but for `DEMUX` (R242). -/
def mayIssue (cfg : Config) (a : Agent) (i : Instr) : Bool :=
  match i, a with
  | .demux b, .irq b' => b == b'
  | .demux _, .call _ => false
  | .suspend, .call n => n == cfg.pmAgent
  | .resume, .call n => n == cfg.pmAgent
  | .suspend, .irq _ => false
  | .resume, .irq _ => false
  | _, .call _ => true
  | _, .irq _ => false

/-- The power-management caller's contract: `SUSPEND` while running, `RESUME` while suspended
(R223). -/
def withinContract (s : State) (i : Instr) : Bool :=
  match i with
  | .suspend => decide (s.power = .running)
  | .resume => decide (s.power = .suspended)
  | _ => true

/-! ### The terms of the statements -/

/-- The state in which the acting agent's operation has ended with a result: nothing of it is left. -/
def State.ended (s : State) (r : OpResult) : State :=
  s.setCtx s.actor { plan := [], loc := {}, result := some r, fault := none }

/-- The state in which an operation that the acting agent issued has stopped it with a fault: its
context holds the fault and the steps `p` not taken, and returns nothing. -/
def State.stoppedBy (s : State) (f : AgentFault) (p : List Micro) (l : Locals) : State :=
  s.setCtx s.actor { plan := p, loc := l, result := none, fault := some f }

/-- The bus address of the pull register `(region, b, n)`, by the parameters `PMU_PULL_ADDR`,
`GRF_PULL_ADDR` and `WM_PULL_ADDR` (R64). -/
def State.pullAddr (s : State) (g : PullRegion) (b n : Nat) : Option Nat :=
  match g with
  | .pmu => s.cfg.pmuPullAddr[n]?
  | .grf => (s.banks[b]?).bind (·.row.grfPullAddr[n]?)
  | .wm => (s.banks[b]?).bind (·.row.wmPullAddr[n]?)

/-- The bus address of the bank register `(b, r)` (R63). -/
def State.regAddr (s : State) (b r : Nat) : Option Nat :=
  match s.banks[b]?, s.cfg.regOffset[r]? with
  | some k, some off => some (k.row.regBase + off)
  | _, _ => none

/-- A step of an operation that accesses a register of bank `b` (R112, R113). -/
def Micro.accesses (b : Nat) : Micro → Bool
  | .busRead c _ => c == b
  | .busWrite c _ _ => c == b
  | .readLevel c _ => c == b
  | _ => false

/-- A position at which the pass's own next step reads a register of its bank (R192, R193). -/
def PassPos.reads : PassPos → Bool
  | .snapIsr | .snapIlr | .snapPol | .snapLvl => true
  | .enter | .snapTmask | .scan | .service | .clear | .update | .exit => false

/-- The pin operand of a pin operation, OP 0x10 to 0x23 (R99). -/
def pinOperand : Instr → Option Nat
  | .setDirection p _ => some p
  | .setLevel p _ => some p
  | .getLevel p => some p
  | .setPull p _ => some p
  | .setTriggerType p _ => some p
  | .request p => some p
  | .toIrq p => some p
  | .irqEnable p => some p
  | .irqDisable p => some p
  | .irqAck p => some p
  | .setWake p _ => some p
  | _ => none

/-- A lane of a bank's pins exists (R32). -/
def Bank.hasLane (k : Bank) (i : Nat) : Bool := decide (i < k.row.pinCount)

/-- The pad level of one pin (R25). -/
def Bank.padLane (k : Bank) (i : Nat) : Bool :=
  k.hasLane i && (if k.dir.getLsbD i then k.dr.getLsbD i else k.env.getLsbD i)

/-- The condition `s[i]` of one pin: its pad is at the active sense (R30). -/
def Bank.senseLane (k : Bank) (i : Nat) : Bool := k.padLane i == k.intpol.getLsbD i

/-- The pending bit of one pin (R30, R246). -/
def Bank.statusLane (k : Bank) (i : Nat) : Bool :=
  k.hasLane i && k.inten.getLsbD i &&
    (if k.inttype.getLsbD i then k.latch.getLsbD i else k.senseLane i)

/-- What one lane of a register reads as (R22, R30, R31, R32). -/
def Bank.readLane (k : Bank) (r : Reg) (i : Nat) : Bool :=
  match r with
  | .dir => k.hasLane i && k.dir.getLsbD i
  | .dr => k.hasLane i && k.dr.getLsbD i
  | .ext => k.padLane i
  | .inten => k.hasLane i && k.inten.getLsbD i
  | .inttype => k.hasLane i && k.inttype.getLsbD i
  | .intpol => k.hasLane i && k.intpol.getLsbD i
  | .intstatus => k.statusLane i
  | .eoi => false
  | .pull1 => k.hasLane i && k.pull1.getLsbD i

/-- A lane of a register after a write of `v` to register `r`: the written value in the register
written, where the lane exists, and what it was in every other (R31, R32, R113). -/
def Bank.laneAfter (k : Bank) (r mine : Reg) (old v : Word) (i : Nat) : Bool :=
  if r = mine then k.hasLane i && v.getLsbD i else old.getLsbD i

/-- Whether lane `i` latches an edge in a step that leaves the bank as `k'` (R247). -/
def Bank.edgeLane (k k' : Bank) (i : Nat) : Bool :=
  k'.clockOn && k'.hasLane i && k'.inten.getLsbD i && k'.inttype.getLsbD i &&
    !k.senseLane i && k'.senseLane i

/-- `k'` is bank `k` after one bus write of `v` to register `r`, lane by lane (R31, R32, R113, R247):
the register written, the latches, and nothing else. -/
structure Bank.WrittenBy (k : Bank) (r : Reg) (v : Word) (k' : Bank) : Prop where
  rest : k' = { k with
    dir := k'.dir, dr := k'.dr, inten := k'.inten, inttype := k'.inttype, intpol := k'.intpol
    pull1 := k'.pull1, latch := k'.latch }
  dir : ∀ i < 32, k'.dir.getLsbD i = k.laneAfter r .dir k.dir v i
  dr : ∀ i < 32, k'.dr.getLsbD i = k.laneAfter r .dr k.dr v i
  inten : ∀ i < 32, k'.inten.getLsbD i = k.laneAfter r .inten k.inten v i
  inttype : ∀ i < 32, k'.inttype.getLsbD i = k.laneAfter r .inttype k.inttype v i
  intpol : ∀ i < 32, k'.intpol.getLsbD i = k.laneAfter r .intpol k.intpol v i
  pull1 : ∀ i < 32, k'.pull1.getLsbD i = k.laneAfter r .pull1 k.pull1 v i
  latch : ∀ i < 32, k'.latch.getLsbD i =
    ((k.latch.getLsbD i && !(decide (r = .eoi) && k.hasLane i && v.getLsbD i)) || k.edgeLane k' i)

/-- What a register stores; nothing for the registers that store nothing (R25, R30, R31). -/
def Bank.stored (k : Bank) : Reg → Word
  | .dir => k.dir
  | .dr => k.dr
  | .inten => k.inten
  | .inttype => k.inttype
  | .intpol => k.intpol
  | .pull1 => k.pull1
  | .ext => 0
  | .intstatus => 0
  | .eoi => 0

/-- The bank after the bit of pin offset `i` in register `r` is set to `x`, edge detection included
(R113, R114, R247). -/
def Bank.putBit (k : Bank) (r : Reg) (i : Nat) (x : Bool) : Bank :=
  edgeDetect k (k.store r (setBit (k.stored r) i x))

/-- A bank after its part of `SUSPEND` (R220). -/
def Bank.suspended (k : Bank) : Bank :=
  { k with
    savedEnable := k.inten &&& k.pinMask
    inten := k.wakeMask &&& k.pinMask
    clockOn := decide (k.wakeMask ≠ 0)
    gated := k.gated || decide (k.wakeMask = 0) }

/-- A bank after its part of `RESUME` (R221). -/
def Bank.resumed (k : Bank) : Bank :=
  { k with
    clockOn := true
    gated := false
    inten := (k.savedEnable ||| (k.status &&& k.wakeMask)) &&& k.pinMask }

/-- The offsets of a word's set bits, the highest first (R194). -/
def pinsDown (v : Word) : List Nat := (List.range 32).reverse.filter fun i => v.getLsbD i

/-- The calls of steps 4 and 6 of a pass for these pins: each is dispatched, the cascade is exited
just before the first edge pin, or at the end (R195, R197, R200, R204). -/
def passCalls (b baseIrq : Nat) (ilr : Word) (acked : Bool) : List Nat → List HostCall
  | [] => if acked then [] else [.chainedExit b]
  | i :: rest =>
    if ilr.getLsbD i && !acked then
      .chainedExit b :: .dispatch (baseIrq + i) :: passCalls b baseIrq ilr true rest
    else .dispatch (baseIrq + i) :: passCalls b baseIrq ilr acked rest

/-- The interrupt numbers that a list of calls dispatches. -/
def dispatched : List HostCall → List Nat
  | [] => []
  | .dispatch n :: rest => n :: dispatched rest
  | _ :: rest => dispatched rest

/-- When `DEMUX` begins a pass of bank `b` (which is `k`) whose dispatches are known: its interrupt
agent acts, the parent controller delivers, the bank table keeps R33, the bank keeps R32, the host flow
is the default one, and the handler drawn for each of the pending pins is the empty one. -/
structure PassBegins (s : State) (b : Nat) (k : Bank) : Prop where
  actor : s.actor = .irq b
  begins : s.canBegin (.irq b) = true
  delivered : s.deliverable b = true
  bank : s.banks[b]? = some k
  table : s.tableOk = true
  lanes : k.lanesOk = true
  flow : s.cfg.hostFlow = HostFlow.default
  handlers : ∀ n < 32, s.handlers[n]? = some []

/-- When such a pass runs to its end with no other agent's step between: the bank's lock is free. -/
structure PassRuns (s : State) (b : Nat) (k : Bank) : Prop extends PassBegins s b k where
  free : k.lock = none

/-- The polarity after a pass that serviced the pins `isr`: each both-edge pin among them is armed for
the edge away from the level observed, and the rest is as it was (R196, R199, R205). -/
def rearmed (pol isr toggle lvl : Word) : Word :=
  (pol &&& ~~~(isr &&& toggle)) ||| (isr &&& toggle &&& ~~~lvl)

end Sys2Proof.Machine
end

