-- ==== Sys2Proof/Certificates/Slice0/Obligations.lean ====
section
/-! DEFINITION. The statements for the provers. Each is about every state that meets its hypotheses,
so about every configuration of spec/00_scope.md R8. A next state given by an equation says all that
the operation changes, and that nothing else changes. -/

open Sys2Proof Sys2Proof.Machine

/-! ### Encoding and decoding (spec/30_encoding.md) -/

/-- R95, R98, R99, R101: every well-formed operation decodes from its own descriptor and operand. -/
def Obligations.DecodeOfEncodeIsTheInstruction : Prop :=
  ∀ (i : Instr) (d : Word), i.wf = true →
    decodeWord (encodeWord i) ((encodeOperand i).getD d) = .ok i

/-- R95, R98 to R101: a descriptor that decodes is the descriptor of what it decodes to, which is well
formed and holds the data operand if it takes one. -/
def Obligations.DecodedDescriptorEncodesBack : Prop :=
  ∀ (w d : Word) (i : Instr), decodeWord w d = .ok i →
    i.wf = true ∧ encodeWord i = w ∧ (encodeOperand i = none ∨ encodeOperand i = some d)

/-- R99, R100: a descriptor is refused exactly when its `OP` is not in the map, `Z` is not 0, a field
that must be 0 is not, a 1-bit `A` is 2 or more, or a region code is 3 or more. -/
def Obligations.DescriptorRefusedExactlyWhenMalformed : Prop :=
  ∀ (w d : Word),
    (∃ e, decodeWord w d = .error e) ↔
      (field w 24 8 ∉ [0x01, 0x02, 0x03, 0x04, 0x05, 0x10, 0x11, 0x12, 0x13, 0x14, 0x15, 0x16,
          0x20, 0x21, 0x22, 0x23, 0x30, 0x40, 0x41] ∨
        field w 16 4 ≠ 0 ∨
        (field w 24 8 ∈ [0x01, 0x02, 0x12, 0x15, 0x16, 0x20, 0x21, 0x22, 0x30, 0x40, 0x41] ∧
          field w 20 4 ≠ 0) ∨
        (field w 24 8 ∈ [0x03, 0x10, 0x11, 0x23] ∧ 2 ≤ field w 20 4) ∨
        (field w 24 8 ∈ [0x04, 0x05] ∧ 3 ≤ field w 20 4) ∨
        (field w 24 8 = 0x30 ∧ field w 0 8 ≠ 0) ∨
        (field w 24 8 ∈ [0x40, 0x41] ∧ field w 0 16 ≠ 0))

/-- In either bus byte order, the bytes of a well-formed operation decode to it, and the bytes after
them are left. The words are those of R95 and R101; the spec gives a descriptor no byte layout, and the
order of word and operand and the use of the bus byte order are the model's choice (log 18). -/
def Obligations.BytesOfAnInstructionDecode : Prop :=
  ∀ (e : Endian) (i : Instr) (rest : List Byte), i.wf = true →
    decodeBytes e (encodeBytes e i ++ rest) = .ok (i, rest)

/-- Some of the words of spec/95_test_vectors.md L2.1 and L3, decoded. -/
def Obligations.SampleDescriptorsDecode : Prop :=
  decodeWord 0x01000006 0 = .ok (.regRead 0 6) ∧
  decodeWord 0x02000007 0x00000201 = .ok (.regWrite 0 7 0x201) ∧
  decodeWord 0x03100000 0x0000000F = .ok (.setBits 0 0 true 0xF) ∧
  decodeWord 0x04100101 0xC0008000 = .ok (.wmWrite .grf 1 1 0xC0008000) ∧
  decodeWord 0x10100005 0 = .ok (.setDirection 5 true) ∧
  decodeWord 0x14400009 0 = .ok (.setTriggerType 9 4) ∧
  decodeWord 0x23100009 0 = .ok (.setWake 9 true) ∧
  decodeWord 0x30000100 0 = .ok (.demux 1) ∧
  decodeWord 0x41000000 0 = .ok .resume ∧
  decodeWord 0x12010005 0 = .error .nonzeroZ ∧
  decodeWord 0x7F000000 0 = .error .unknownOp

/-! ### The step -/

/-- A step in which an agent issues a descriptor is `exec` of what its bytes decode to, with that
agent acting and the input taken; a malformed descriptor is refused with no state change (R100,
R242). The model's choices in it: that a step takes an input (log 3), that an issued operation runs
with nothing between its steps (log 4), the byte form of a descriptor (log 18), and that a refusal is
the outcome `refused` (log 13), whatever the agent is doing (log 29). -/
def Obligations.StepRunsTheIssuedInstruction : Prop :=
  ∀ (s : State) (a : Agent) (bytes : List Byte) (rest : List Input),
    s.tableOk = true → s.inputs = .issue a bytes :: rest →
    (∀ i left, decodeBytes s.cfg.busEndian bytes = .ok (i, left) →
      step s = exec i { s with inputs := rest, actor := a }) ∧
    (∀ e, decodeBytes s.cfg.busEndian bytes = .error e → step s = .refused (.malformed e))

/-- A bank table that breaks R33 ends initialisation (R243, R283), and with one no step has meaning.
The model's choices (log 14): that every step of a state tests its table and answers this fault
outcome, and that an empty table counts with these in a step. -/
def Obligations.InvalidBankTableStopsTheMachine : Prop :=
  (∀ s : State, s.tableOk = false → step s = .fault .invalidBankTable) ∧
  (∀ cfg rows rv, tableOk rows = false → initialise cfg rows rv = .fault .invalidBankTable)

/-- An access by a bus master that is not 32 bits wide is refused. R66 and R242 say it of narrower
ones; that wider ones are refused too, and before the address is looked at, is the model's reading (log
17). That a refusal is the outcome `refused` (log 13), and that it comes whatever the agent is doing
(log 29), are the model's choices. -/
def Obligations.NarrowBusAccessIsRefused : Prop :=
  ∀ (s : State) (a : Agent) (addr size : Nat) (bytes : List Byte) (rest : List Input),
    s.tableOk = true →
    (s.inputs = .busRead a addr size :: rest → size ≠ 4 →
      step s = .refused (.malformed .narrow)) ∧
    (s.inputs = .busWrite a addr bytes :: rest → bytes.length ≠ 4 →
      step s = .refused (.malformed .narrow))

/-- A bus master that reads or writes a word, in the bus byte order, at `reg_base(b) + REG_OFFSET(r)`
reads or writes the register that `(b, r)` names, and at the address of a pull register that one; at an
address that is no register's it stops with `InvalidRegister`, and nothing else changes. R63, R64, R66
and R67 place the registers and name the fault; that a raw access has exactly the effect and the result
of `REG_READ`, `REG_WRITE`, `WM_READ` or `WM_WRITE` is the model's reading (log 17), and that addresses
have no width and never wrap its choice (log 26). That the addresses are aligned and distinct is the
premise `addressesOk`. -/
def Obligations.BusAddressNamesTheRegister : Prop :=
  ∀ (s : State) (a : Agent) (addr : Nat) (rest : List Input),
    s.tableOk = true → s.addressesOk = true →
    (∀ b r, s.regAddr b r = some addr → (s.regAt b r).isSome = true →
      (s.inputs = .busRead a addr 4 :: rest →
        step s = exec (.regRead b r) { s with inputs := rest, actor := a }) ∧
      (∀ v : Word, s.inputs = .busWrite a addr (wordBytes s.cfg.busEndian v) :: rest →
        step s = exec (.regWrite b r v) { s with inputs := rest, actor := a })) ∧
    (∀ g b n, s.pullAddr g b n = some addr → s.pullOk g b n = true →
      (s.inputs = .busRead a addr 4 :: rest →
        step s = exec (.wmRead g b n) { s with inputs := rest, actor := a }) ∧
      (∀ v : Word, s.inputs = .busWrite a addr (wordBytes s.cfg.busEndian v) :: rest →
        step s = exec (.wmWrite g b n v) { s with inputs := rest, actor := a })) ∧
    ((∀ b r, (s.regAt b r).isSome = true → s.regAddr b r ≠ some addr) →
      (∀ g b n, s.pullOk g b n = true → s.pullAddr g b n ≠ some addr) → s.canBegin a = true →
      (s.inputs = .busRead a addr 4 :: rest → ∃ p l, step s =
        .next (State.stoppedBy { s with inputs := rest, actor := a } .invalidRegister p l)) ∧
      (∀ v : Word, s.inputs = .busWrite a addr (wordBytes s.cfg.busEndian v) :: rest →
        ∃ p l, step s =
          .next (State.stoppedBy { s with inputs := rest, actor := a } .invalidRegister p l)))

/-- The uninterrupted run of an operation is a run of its atomic steps: what `exec` gives is reached
from the operation's beginning by atomic steps of the acting agent alone (R12). That `exec` is that
run is the model's choice (log 4). -/
def Obligations.ExecIsARunOfAtomicSteps : Prop :=
  ∀ (i : Instr) (s t : State), s.canBegin s.actor = true → beginInstr i s = .next t →
    ∃ n, exec i s = .next ((fun x => x.advance s.actor)^[n] t)

/-! ### Register primitives (spec/40_register_primitives.md) -/

/-- R110, R112: `REG_READ` returns the register, lane by lane, and changes nothing else; with the
bank's clock off it stops its agent with `ClockGatedAccess`, and with no such bank or register, with
`InvalidRegister`, and changes nothing else. -/
def Obligations.RegReadReturnsTheRegister : Prop :=
  ∀ (s : State) (b r : Nat), s.canBegin s.actor = true →
    (∀ reg k, s.regAt b r = some reg → s.banks[b]? = some k → k.clockOn = true →
      ∃ v, exec (.regRead b r) s = .next (s.ended (.word v)) ∧
        ∀ i < 32, v.getLsbD i = k.readLane reg i) ∧
    (∀ reg k, s.regAt b r = some reg → s.banks[b]? = some k → k.clockOn = false →
      ∃ p l, exec (.regRead b r) s = .next (s.stoppedBy .clockGatedAccess p l)) ∧
    ((s.nbanks ≤ b ∨ regOfId s.cfg.variant r = none) →
      ∃ p l, exec (.regRead b r) s = .next (s.stoppedBy .invalidRegister p l))

/-- R111, R113: `REG_WRITE` writes the register's lanes, and the latches as R31 and R247 say; with the
bank's clock off it stops its agent with `ClockGatedAccess`, and with no such bank or register, with
`InvalidRegister`, and changes nothing else. -/
def Obligations.RegWriteStoresAndDetectsEdges : Prop :=
  ∀ (s : State) (b r : Nat) (v : Word), s.canBegin s.actor = true →
    (∀ reg k, s.regAt b r = some reg → s.banks[b]? = some k → k.clockOn = true →
      ∃ k', k.WrittenBy reg v k' ∧
        exec (.regWrite b r v) s = .next ((s.setBank b k').ended .done)) ∧
    (∀ reg k, s.regAt b r = some reg → s.banks[b]? = some k → k.clockOn = false →
      ∃ p l, exec (.regWrite b r v) s = .next (s.stoppedBy .clockGatedAccess p l)) ∧
    ((s.nbanks ≤ b ∨ regOfId s.cfg.variant r = none) →
      ∃ p l, exec (.regWrite b r v) s = .next (s.stoppedBy .invalidRegister p l))

/-- R114, R119: `SET_BITS` writes the value read with exactly the mask's lanes set or cleared; with the
bank's clock off it stops its agent with `ClockGatedAccess`, and with no such bank or register, with
`InvalidRegister`, and changes nothing else. -/
def Obligations.SetBitsChangesExactlyTheMaskLanes : Prop :=
  ∀ (s : State) (b r : Nat) (enable : Bool) (mask : Word), s.canBegin s.actor = true →
    (∀ reg k, s.regAt b r = some reg → s.banks[b]? = some k → k.clockOn = true →
      ∃ w k', (∀ i < 32, w.getLsbD i = if mask.getLsbD i then enable else k.readLane reg i) ∧
        k.WrittenBy reg w k' ∧
        exec (.setBits b r enable mask) s = .next ((s.setBank b k').ended .done)) ∧
    (∀ reg k, s.regAt b r = some reg → s.banks[b]? = some k → k.clockOn = false →
      ∃ p l, exec (.setBits b r enable mask) s = .next (s.stoppedBy .clockGatedAccess p l)) ∧
    ((s.nbanks ≤ b ∨ regOfId s.cfg.variant r = none) →
      ∃ p l, exec (.setBits b r enable mask) s = .next (s.stoppedBy .invalidRegister p l))

/-- R31, R250: a write of `v` to `EOI` clears the latches of the lanes `v` names that exist, and stores
and changes nothing else; a read of `EOI` returns 0. -/
def Obligations.EoiWriteClearsLatchesAndReadsZero : Prop :=
  ∀ (s : State) (b : Nat) (v : Word) (k : Bank),
    s.canBegin s.actor = true → s.banks[b]? = some k → k.clockOn = true →
    exec (.regRead b 7) s = .next (s.ended (.word 0)) ∧
    ∃ l, (∀ i < 32, l.getLsbD i =
        (k.latch.getLsbD i && !(v.getLsbD i && decide (i < k.row.pinCount)))) ∧
      exec (.regWrite b 7 v) s = .next ((s.setBank b { k with latch := l }).ended .done)

/-- R77, R135, R202, R220, R221, R241, R293: an access to a register of a bank whose clock is off stops
its agent with `ClockGatedAccess`, and changes nothing else; an operation that took the bank's lock
still holds it. So does each pin operation that accesses one (`SET_PULL` in layout 1 only; `SET_WAKE`,
`TO_IRQ` and `REQUEST` access none); `SUSPEND` at the first such bank; `RESUME` at the first bank that
is neither clocked nor gated; a pass whose bank's clock went off between its steps, at its next
snapshot read and in its rewrite of the polarity; and every agent whose next step is such an access, so
the operations of a dispatch too. The raw operations are in their own statements. -/
def Obligations.GatedBankAccessStopsTheAgent : Prop :=
  ∀ (s : State) (b : Nat) (k : Bank), s.banks[b]? = some k → k.clockOn = false →
    (s.canBegin s.actor = true → ∀ (i : Instr) (pin o : Nat), s.resolvePin pin = some (b, o) →
      ((i = .getLevel pin ∨ i = .irqAck pin) →
        ∃ p l, exec i s = .next (s.stoppedBy .clockGatedAccess p l)) ∧
      (∀ x c, (i = .setDirection pin x ∨ i = .setLevel pin x ∨ i = .irqEnable pin ∨
          i = .irqDisable pin ∨ (i = .setTriggerType pin c ∧ c ≤ 4) ∨
          (i = .setPull pin c ∧ s.cfg.variant = .pullGeneric ∧ (c = 0 ∨ c = 3))) →
        k.lock = none →
        ∃ p l, exec i s = .next
          ((s.setBank b { k with lock := some s.actor }).stoppedBy .clockGatedAccess p l))) ∧
    (s.canBegin s.actor = true → k.lock = none →
      (∀ j k', j < b → s.banks[j]? = some k' → k'.lock = none ∧ k'.clockOn = true) →
      ∃ p l, exec .suspend s = .next (State.stoppedBy { s with
          banks := (s.banks.take b).map (·.suspended) ++
            { k with lock := some s.actor } :: s.banks.drop (b + 1)
          trace := s.trace ++
            ((s.banks.take b).filter (·.wakeMask = 0)).map fun k => .clockDisable k.row.clock }
        .clockGatedAccess p l)) ∧
    (s.canBegin s.actor = true → k.lock = none → k.gated = false →
      (∀ j k', j < b → s.banks[j]? = some k' →
        k'.lock = none ∧ (k'.clockOn = true ∨ k'.gated = true)) →
      ∃ p l, exec .resume s = .next (State.stoppedBy { s with
          banks := (s.banks.take b).map (·.resumed) ++
            { k with lock := some s.actor } :: s.banks.drop (b + 1)
          trace := s.trace ++
            ((s.banks.take b).filter (·.gated)).map fun k => .clockEnable k.row.clock }
        .clockGatedAccess p l)) ∧
    (∀ pos r, k.pass = .active pos r → s.canStep (.irq b) = true → (s.ctx (.irq b)).plan = [] →
      (pos.reads = true →
        s.advance (.irq b) = s.recordFault (.irq b) .clockGatedAccess ∧
        s.runOn (.irq b) = s.recordFault (.irq b) .clockGatedAccess) ∧
      (pos = .update → r.newPol.isSome = true → k.lock = none →
        ∃ p l, s.runOn (.irq b) = (s.setBank b { k with lock := some (.irq b) }).setCtx (.irq b)
          { plan := p, loc := l, result := none, fault := some .clockGatedAccess })) ∧
    (∀ a m p, s.canStep a = true → (s.ctx a).plan = m :: p → m.accesses b = true →
      s.advance a = s.recordFault a .clockGatedAccess ∧
      s.runOn a = s.recordFault a .clockGatedAccess)

/-- R241: an agent that a fault has stopped begins no operation, no pass and no raw access, and takes no
step. That such a turn is a step that changes nothing is the model's choice (log 5). A `DEMUX` of it
that R242 refuses is refused as any agent's is (log 29): `DemuxOutOfPlaceIsRefused`. -/
def Obligations.StoppedAgentTakesNoStep : Prop :=
  ∀ (s : State) (a : Agent) (f : AgentFault), (s.ctx a).fault = some f →
    s.advance a = s ∧ s.runOn a = s ∧
    (s.actor = a →
      (∀ i, (∀ b, i ≠ .demux b) → exec i s = .next s ∧ beginInstr i s = .next s) ∧
      (∀ b, a = .irq b → (s.deliverable b = true ∨ s.nbanks ≤ b) →
        exec (.demux b) s = .next s ∧ beginInstr (.demux b) s = .next s)) ∧
    (s.tableOk = true → ∀ (addr : Nat) (bytes : List Byte) (rest : List Input),
      (s.inputs = .busRead a addr 4 :: rest →
        step s = .next { s with inputs := rest, actor := a }) ∧
      (s.inputs = .busWrite a addr bytes :: rest → bytes.length = 4 →
        step s = .next { s with inputs := rest, actor := a }))

/-! ### Pull registers -/

/-- R116, R117: `WM_WRITE` writes the data bits its mask half selects, and nothing else, whatever the
bank's clock; where there is no such pull register it stops its agent with `InvalidRegister`, and
changes nothing else. -/
def Obligations.WmWriteMergesTheSelectedBits : Prop :=
  ∀ (s : State) (g : PullRegion) (b n : Nat) (w : Word), s.canBegin s.actor = true →
    (pullExists s.cfg.variant s.nbanks g b n = true →
      ∃ d d', s.pullData g b n = some d ∧
        (∀ j < 16, d'.getLsbD j = if w.getLsbD (16 + j) then w.getLsbD j else d.getLsbD j) ∧
        (s.setPullData g b n d').pullData g b n = some d' ∧
        (∀ g' c m, (g', c, m) ≠ (g, b, n) → pullExists s.cfg.variant s.nbanks g' c m = true →
          (s.setPullData g b n d').pullData g' c m = s.pullData g' c m) ∧
        exec (.wmWrite g b n w) s = .next ((s.setPullData g b n d').ended .done)) ∧
    (pullExists s.cfg.variant s.nbanks g b n = false →
      ∃ p l, exec (.wmWrite g b n w) s = .next (s.stoppedBy .invalidRegister p l))

/-- R115, R118: `WM_READ` returns the data bits with 0 above them, and changes nothing else, whatever
the bank's clock; where there is no such pull register it stops its agent with `InvalidRegister`, and
changes nothing else. -/
def Obligations.WmReadReturnsTheDataBits : Prop :=
  ∀ (s : State) (g : PullRegion) (b n : Nat), s.canBegin s.actor = true →
    (pullExists s.cfg.variant s.nbanks g b n = true →
      ∃ d v, s.pullData g b n = some d ∧
        (∀ j < 32, v.getLsbD j = (decide (j < 16) && d.getLsbD j)) ∧
        exec (.wmRead g b n) s = .next (s.ended (.word v))) ∧
    (pullExists s.cfg.variant s.nbanks g b n = false →
      ∃ p l, exec (.wmRead g b n) s = .next (s.stoppedBy .invalidRegister p l))

/-- R116: `PullWrite` is one step; it writes the data bits whose mask bit is 1, keeps the others, and
with a mask of 0 changes nothing. -/
def Obligations.PullWriteIsSelectedByItsMask : Prop :=
  ∀ (a : Agent) (s : State) (g : PullRegion) (b n : Nat) (w : Word) (d : Half),
    s.pullData g b n = some d →
    ∃ d', microStep a (.pullWrite g b n w) s = .ok (s.setPullData g b n d') ∧
      (s.setPullData g b n d').pullData g b n = some d' ∧
      (∀ j < 16, d'.getLsbD j = if w.getLsbD (16 + j) then w.getLsbD j else d.getLsbD j) ∧
      ((∀ j < 16, w.getLsbD (16 + j) = false) → s.setPullData g b n d' = s)

/-- R83, R119: a write-mask word writes data bit `j` only where its bit `16 + j` is 1; the word of a
2-bit field at shift `2 x` sets that field and leaves the register's other fields as they were. -/
def Obligations.FieldWriteChangesOneField : Prop :=
  (∀ (d : Half) (w : Word) (j : Nat), j < 16 →
    (maskedWrite d w).getLsbD j = if w.getLsbD (16 + j) then w.getLsbD j else d.getLsbD j) ∧
  (∀ (d : Half) (val : BitVec 2) (x y : Nat), x < 8 → y < 8 →
    writeMaskWord (x * 2) val = (3#32 <<< (16 + x * 2)) ||| (val.setWidth 32 <<< (x * 2)) ∧
    pullFieldAt (maskedWrite d (writeMaskWord (x * 2) val)) (y * 2) =
      if y = x then val else pullFieldAt d (y * 2))

/-- R134, R135: `SET_PULL` in layout 1 writes the pin's one bit under the lock: `default_enabled`
writes `PULL1_ENABLE_VALUE`, `disabled` its complement. -/
def Obligations.SetPullGenericWritesOneBit : Prop :=
  ∀ (s : State) (pin b i : Nat) (k : Bank),
    s.canBegin s.actor = true → s.cfg.variant = .pullGeneric → s.resolvePin pin = some (b, i) →
    s.banks[b]? = some k → k.lock = none → k.clockOn = true →
    exec (.setPull pin 0) s =
      .next ((s.setBank b (k.putBit .pull1 i (!s.cfg.pull1EnableValue))).ended (.code .ok)) ∧
    exec (.setPull pin 3) s =
      .next ((s.setBank b (k.putBit .pull1 i s.cfg.pull1EnableValue)).ended (.code .ok))

/-- R85, R86, R88, R134, R136: `SET_PULL` in layout 2 writes one 2-bit field of the PMU block for the
first pins of bank 0 and of the general block for every other pin, and nothing else. -/
def Obligations.SetPullSplitWritesOneField : Prop :=
  ∀ (s : State) (pin code b i : Nat) (m : PullMode) (val : BitVec 2),
    s.canBegin s.actor = true → s.cfg.variant = .pullPmuSplit → s.cfg.pmuPullRegionPins = 12 →
    s.tableOk = true → s.resolvePin pin = some (b, i) →
    pullOfCode code = some m → pull2Value s.cfg.pull2Enc m = some val →
    (b = 0 → i < 12 → ∃ d, s.pullData .pmu 0 (i / 8) = some d ∧
      exec (.setPull pin code) s = .next ((s.setPullData .pmu 0 (i / 8)
        (maskedWrite d (writeMaskWord (i % 8 * 2) val))).ended (.code .ok))) ∧
    (¬(b = 0 ∧ i < 12) → ∃ d, s.pullData .grf b (i / 8) = some d ∧
      exec (.setPull pin code) s = .next ((s.setPullData .grf b (i / 8)
        (maskedWrite d (writeMaskWord ((7 - i % 8) * 2) val))).ended (.code .ok)))

/-- R87, R88, R134, R137: `SET_PULL` in layout 3 writes one 2-bit field, and nothing else. -/
def Obligations.SetPullWritemaskWritesOneField : Prop :=
  ∀ (s : State) (pin code b i : Nat) (m : PullMode) (val : BitVec 2),
    s.canBegin s.actor = true → s.cfg.variant = .pullWritemask →
    s.tableOk = true → s.resolvePin pin = some (b, i) →
    pullOfCode code = some m → pull2Value s.cfg.pull2Enc m = some val →
    ∃ d, s.pullData .wm b (i / 8) = some d ∧
      exec (.setPull pin code) s = .next ((s.setPullData .wm b (i / 8)
        (maskedWrite d (writeMaskWord (i % 8 * 2) val))).ended (.code .ok))

/-! ### Pins (spec/41_pin_config.md, spec/30_encoding.md R90, R91) -/

/-- R90: a pin resolves to the bank whose range holds it, which is the only one, and to its offset in
that range; a pin in no range does not resolve. -/
def Obligations.PinResolvesToTheBankThatHoldsIt : Prop :=
  ∀ (s : State) (p : Nat), s.tableOk = true →
    (∀ b i, s.resolvePin p = some (b, i) ↔
      ∃ k, s.banks[b]? = some k ∧ k.row.basePin ≤ p ∧ p < k.row.basePin + k.row.pinCount ∧
        i = p - k.row.basePin) ∧
    (s.resolvePin p = none ↔
      ∀ k ∈ s.banks, ¬(k.row.basePin ≤ p ∧ p < k.row.basePin + k.row.pinCount)) ∧
    ((∀ b k, s.banks[b]? = some k → k.row.basePin = 32 * b) →
      ∀ b i, s.resolvePin p = some (b, i) → b = p / 32 ∧ i = p % 32)

/-- R90, R130: a pin operation on a pin outside every bank's range returns `OutOfRange` and changes
nothing. -/
def Obligations.PinOutsideEveryBankIsOutOfRange : Prop :=
  ∀ (i : Instr) (p : Nat) (s : State),
    pinOperand i = some p → s.canBegin s.actor = true → s.resolvePin p = none →
    exec i s = .next (s.ended (.code .outOfRange))

/-- R119: writing one pin's bit of a stored register sets that lane, keeps the register's other
lanes, and leaves every other stored register as it was. -/
def Obligations.PinBitWriteChangesOneLane : Prop :=
  ∀ (k : Bank) (r mine : Reg) (i j : Nat) (x : Bool), j < 32 →
    r ≠ .ext → r ≠ .intstatus → r ≠ .eoi →
    ((k.putBit r i x).stored mine).getLsbD j =
      if mine = r then k.hasLane j && (if j = i then x else (k.stored r).getLsbD j)
      else (k.stored mine).getLsbD j

/-- R131: `SET_DIRECTION` writes the pin's bit of `DIR` under the lock, and nothing else but the
latches of R247; `DR` keeps the last level. -/
def Obligations.SetDirectionWritesOneBit : Prop :=
  ∀ (s : State) (pin b i : Nat) (output : Bool) (k : Bank),
    s.canBegin s.actor = true → s.resolvePin pin = some (b, i) → s.banks[b]? = some k →
    k.lock = none → k.clockOn = true →
    exec (.setDirection pin output) s =
      .next ((s.setBank b (k.putBit .dir i output)).ended (.code .ok))

/-- R132: `SET_LEVEL` writes the pin's bit of `DR` under the lock, whatever its direction. -/
def Obligations.SetLevelWritesOneBit : Prop :=
  ∀ (s : State) (pin b i : Nat) (level : Bool) (k : Bank),
    s.canBegin s.actor = true → s.resolvePin pin = some (b, i) → s.banks[b]? = some k →
    k.lock = none → k.clockOn = true →
    exec (.setLevel pin level) s =
      .next ((s.setBank b (k.putBit .dr i level)).ended (.code .ok))

/-- R25, R133: `GET_LEVEL` returns the pad level of the pin whatever its direction, and takes no
lock. -/
def Obligations.GetLevelReadsThePad : Prop :=
  ∀ (s : State) (pin b i : Nat) (k : Bank),
    s.canBegin s.actor = true → s.resolvePin pin = some (b, i) → s.banks[b]? = some k →
    i < 32 → k.clockOn = true →
    exec (.getLevel pin) s = .next (s.ended (.level (k.padLane i)))

/-- The round trip of spec/95_test_vectors.md L1.2: after `set_direction p, out` and `set_level p, L`,
`get_level p` returns `L`. -/
def Obligations.OutputLevelRoundTrips : Prop :=
  ∀ (s : State) (pin b i : Nat) (level : Bool) (k : Bank),
    s.canBegin s.actor = true → s.resolvePin pin = some (b, i) → s.banks[b]? = some k →
    i < 32 → k.lock = none → k.clockOn = true →
    ∃ t u, exec (.setDirection pin true) s = .next t ∧ exec (.setLevel pin level) t = .next u ∧
      exec (.getLevel pin) u = .next (u.ended (.level level))

/-- R138: the four single kinds force the pin to input, write its type, then its polarity, and take it
out of `toggle_edge_mask`; `INTEN` and the wake mask are not written. -/
def Obligations.SetTriggerTypeProgramsASingleKind : Prop :=
  ∀ (s : State) (pin code b i : Nat) (edge high : Bool) (k : Bank),
    s.canBegin s.actor = true → s.resolvePin pin = some (b, i) → s.banks[b]? = some k →
    k.lock = none → k.clockOn = true →
    (code, edge, high) ∈ [(0, false, false), (1, false, true), (2, true, true), (3, true, false)] →
    ∃ k', k' = ((k.putBit .dir i false).putBit .inttype i edge).putBit .intpol i high ∧
      exec (.setTriggerType pin code) s = .next
        ((s.setBank b { k' with toggleEdgeMask := setBit k.toggleEdgeMask i false }).ended
          (.code .ok))

/-- R138, R139: `edge_both` forces the pin to input, reads its level, makes it edge-type, arms the
edge away from the level read, and records the pin in `toggle_edge_mask`. -/
def Obligations.EdgeBothArmsTheOppositeEdge : Prop :=
  ∀ (s : State) (pin b i : Nat) (k : Bank),
    s.canBegin s.actor = true → s.resolvePin pin = some (b, i) → s.banks[b]? = some k →
    i < 32 → k.lock = none → k.clockOn = true →
    ∃ k1 k', k1 = k.putBit .dir i false ∧
      k' = (k1.putBit .inttype i true).putBit .intpol i (!k1.padLane i) ∧
      k'.inttype.getLsbD i = true ∧ k'.intpol.getLsbD i = (!k1.padLane i) ∧
      exec (.setTriggerType pin 4) s = .next
        ((s.setBank b { k' with toggleEdgeMask := setBit k.toggleEdgeMask i true }).ended
          (.code .ok))

/-- R92, R93, R134, R138: a trigger code past 4 returns `UnsupportedTrigger`; a pull mode that the
layout cannot represent, and a pull code past 3, return `UnsupportedPull`; nothing else changes. -/
def Obligations.UnsupportedCodesAreRejected : Prop :=
  ∀ (s : State) (pin code b i : Nat),
    s.canBegin s.actor = true → s.resolvePin pin = some (b, i) →
    (4 < code → exec (.setTriggerType pin code) s = .next (s.ended (.code .unsupportedTrigger))) ∧
    ((3 < code ∨ (s.cfg.variant = .pullGeneric ∧ (code = 1 ∨ code = 2)) ∨
      (s.cfg.variant ≠ .pullGeneric ∧ ∃ m, pullOfCode code = some m ∧
        pull2Value s.cfg.pull2Enc m = none)) →
      exec (.setPull pin code) s = .next (s.ended (.code .unsupportedPull)))

/-- R140: `REQUEST` asks the pin-multiplexing controller once and returns its verdict; no bank changes.
The verdict is the next one supplied, or, if none is, any value: the free value that the model draws.
The queue of supplied verdicts and the counter of draws are the model's choice (log 10), and so is the
record of the call (log 20). -/
def Obligations.RequestReturnsTheVerdict : Prop :=
  ∀ (s : State) (pin b i : Nat),
    s.canBegin s.actor = true → s.resolvePin pin = some (b, i) →
    ∃ (t : State) (accept : Bool), exec (.request pin) s =
        .next (t.ended (.code (if accept then .ok else .requestRefused))) ∧
      (∀ v rest, s.verdicts = v :: rest → accept = v ∧
        t = { s with verdicts := rest, trace := s.trace ++ [.pinmuxRequest pin] }) ∧
      (s.verdicts = [] →
        t = { s with freeDraws := t.freeDraws, trace := s.trace ++ [.pinmuxRequest pin] })

/-- R91, R141: `TO_IRQ` returns `base_irq(b) + i`, changes nothing, and `IrqToPin` of the number gives
the pin's bank and offset back. -/
def Obligations.ToIrqIsBasePlusOffset : Prop :=
  ∀ (s : State) (pin b i : Nat) (k : Bank),
    s.canBegin s.actor = true → s.tableOk = true → s.resolvePin pin = some (b, i) →
    s.banks[b]? = some k →
    exec (.toIrq pin) s = .next (s.ended (.irq (k.row.baseIrq + i))) ∧
    s.irqToPin (k.row.baseIrq + i) = some (b, i)

/-! ### Interrupt chip (spec/42_irq_chip.md) -/

/-- R170, R171: `IRQ_ENABLE` sets and `IRQ_DISABLE` clears the pin's bit of `INTEN` under the lock, and
no latch changes. -/
def Obligations.IrqEnableAndDisableWriteOneBit : Prop :=
  ∀ (s : State) (pin b i : Nat) (k : Bank),
    s.canBegin s.actor = true → s.resolvePin pin = some (b, i) → s.banks[b]? = some k →
    k.lock = none → k.clockOn = true →
    exec (.irqEnable pin) s = .next
      ((s.setBank b { k with inten := setBit k.inten i true &&& k.pinMask }).ended (.code .ok)) ∧
    exec (.irqDisable pin) s = .next
      ((s.setBank b { k with inten := setBit k.inten i false &&& k.pinMask }).ended (.code .ok))

/-- R172, R250: `IRQ_ACK` clears the pin's latch, whatever its type, without the lock, and changes
nothing else. -/
def Obligations.IrqAckClearsOneLatch : Prop :=
  ∀ (s : State) (pin b i : Nat) (k : Bank),
    s.canBegin s.actor = true → s.resolvePin pin = some (b, i) → s.banks[b]? = some k →
    k.clockOn = true →
    exec (.irqAck pin) s =
      .next ((s.setBank b { k with latch := setBit k.latch i false }).ended (.code .ok))

/-- R173: `SET_WAKE` writes the pin's bit of `wake_mask` under the lock and no register, so the bank's
clock does not matter. -/
def Obligations.SetWakeWritesOneBit : Prop :=
  ∀ (s : State) (pin b i : Nat) (on : Bool) (k : Bank),
    s.canBegin s.actor = true → s.resolvePin pin = some (b, i) → s.banks[b]? = some k →
    k.lock = none →
    exec (.setWake pin on) s =
      .next ((s.setBank b { k with wakeMask := setBit k.wakeMask i on }).ended (.code .ok))

/-! ### Suspend and resume (spec/44_power.md) -/

/-- R220: `SUSPEND` saves each bank's enables, narrows them to exactly the wake mask, and gates the
clocks of the banks with no wake pin, in ascending order. -/
def Obligations.SuspendNarrowsEveryBank : Prop :=
  ∀ s : State, s.canBegin s.actor = true →
    (∀ k ∈ s.banks, k.lock = none ∧ k.clockOn = true) →
    exec .suspend s = .next (State.ended { s with
      banks := s.banks.map (·.suspended)
      power := .suspended
      trace := s.trace ++
        (s.banks.filter (·.wakeMask = 0)).map fun k => .clockDisable k.row.clock } .done)

/-- R221: `RESUME` enables the clocks of the gated banks again and writes each bank's enables from the
saved ones and the pending wake pins, in ascending order. -/
def Obligations.ResumeRestoresEveryBank : Prop :=
  ∀ s : State, s.canBegin s.actor = true →
    (∀ k ∈ s.banks, k.lock = none ∧ (k.clockOn = true ∨ k.gated = true)) →
    exec .resume s = .next (State.ended { s with
      banks := s.banks.map (·.resumed)
      power := .running
      trace := s.trace ++
        (s.banks.filter (·.gated)).map fun k => .clockEnable k.row.clock } .done)

/-- R222: `SUSPEND` then `RESUME` with nothing between leaves each bank with the enables it had and the
pending wake pins, its clock on and not gated, and all else but `saved_enable` as it was. -/
def Obligations.SuspendThenResumeAddsOnlyPendingWakePins : Prop :=
  ∀ s : State, s.canBegin s.actor = true → s.lanesOk = true →
    (∀ k ∈ s.banks, k.lock = none ∧ k.clockOn = true ∧ k.gated = false) →
    ∃ t u, exec .suspend s = .next t ∧ exec .resume t = .next u ∧
      u.banks = s.banks.map fun k => { k with
        savedEnable := k.inten
        inten := k.inten ||| (k.suspended.status &&& k.wakeMask) }

/-! ### Detection (spec/60_exceptions.md R245 to R251) -/

/-- R30: each bit of `INTSTATUS` is derived from the enable, the type, and the latch or the active
sense of its pin; a bit at or above the pin count is 0. -/
def Obligations.StatusIsDerivedLaneByLane : Prop :=
  ∀ (k : Bank) (i : Nat), i < 32 →
    k.status.getLsbD i =
      (decide (i < k.row.pinCount) && (k.inten.getLsbD i &&
        (if k.inttype.getLsbD i then k.latch.getLsbD i
          else !((if k.dir.getLsbD i then k.dr.getLsbD i else k.env.getLsbD i) ^^
            k.intpol.getLsbD i))))

/-- R247, R259, R263: an environment step sets `env(b)` and latches exactly the lanes that are enabled,
edge-type and clocked and whose active sense goes from 0 to 1; nothing else changes. -/
def Obligations.EnvironmentStepLatchesTheEdges : Prop :=
  ∀ (s : State) (b : Nat) (v : Word) (rest : List Input) (k : Bank),
    s.tableOk = true → s.inputs = .setEnv b v :: rest → s.banks[b]? = some k →
    ∃ k', k' = { k with env := v, latch := k'.latch } ∧
      (∀ i < 32, k'.latch.getLsbD i = (k.latch.getLsbD i || k.edgeLane k' i)) ∧
      step s = .next { (s.setBank b k') with inputs := rest }

/-- R248, R250: an atomic step of an agent clears a latch only by writing 1 to its lane of `EOI`, and
neither a step of a pass nor the environment clears one. -/
def Obligations.OnlyAnAcknowledgeClearsALatch : Prop :=
  (∀ (a : Agent) (m : Micro) (s s' : State) (b i : Nat) (k k' : Bank),
    microStep a m s = .ok s' → s.banks[b]? = some k → s'.banks[b]? = some k' →
    k.latch.getLsbD i = true → k'.latch.getLsbD i = false →
    ∃ e, m = .busWrite b .eoi e ∧ ((s.ctx a).loc.eval e).getLsbD i = true) ∧
  (∀ (c : Nat) (s s' : State) (b i : Nat) (k k' : Bank),
    passStep c s = .ok s' → s.banks[b]? = some k → s'.banks[b]? = some k' →
    k.latch.getLsbD i = true → k'.latch.getLsbD i = true) ∧
  (∀ (c : Nat) (v : Word) (s : State) (b i : Nat) (k k' : Bank),
    s.banks[b]? = some k → (s.setEnv c v).banks[b]? = some k' →
    k.latch.getLsbD i = true → k'.latch.getLsbD i = true)

/-- R199, R205, R247: rewriting the polarity while every enable is 0, and restoring the enables, sets
no latch: the guarded rewrite of a pass's step 5. -/
def Obligations.GuardedRewriteSetsNoLatch : Prop :=
  ∀ (b : Nat) (s : State) (k : Bank) (pol : Word),
    s.banks[b]? = some k → k.lock = none → k.clockOn = true →
    (s.ctx (.irq b)).fault = none →
    ∃ l, (s.setPlan (.irq b) (updatePlan b pol)).drain (.irq b) =
      (s.setBank b { k with
        intpol := pol &&& k.pinMask, inten := k.inten &&& k.pinMask }).setCtx (.irq b)
        { s.ctx (.irq b) with plan := [], loc := l }

/-! ### Locks and preemption (spec/20_memory.md R60, spec/60_exceptions.md R260) -/

/-- R60, R61: a free lock is taken in one step; a lock of one's own is `SelfDeadlock`; on a lock of
another agent there is no step; and its holder's unlock frees it. -/
def Obligations.LockIsTakenOnlyWhenFree : Prop :=
  ∀ (a : Agent) (s : State) (b : Nat) (k : Bank), s.banks[b]? = some k →
    (k.lock = none →
      microStep a (.lock b) s = .ok (s.setBank b { k with lock := some a })) ∧
    (k.lock = some a → microStep a (.lock b) s = .fault .selfDeadlock) ∧
    (∀ h, k.lock = some h → h ≠ a → microStep a (.lock b) s = .wait) ∧
    (k.lock = some a → microStep a (.unlock b) s = .ok (s.setBank b { k with lock := none }))

/-- R60, R62: every operation that takes a bank's lock waits while another agent holds it, and its
agent's turns change nothing until the lock is free. A pin operation has changed no state but its
agent's own context; `SUSPEND` and `RESUME` have done their part for the banks below that one and
nothing else. `DEMUX`, with the default flow and empty handlers, takes the lock where a pending pin is
dispatched as level-type (R255) or is under both-edge emulation (R199): its pass is then under way and
has written no register, only acknowledged pending latches. And any agent whose next step is `Lock` waits, so
an operation of a handler too. That a spinning agent's turn is an unchanged next state is the model's
choice (log 5), and so are the draws (log 10) and the record of calls (log 20). -/
def Obligations.LockedOperationWaitsForTheHolder : Prop :=
  (∀ (s : State) (a : Agent) (b : Nat) (k : Bank) (h : Agent) (p : List Micro),
    s.banks[b]? = some k → k.lock = some h → h ≠ a → (s.ctx a).plan = .lock b :: p →
    s.advance a = s ∧ s.runOn a = s) ∧
  ∀ (s : State) (b : Nat) (k : Bank) (h : Agent),
    s.canBegin s.actor = true → s.banks[b]? = some k → k.lock = some h → h ≠ s.actor →
    (∀ (i : Instr) (pin o : Nat) (x : Bool) (c : Nat), s.resolvePin pin = some (b, o) →
      (i = .setDirection pin x ∨ i = .setLevel pin x ∨ i = .irqEnable pin ∨ i = .irqDisable pin ∨
        i = .setWake pin x ∨ (i = .setTriggerType pin c ∧ c ≤ 4) ∨
        (i = .setPull pin c ∧ s.cfg.variant = .pullGeneric ∧ (c = 0 ∨ c = 3))) →
      ∃ p t, t = s.setCtx s.actor
          { plan := .lock b :: p, loc := {}, result := none, fault := none } ∧
        exec i s = .next t ∧ t.advance s.actor = t ∧ t.runOn s.actor = t) ∧
    ((∀ j k', j < b → s.banks[j]? = some k' → k'.lock = none ∧ k'.clockOn = true) →
      ∃ p l t, t = State.setCtx { s with
          banks := (s.banks.take b).map (·.suspended) ++ s.banks.drop b
          trace := s.trace ++
            ((s.banks.take b).filter (·.wakeMask = 0)).map fun k => .clockDisable k.row.clock }
          s.actor { plan := .lock b :: p, loc := l, result := none, fault := none } ∧
        exec .suspend s = .next t ∧ t.advance s.actor = t ∧ t.runOn s.actor = t) ∧
    ((∀ j k', j < b → s.banks[j]? = some k' →
        k'.lock = none ∧ (k'.clockOn = true ∨ k'.gated = true)) →
      ∃ p l t, t = State.setCtx { s with
          banks := (s.banks.take b).map (·.resumed) ++ s.banks.drop b
          trace := s.trace ++
            ((s.banks.take b).filter (·.gated)).map fun k => .clockEnable k.row.clock }
          s.actor { plan := .lock b :: p, loc := l, result := none, fault := none } ∧
        exec .resume s = .next t ∧ t.advance s.actor = t ∧ t.runOn s.actor = t) ∧
    (PassBegins s b k → k.status &&& (~~~k.inttype ||| k.toggleEdgeMask) ≠ 0 →
      ∃ (l : Word) (x : Bool) (q : Pass) (c : Ctx) (p : List Micro) (t : State),
        t = State.setCtx { s with
          banks := s.banks.set b { k with latch := k.latch &&& ~~~l, inService := x, pass := q }
          handlers := t.handlers, trace := t.trace } (.irq b) c ∧
        l &&& ~~~k.status = 0 ∧ q ≠ .idle ∧ c.plan = .lock b :: p ∧ c.fault = none ∧
        exec (.demux b) s = .next t ∧ t.advance (.irq b) = t ∧ t.runOn (.irq b) = t)

/-- R260: while a pass of a bank runs on a call-context agent's core, that agent begins no operation
and no raw access and takes no step. That its turn, and an operation it is told to begin, give the unchanged state is
the model's choice (log 5). -/
def Obligations.PassFreezesTheCallsOnItsCore : Prop :=
  ∀ (s : State) (n b : Nat) (k : Bank), s.banks[b]? = some k → k.pass ≠ .idle →
    k.row.irqCore = s.coreOf (.call n) →
    s.advance (.call n) = s ∧ s.runOn (.call n) = s ∧
    (s.actor = .call n → ∀ i, (∀ c, i ≠ .demux c) →
      exec i s = .next s ∧ beginInstr i s = .next s) ∧
    (s.tableOk = true → ∀ (addr : Nat) (bytes : List Byte) (rest : List Input),
      (s.inputs = .busRead (.call n) addr 4 :: rest →
        step s = .next { s with inputs := rest, actor := .call n }) ∧
      (s.inputs = .busWrite (.call n) addr bytes :: rest → bytes.length = 4 →
        step s = .next { s with inputs := rest, actor := .call n }))

/-! ### Delivery and the pass (spec/43_demux.md, spec/60_exceptions.md R251 to R258) -/

/-- R251, R254, R260: a pass may begin exactly when the bank is idle and not in service, its line is
asserted, no call-context agent on the core of its interrupt agent holds the lock of any bank, and,
without nested dispatch, each of them is between operations. That an agent stopped by a fault with
steps left is not between operations is the model's choice (log 28). -/
def Obligations.DeliveryConditions : Prop :=
  ∀ (s : State) (b : Nat) (k : Bank), s.banks[b]? = some k →
    (s.deliverable b = true ↔
      k.pass = .idle ∧ k.inService = false ∧ (k.clockOn = true ∧ k.status ≠ 0) ∧
      (∀ k' ∈ s.banks, ∀ n, k'.lock = some (.call n) → s.coreOf (.call n) ≠ k.row.irqCore) ∧
      (s.cfg.nestedDispatch = false → ∀ n c, (.call n, c) ∈ s.ctxs →
        s.coreOf (.call n) = k.row.irqCore → c.plan = []))

/-- R242: a `DEMUX` from an agent other than the bank's interrupt agent, or one that the delivery rule
does not allow, is refused. Of a bank that does not exist it is refused from any agent but the one of
that bank number, and stops that one with `InvalidRegister` (R96, R100): the model's reading (log 12).
That a refusal is the outcome `refused` (log 13), and that it comes whatever the agent is doing (log
29), are the model's choices. -/
def Obligations.DemuxOutOfPlaceIsRefused : Prop :=
  ∀ (s : State) (b : Nat),
    ((s.actor ≠ .irq b ∨ (b < s.nbanks ∧ s.deliverable b = false)) →
      exec (.demux b) s = .refused (.notDeliverable s.actor b)) ∧
    (s.actor = .irq b → s.nbanks ≤ b → s.canBegin s.actor = true →
      ∃ p l, exec (.demux b) s = .next (s.stoppedBy .invalidRegister p l))

/-- R202, R203, R204: a pass that runs to its end enters the cascade once, dispatches the pending pins
and no others, the highest first, and exits the cascade once, just before its first edge pin or at
the end. The record of calls is the model's choice (log 20), and so is that one handler is drawn from
the queue for each pin (log 10, log 21). -/
def Obligations.PassDispatchesThePendingPins : Prop :=
  ∀ (s : State) (b : Nat) (k : Bank), PassRuns s b k →
    ∃ t, exec (.demux b) s = .next t ∧
      t.trace = s.trace ++ .chainedEnter b ::
        passCalls b k.row.baseIrq k.inttype false (pinsDown k.status) ∧
      t.handlers = s.handlers.drop (pinsDown k.status).length

/-- R199, R202, R205, R250: after such a pass the bank is idle and out of service again, the latches of
the dispatched pins are clear, each both-edge pin among them is armed for the edge away from its level,
and nothing else of the state has changed but the agent's context, which holds that nothing is returned
(R98, log 27), the draws (log 10) and the trace (log 20). -/
def Obligations.PassAcknowledgesAndRearms : Prop :=
  ∀ (s : State) (b : Nat) (k : Bank), PassRuns s b k →
    ∃ t, exec (.demux b) s = .next t ∧
      t = State.setCtx { s with
        banks := s.banks.set b { k with
          latch := k.latch &&& ~~~k.status
          intpol := rearmed k.intpol k.status k.toggleEdgeMask k.pad }
        handlers := t.handlers, trace := t.trace } (.irq b)
        { plan := [], loc := {}, result := some .done, fault := none }

/-- The laws of the pass. R203, R204: the calls that `DEMUX` makes begin with the one `ChainedEnter`,
dispatch the numbers of the pending pins, each once and in strictly decreasing order, and hold one
`ChainedExit`: immediately before the dispatch of the highest pending edge pin, or, with no edge pin
pending, as the last call. R98, R202, R207: whatever the handlers and the flow, a step that ends a pass
leaves its agent with nothing returned and no fault. The record of calls is the model's choice (log
20), and so is the form of the result (log 27). -/
def Obligations.PassKeepsItsLaws : Prop :=
  (∀ (s : State) (b : Nat) (k : Bank), PassRuns s b k →
    ∃ (t : State) (calls : List HostCall) (pins : List Nat), exec (.demux b) s = .next t ∧ t.trace = s.trace ++ calls ∧
      calls.head? = some (.chainedEnter b) ∧ calls.count (.chainedEnter b) = 1 ∧
      dispatched calls = pins.map (k.row.baseIrq + ·) ∧ pins.Pairwise (· > ·) ∧
      (∀ i, i ∈ pins ↔ i < 32 ∧ k.status.getLsbD i = true) ∧
      calls.count (.chainedExit b) = 1 ∧
      (k.status &&& k.inttype = 0 → calls.getLast? = some (.chainedExit b)) ∧
      (k.status &&& k.inttype ≠ 0 → ∃ first last, calls = first ++ .chainedExit b ::
        .dispatch (k.row.baseIrq + msb (k.status &&& k.inttype)) :: last)) ∧
  (∀ (s s' : State) (b : Nat) (k k' : Bank), step s = .next s' → s.banks[b]? = some k →
    s'.banks[b]? = some k' → k.pass ≠ .idle → k'.pass = .idle →
    (s'.ctx (.irq b)).result = some .done ∧ (s'.ctx (.irq b)).fault = none)

/-! ### Invariants of every step -/

/-- R32: no step from a state whose banks hold nothing at or above their pin counts leads to one whose
banks do. -/
def Obligations.LanesStayWithinTheBank : Prop :=
  ∀ s s' : State, s.lanesOk = true → step s = .next s' → s'.lanesOk = true

/-- R44, R200, R204: in every step a bank's line stays in service exactly from its pass's `ChainedEnter`
to its one `ChainedExit`. The model's choices in it: that a pass is active and not yet in service at
`Enter`, because delivery and `ChainedEnter` are two steps (log 31), and that it is never active after
step 6's `ChainedExit`, because that and the end of the pass are one (log 7). -/
def Obligations.CascadeFollowsThePass : Prop :=
  ∀ s s' : State, s.cascadeOk = true → step s = .next s' → s'.cascadeOk = true

/-- R20: no step changes the parameters or the bank table. -/
def Obligations.ConfigurationNeverChanges : Prop :=
  ∀ s s' : State, step s = .next s' → s'.cfg = s.cfg ∧ s'.rows = s.rows

/-- R241: no step clears or replaces a fault that has been recorded. That it is recorded in the
agent's context is the model's choice (log 5). -/
def Obligations.FaultsAreNeverCleared : Prop :=
  ∀ (s s' : State) (a : Agent) (f : AgentFault), step s = .next s' →
    (s.ctx a).fault = some f → (s'.ctx a).fault = some f

/-- The reset state keeps R32, R33 and R44, and no agent is stopped. That `PULL1`, one of the registers
of R32, is 0 there is the model's choice (log 1: R51 says any value), and so is the bank table (log
2). -/
def Obligations.ResetKeepsTheInvariants : Prop :=
  State.reset.lanesOk = true ∧ State.reset.cascadeOk = true ∧ State.reset.tableOk = true ∧
  State.reset.noFault = true

/-- R51, R280, R281, R282: initialisation leaves every bank idle, unlocked, clocked and not gated, its
masks 0, and, with no override of those, its registers 0 and no interrupt pending; it enables each
bank's clock and then registers each bank's cascade handler, and calls nothing else. The pull registers
and `env` are any values. That each bank has its own overrides is the model's choice (log 1), and so
are the order of the banks in steps 5 and 6 (log 30) and the record of calls (log 20). -/
def Obligations.InitialisedBanksAreIdle : Prop :=
  ∀ (cfg : Config) (rows : List BankRow) (rv : ResetValues), tableOk rows = true → rows ≠ [] →
    (∀ r ∈ rv.banks, r.dir = 0 ∧ r.dr = 0 ∧ r.inten = 0 ∧ r.inttype = 0 ∧ r.intpol = 0 ∧
      r.latch = 0) →
    ∃ t, initialise cfg rows rv = .next t ∧ t.rows = rows ∧ t.cfg = cfg ∧
      t.trace = rows.map (fun row => .clockEnable row.clock) ++
        (List.range rows.length).map .registerHandler ∧
      ∀ k ∈ t.banks, k.dir = 0 ∧ k.dr = 0 ∧ k.inten = 0 ∧ k.inttype = 0 ∧ k.intpol = 0 ∧
        k.latch = 0 ∧ k.status = 0 ∧ k.wakeMask = 0 ∧ k.savedEnable = 0 ∧ k.toggleEdgeMask = 0 ∧
        k.lock = none ∧ k.clockOn = true ∧ k.gated = false ∧ k.inService = false ∧ k.pass = .idle

/-! ### Hazards -/

/-- R114, R285: two agents that set bits of one register without the lock can lose an update: there is
an interleaving, from a state in which each may begin when it does and the register is 0, after which
the bit the first one wrote is clear. -/
def Obligations.RawSetBitsCanLoseAnUpdate : Prop :=
  ∃ s t u v w x : State,
    s.canBegin (.call 0) = true ∧ t.canBegin (.call 1) = true ∧
    ((s.banks[0]?).map (·.dir) = some 0) ∧
    beginInstr (.setBits 0 0 true 1) { s with actor := .call 0 } = .next t ∧
    beginInstr (.setBits 0 0 true 2) { t with actor := .call 1 } = .next u ∧
    v = (u.advance (.call 0)).advance (.call 1) ∧
    w = (v.runOn (.call 0)) ∧ ((w.banks[0]?).map (·.dir) = some 1) ∧
    x = (w.runOn (.call 1)) ∧ ((x.banks[0]?).map (·.dir) = some 2) ∧
    (x.ctx (.call 0)).result = some .done ∧ (x.ctx (.call 1)).result = some .done
end

