-- ==== Sys2Proof/Laws/State.lean ====
section
/-! SUPPORT. One lemma per field per update of the state, and the laws of contexts and banks. -/

namespace Sys2Proof.Machine

open Sys2Proof

variable (s : State) (a x : Agent) (b c : Nat) (k k' : Bank) (h : HostCall)

/-! ### Fields after `setBank`, `emit` and `setCtx` -/

@[simp] theorem setBank_cfg : (s.setBank b k).cfg = s.cfg := rfl
@[simp] theorem setBank_pmuPull : (s.setBank b k).pmuPull = s.pmuPull := rfl
@[simp] theorem setBank_power : (s.setBank b k).power = s.power := rfl
@[simp] theorem setBank_ctxs : (s.setBank b k).ctxs = s.ctxs := rfl
@[simp] theorem setBank_actor : (s.setBank b k).actor = s.actor := rfl
@[simp] theorem setBank_inputs : (s.setBank b k).inputs = s.inputs := rfl
@[simp] theorem setBank_verdicts : (s.setBank b k).verdicts = s.verdicts := rfl
@[simp] theorem setBank_handlers : (s.setBank b k).handlers = s.handlers := rfl
@[simp] theorem setBank_freeDraws : (s.setBank b k).freeDraws = s.freeDraws := rfl
@[simp] theorem setBank_trace : (s.setBank b k).trace = s.trace := rfl
@[simp] theorem setBank_banks : (s.setBank b k).banks = s.banks.set b k := rfl
@[simp] theorem emit_cfg : (s.emit h).cfg = s.cfg := rfl
@[simp] theorem emit_banks : (s.emit h).banks = s.banks := rfl
@[simp] theorem emit_pmuPull : (s.emit h).pmuPull = s.pmuPull := rfl
@[simp] theorem emit_power : (s.emit h).power = s.power := rfl
@[simp] theorem emit_ctxs : (s.emit h).ctxs = s.ctxs := rfl
@[simp] theorem emit_actor : (s.emit h).actor = s.actor := rfl
@[simp] theorem emit_inputs : (s.emit h).inputs = s.inputs := rfl
@[simp] theorem emit_verdicts : (s.emit h).verdicts = s.verdicts := rfl
@[simp] theorem emit_handlers : (s.emit h).handlers = s.handlers := rfl
@[simp] theorem emit_freeDraws : (s.emit h).freeDraws = s.freeDraws := rfl
@[simp] theorem emit_trace : (s.emit h).trace = s.trace ++ [h] := rfl
@[simp] theorem setCtx_cfg (d : Ctx) : (s.setCtx a d).cfg = s.cfg := rfl
@[simp] theorem setCtx_banks (d : Ctx) : (s.setCtx a d).banks = s.banks := rfl
@[simp] theorem setCtx_pmuPull (d : Ctx) : (s.setCtx a d).pmuPull = s.pmuPull := rfl
@[simp] theorem setCtx_power (d : Ctx) : (s.setCtx a d).power = s.power := rfl
@[simp] theorem setCtx_actor (d : Ctx) : (s.setCtx a d).actor = s.actor := rfl
@[simp] theorem setCtx_inputs (d : Ctx) : (s.setCtx a d).inputs = s.inputs := rfl
@[simp] theorem setCtx_verdicts (d : Ctx) : (s.setCtx a d).verdicts = s.verdicts := rfl
@[simp] theorem setCtx_handlers (d : Ctx) : (s.setCtx a d).handlers = s.handlers := rfl
@[simp] theorem setCtx_freeDraws (d : Ctx) : (s.setCtx a d).freeDraws = s.freeDraws := rfl
@[simp] theorem setCtx_trace (d : Ctx) : (s.setCtx a d).trace = s.trace := rfl
@[simp] theorem setCtx_ctxs (d : Ctx) : (s.setCtx a d).ctxs = putCtx a d s.ctxs := rfl

/-! ### Contexts -/

theorem lookupCtx_putCtx_same (d : Ctx) (l : List (Agent × Ctx)) :
    lookupCtx a (putCtx a d l) = d := by
  induction l with
  | nil => simp [putCtx, lookupCtx]
  | cons y rest ih =>
    obtain ⟨z, e⟩ := y
    by_cases hz : z = a <;> simp [putCtx, lookupCtx, hz, ih]

theorem lookupCtx_putCtx_other (d : Ctx) (l : List (Agent × Ctx)) (hx : x ≠ a) :
    lookupCtx x (putCtx a d l) = lookupCtx x l := by
  induction l with
  | nil => simp [putCtx, lookupCtx, Ne.symm hx]
  | cons y rest ih =>
    obtain ⟨z, e⟩ := y
    by_cases hz : z = a
    · subst hz; simp [putCtx, lookupCtx, Ne.symm hx]
    · simp [putCtx, lookupCtx, hz, ih]

theorem putCtx_putCtx (d e : Ctx) (l : List (Agent × Ctx)) :
    putCtx a e (putCtx a d l) = putCtx a e l := by
  induction l with
  | nil => simp [putCtx]
  | cons y rest ih =>
    obtain ⟨z, f⟩ := y
    by_cases hz : z = a <;> simp [putCtx, hz, ih]

@[simp] theorem ctx_setCtx_same (d : Ctx) : (s.setCtx a d).ctx a = d :=
  lookupCtx_putCtx_same a d s.ctxs

theorem ctx_setCtx_other (d : Ctx) (hx : x ≠ a) : (s.setCtx a d).ctx x = s.ctx x :=
  lookupCtx_putCtx_other a x d s.ctxs hx

@[simp] theorem setCtx_setCtx (d e : Ctx) : (s.setCtx a d).setCtx a e = s.setCtx a e := by
  simp [State.setCtx, putCtx_putCtx]

@[simp] theorem ctx_setBank : (s.setBank b k).ctx x = s.ctx x := rfl
@[simp] theorem ctx_emit : (s.emit h).ctx x = s.ctx x := rfl

theorem setBank_setCtx (d : Ctx) : (s.setCtx a d).setBank b k = (s.setBank b k).setCtx a d := rfl
theorem emit_setCtx (d : Ctx) : (s.setCtx a d).emit h = (s.emit h).setCtx a d := rfl
theorem emit_setBank : (s.emit h).setBank b k = (s.setBank b k).emit h := rfl

@[simp] theorem setBank_setBank : (s.setBank b k).setBank b k' = s.setBank b k' := by
  simp [State.setBank]

/-! ### Plans, locals, results and faults -/

theorem setPlan_eq (p : List Micro) : s.setPlan a p = s.setCtx a { s.ctx a with plan := p } := rfl
theorem setLoc_eq (l : Locals) : s.setLoc a l = s.setCtx a { s.ctx a with loc := l } := rfl
theorem returned_eq (r : OpResult) :
    s.returned a r = s.setCtx a { s.ctx a with loc := {}, result := some r } := rfl
theorem recordFault_eq (f : AgentFault) :
    s.recordFault a f = s.setCtx a { s.ctx a with result := none, fault := some f } := rfl
theorem beginPlan_eq (p : List Micro) :
    s.beginPlan a p = s.setCtx a { s.ctx a with plan := p, loc := {}, result := none } := rfl
theorem setPass_eq (p : Pass) : s.setPass b k p = s.setBank b { k with pass := p } := rfl

/-! ### Banks -/

theorem banks_setBank_same (hb : s.banks[b]? = some k') : (s.setBank b k).banks[b]? = some k := by
  have : b < s.banks.length := by
    rcases Nat.lt_or_ge b s.banks.length with h | h
    · exact h
    · simp [List.getElem?_eq_none h] at hb
  simp [State.setBank, this]

theorem banks_setBank_other (hc : c ≠ b) : (s.setBank b k).banks[c]? = s.banks[c]? := by
  simp [State.setBank, List.getElem?_set_ne (Ne.symm hc)]

@[simp] theorem nbanks_setBank : (s.setBank b k).nbanks = s.nbanks := by
  simp [State.nbanks, State.setBank]

@[simp] theorem nbanks_setCtx (d : Ctx) : (s.setCtx a d).nbanks = s.nbanks := rfl
@[simp] theorem nbanks_emit : (s.emit h).nbanks = s.nbanks := rfl

/-- Writing a bank that has the row it had leaves the bank table as it was. -/
theorem rows_setBank (hb : s.banks[b]? = some k') (hr : k.row = k'.row) :
    (s.setBank b k).rows = s.rows := by
  simp only [State.rows, State.setBank, List.map_set]
  refine List.ext_getElem? fun n => ?_
  by_cases hn : b = n
  · subst hn
    simp only [List.getElem?_set, List.length_map, if_true]
    obtain ⟨h, hk⟩ := List.getElem?_eq_some_iff.1 hb
    simp [h, hk, hr]
  · simp [List.getElem?_set_ne hn]

/-! ### Initialisation -/

/-- The banks constructed from a table have its rows (R282 step 2). -/
@[simp] theorem map_row_banksFrom (rv : ResetValues) (n : Nat) (rows : List BankRow) :
    (banksFrom rv n rows).map (·.row) = rows := by
  induction rows generalizing n with
  | nil => rfl
  | cons row rest ih => simp [banksFrom, Bank.initial, ih]

/-- Each bank constructed has the initial values of a row, over that bank's overrides (R280). -/
theorem mem_banksFrom {rv : ResetValues} {n : Nat} {rows : List BankRow} {q : Bank}
    (hq : q ∈ banksFrom rv n rows) :
    ∃ m row, row ∈ rows ∧ q = Bank.initial (rv.banks.getD m {}) row := by
  induction rows generalizing n with
  | nil => simp [banksFrom] at hq
  | cons row rest ih =>
    rcases List.mem_cons.1 hq with rfl | hq
    · exact ⟨n, row, by simp, rfl⟩
    · obtain ⟨m, r, hr, rfl⟩ := ih hq
      exact ⟨m, r, by simp [hr], rfl⟩

@[simp] theorem rows_initial (cfg : Config) (rows : List BankRow) (rv : ResetValues) :
    (State.initial cfg rows rv).rows = rows :=
  map_row_banksFrom rv 0 rows

@[simp] theorem initial_cfg (cfg : Config) (rows : List BankRow) (rv : ResetValues) :
    (State.initial cfg rows rv).cfg = cfg := rfl
@[simp] theorem initial_banks (cfg : Config) (rows : List BankRow) (rv : ResetValues) :
    (State.initial cfg rows rv).banks = banksFrom rv 0 rows := rfl
@[simp] theorem initial_trace (cfg : Config) (rows : List BankRow) (rv : ResetValues) :
    (State.initial cfg rows rv).trace = initCalls rows := rfl

end Sys2Proof.Machine
end

