-- ==== Sys2Proof/Laws/Ops.lean ====
section
/-! SUPPORT. What each shared operation can do, said once: later proofs cite these lemmas instead of
unfolding the operations. -/

namespace Sys2Proof.Machine

open Sys2Proof

/-! ### Operands -/

/-- What a resolved pin is: a bank whose range holds it, and the offset in that range (R90). -/
theorem resolveFrom_some {c p : Nat} {l : List Bank} {b i : Nat}
    (h : resolveFrom c p l = some (b, i)) :
    ∃ k, c ≤ b ∧ l[b - c]? = some k ∧ k.row.basePin + i = p ∧ i < k.row.pinCount := by
  induction l generalizing c with
  | nil => simp [resolveFrom] at h
  | cons k rest ih =>
    simp only [resolveFrom] at h
    split at h
    · obtain ⟨rfl, rfl⟩ : c = b ∧ p - k.row.basePin = i := by simpa using h
      exact ⟨k, le_refl _, by simp, by omega, by omega⟩
    · obtain ⟨k', hc, hk, hp, hi⟩ := ih h
      refine ⟨k', by omega, ?_, hp, hi⟩
      rw [show b - c = (b - (c + 1)) + 1 by omega]
      simpa using hk

theorem resolvePin_some {s : State} {p b i : Nat} (h : s.resolvePin p = some (b, i)) :
    ∃ k, s.banks[b]? = some k ∧ k.row.basePin + i = p ∧ i < k.row.pinCount := by
  obtain ⟨k, -, hk, hp, hi⟩ := resolveFrom_some h
  exact ⟨k, by simpa using hk, hp, hi⟩

/-- A pin that does not resolve lies in no bank's range (R90). -/
theorem resolveFrom_none {c p : Nat} {l : List Bank} (h : resolveFrom c p l = none) :
    ∀ k ∈ l, ¬(k.row.basePin ≤ p ∧ p < k.row.basePin + k.row.pinCount) := by
  induction l generalizing c with
  | nil => simp
  | cons k rest ih =>
    simp only [resolveFrom] at h
    split at h
    · simp at h
    · rename_i hk
      intro k' hk'
      rcases List.mem_cons.1 hk' with rfl | hm
      · exact hk
      · exact ih h k' hm

/-- A register address that is valid names an existing bank and a register of the variant (R96). -/
theorem regAt_some {s : State} {b r : Nat} {reg : Reg} (h : s.regAt b r = some reg) :
    b < s.nbanks ∧ regOfId s.cfg.variant r = some reg := by
  simp only [State.regAt] at h
  split at h
  · exact ⟨‹_›, h⟩
  · simp at h

/-- The ids of the registers are read back (R96); `PULL1` only in layout 1. -/
theorem regOfId_regId (var : Variant) (reg : Reg) (h : reg = .pull1 → var = .pullGeneric) :
    regOfId var (regId reg) = some reg := by
  cases reg <;> simp_all [regOfId, regId]

/-! ### Bus accesses -/

/-- A bus read that succeeds found the clock on (R112). -/
theorem busRead_ok {k : Bank} {r : Reg} {w : Word} (h : k.busRead r = .ok w) : k.clockOn = true := by
  unfold Bank.busRead at h
  split at h <;> simp_all

/-- A bus write that succeeds found the clock on, stored, and detected edges (R113). -/
theorem busWrite_ok {k k' : Bank} {r : Reg} {v : Word} (h : k.busWrite r v = .ok k') :
    k.clockOn = true ∧ k' = edgeDetect k (k.store r v) := by
  unfold Bank.busWrite at h
  split at h
  · exact ⟨‹_›, by simpa using h.symm⟩
  · simp at h

theorem busRead_gated {k : Bank} (r : Reg) (h : k.clockOn = false) :
    k.busRead r = .error .clockGatedAccess := by
  simp [Bank.busRead, h]

theorem busWrite_gated {k : Bank} (r : Reg) (v : Word) (h : k.clockOn = false) :
    k.busWrite r v = .error .clockGatedAccess := by
  simp [Bank.busWrite, h]

theorem busWrite_clocked {k : Bank} (r : Reg) (v : Word) (h : k.clockOn = true) :
    k.busWrite r v = .ok (edgeDetect k (k.store r v)) := by
  simp [Bank.busWrite, h]

/-! ### What stays of a bank -/

@[simp] theorem edgeDetect_row (k k' : Bank) : (edgeDetect k k').row = k'.row := rfl
@[simp] theorem edgeDetect_lock (k k' : Bank) : (edgeDetect k k').lock = k'.lock := rfl
@[simp] theorem edgeDetect_pass (k k' : Bank) : (edgeDetect k k').pass = k'.pass := rfl
@[simp] theorem edgeDetect_clockOn (k k' : Bank) : (edgeDetect k k').clockOn = k'.clockOn := rfl
@[simp] theorem edgeDetect_inService (k k' : Bank) :
    (edgeDetect k k').inService = k'.inService := rfl

@[simp] theorem store_row (k : Bank) (r : Reg) (v : Word) : (k.store r v).row = k.row := by
  cases r <;> rfl
@[simp] theorem store_lock (k : Bank) (r : Reg) (v : Word) : (k.store r v).lock = k.lock := by
  cases r <;> rfl
@[simp] theorem store_pass (k : Bank) (r : Reg) (v : Word) : (k.store r v).pass = k.pass := by
  cases r <;> rfl
@[simp] theorem store_clockOn (k : Bank) (r : Reg) (v : Word) :
    (k.store r v).clockOn = k.clockOn := by
  cases r <;> rfl
@[simp] theorem store_inService (k : Bank) (r : Reg) (v : Word) :
    (k.store r v).inService = k.inService := by
  cases r <;> rfl

@[simp] theorem setSoft_row (k : Bank) (f : SoftField) (v : Word) : (k.setSoft f v).row = k.row := by
  cases f <;> rfl
@[simp] theorem setSoft_pass (k : Bank) (f : SoftField) (v : Word) :
    (k.setSoft f v).pass = k.pass := by
  cases f <;> rfl
@[simp] theorem setSoft_inService (k : Bank) (f : SoftField) (v : Word) :
    (k.setSoft f v).inService = k.inService := by
  cases f <;> rfl

/-! ### Pull registers -/

/-- A pull write touches one bank's pull registers, or the PMU block's, and nothing else. -/
theorem setPullData_cases (s : State) (g : PullRegion) (b n : Nat) (d : Half) :
    (s.setPullData g b n d = { s with pmuPull := s.pmuPull.set n d }) ∨
    (∃ k, s.banks[b]? = some k ∧
      s.setPullData g b n d = s.setBank b { k with grfPull := k.grfPull.set n d }) ∨
    (∃ k, s.banks[b]? = some k ∧
      s.setPullData g b n d = s.setBank b { k with wmPull := k.wmPull.set n d }) ∨
    s.setPullData g b n d = s := by
  cases g <;> cases hb : s.banks[b]? <;> simp [State.setPullData, hb]

/-! ### One atomic step -/

/-- A step on a bank that succeeds found the bank. -/
theorem onBank_ok {s s' : State} {b : Nat} {f : Bank → MicroOut} (h : onBank s b f = .ok s') :
    ∃ k, s.banks[b]? = some k ∧ f k = .ok s' := by
  unfold onBank at h
  split at h
  · exact ⟨_, ‹_›, h⟩
  · simp at h

/-- What the bank is after a step that wrote to it: each kind of write an agent's atomic step makes. -/
inductive BankWrite (a : Agent) (l : Locals) (m : Micro) (b : Nat) (k : Bank) : Bank → Prop
  | locked (h : k.lock = none) (hm : m = .lock b) : BankWrite a l m b k { k with lock := some a }
  | unlocked (h : k.lock = some a) (hm : m = .unlock b) : BankWrite a l m b k { k with lock := none }
  | written (r : Reg) (e : Val) (h : k.clockOn = true) (hm : m = .busWrite b r e) :
      BankWrite a l m b k (edgeDetect k (k.store r (l.eval e)))
  | soft (f : SoftField) (e : Val) (hm : m = .softWrite b f e) :
      BankWrite a l m b k (k.setSoft f (l.eval e))
  | clockOff (hm : m = .clockOffIfNoWake b) : BankWrite a l m b k { k with clockOn := false }
  | clockOn (hm : m = .clockOnIfGated b) : BankWrite a l m b k { k with clockOn := true }
  | gate (hm : m = .gateIfNoWake b) : BankWrite a l m b k { k with gated := true }
  | ungate (hm : m = .ungateIfGated b) : BankWrite a l m b k { k with gated := false }
  | grf (n : Nat) (d : Half) : BankWrite a l m b k { k with grfPull := k.grfPull.set n d }
  | wm (n : Nat) (d : Half) : BankWrite a l m b k { k with wmPull := k.wmPull.set n d }
  | serviced (r : PassRegs) (h : k.pass = .active .service r) (hm : m = .serviced b) :
      BankWrite a l m b k { k with pass := .active .clear r }
  | updated (r : PassRegs) (h : k.pass = .active .update r) (hm : m = .updated b) :
      BankWrite a l m b k { k with pass := .active .exit r }
  | kept : BankWrite a l m b k k

/-- SAID ONCE: all that one atomic step of agent `a` can do if it is taken. It writes at most one
bank, in one of the ways of `BankWrite`; it may change the agent's own locals and result, the PMU
pull registers, the power state, the draws and the trace; and it changes nothing else. -/
structure MicroEffect (a : Agent) (m : Micro) (s s' : State) : Prop where
  banks : s'.banks = s.banks ∨ ∃ b k k', s.banks[b]? = some k ∧
    BankWrite a (s.ctx a).loc m b k k' ∧ s'.banks = s.banks.set b k'
  cfg : s'.cfg = s.cfg
  actor : s'.actor = s.actor
  inputs : s'.inputs = s.inputs
  handlers : s'.handlers = s.handlers
  ctxs : s'.ctxs = s.ctxs ∨
    ∃ l r, s'.ctxs = putCtx a { s.ctx a with loc := l, result := r } s.ctxs

/-- An effect on one bank and nothing else. -/
theorem MicroEffect.ofBank {a : Agent} {m : Micro} {s : State} {b : Nat} {k k' : Bank}
    (hb : s.banks[b]? = some k) (hw : BankWrite a (s.ctx a).loc m b k k') :
    MicroEffect a m s (s.setBank b k') :=
  ⟨.inr ⟨b, k, k', hb, hw, rfl⟩, rfl, rfl, rfl, rfl, .inl rfl⟩

/-- An effect on the agent's locals and nothing else. -/
theorem MicroEffect.ofLoc {a : Agent} {m : Micro} (s : State) (l : Locals) :
    MicroEffect a m s (s.setLoc a l) :=
  ⟨.inl rfl, rfl, rfl, rfl, rfl, .inr ⟨l, (s.ctx a).result, rfl⟩⟩

/-- An effect on the agent's result and nothing else. -/
theorem MicroEffect.ofResult {a : Agent} {m : Micro} (s : State) (r : OpResult) :
    MicroEffect a m s (s.returned a r) :=
  ⟨.inl rfl, rfl, rfl, rfl, rfl, .inr ⟨{}, some r, rfl⟩⟩

/-- No effect. -/
theorem MicroEffect.none {a : Agent} {m : Micro} (s : State) : MicroEffect a m s s :=
  ⟨.inl rfl, rfl, rfl, rfl, rfl, .inl rfl⟩

/-- A host call and nothing else. -/
theorem MicroEffect.ofEmit {a : Agent} {m : Micro} (s : State) (c : HostCall) :
    MicroEffect a m s (s.emit c) :=
  ⟨.inl rfl, rfl, rfl, rfl, rfl, .inl rfl⟩

/-- A pull write's effect. -/
theorem MicroEffect.ofPull {a : Agent} {m : Micro} (s : State) (g : PullRegion) (b n : Nat)
    (d : Half) : MicroEffect a m s (s.setPullData g b n d) := by
  rcases setPullData_cases s g b n d with h | ⟨k, hk, h⟩ | ⟨k, hk, h⟩ | h <;> rw [h]
  · exact ⟨.inl rfl, rfl, rfl, rfl, rfl, .inl rfl⟩
  · exact .ofBank hk (.grf n d)
  · exact .ofBank hk (.wm n d)
  · exact .none s

theorem microStep_ok {a : Agent} {m : Micro} {s s' : State} (h : microStep a m s = .ok s') :
    MicroEffect a m s s' := by
  cases m <;> simp only [microStep] at h
  case lock b =>
    obtain ⟨k, hk, h⟩ := onBank_ok h
    split at h
    · cases h; exact .ofBank hk (.locked ‹_› rfl)
    · split at h <;> cases h
  case unlock b =>
    obtain ⟨k, hk, h⟩ := onBank_ok h
    cases h
    split
    · exact .ofBank hk (.unlocked ‹_› rfl)
    · exact .ofBank hk .kept
  case busRead b r =>
    obtain ⟨k, hk, h⟩ := onBank_ok h
    split at h <;> cases h
    exact .ofLoc s _
  case busWrite b r e =>
    obtain ⟨k, hk, h⟩ := onBank_ok h
    split at h <;> cases h
    obtain ⟨hc, rfl⟩ := busWrite_ok ‹_›
    exact .ofBank hk (.written r e hc rfl)
  case readLevel b i =>
    obtain ⟨k, hk, h⟩ := onBank_ok h
    split at h <;> cases h
    exact .ofLoc s _
  case pullRead g b n =>
    split at h <;> cases h
    exact .ofLoc s _
  case pullWrite g b n w =>
    split at h <;> cases h
    exact .ofPull s g b n _
  case softRead b f x =>
    obtain ⟨k, hk, h⟩ := onBank_ok h
    cases h; exact .ofLoc s _
  case softWrite b f e =>
    obtain ⟨k, hk, h⟩ := onBank_ok h
    cases h; exact .ofBank hk (.soft f e rfl)
  case clockDisableIfNoWake b =>
    obtain ⟨k, hk, h⟩ := onBank_ok h
    split at h <;> cases h
    · exact .ofEmit s _
    · exact .none s
  case clockOffIfNoWake b =>
    obtain ⟨k, hk, h⟩ := onBank_ok h
    split at h <;> cases h
    · exact .ofBank hk (.clockOff rfl)
    · exact .none s
  case gateIfNoWake b =>
    obtain ⟨k, hk, h⟩ := onBank_ok h
    split at h <;> cases h
    · exact .ofBank hk (.gate rfl)
    · exact .none s
  case readGated b =>
    obtain ⟨k, hk, h⟩ := onBank_ok h
    cases h; exact .ofLoc s _
  case clockEnableIfGated b =>
    obtain ⟨k, hk, h⟩ := onBank_ok h
    split at h <;> cases h
    · exact .ofEmit s _
    · exact .none s
  case clockOnIfGated b =>
    obtain ⟨k, hk, h⟩ := onBank_ok h
    split at h <;> cases h
    · exact .ofBank hk (.clockOn rfl)
    · exact .none s
  case ungateIfGated b =>
    obtain ⟨k, hk, h⟩ := onBank_ok h
    split at h <;> cases h
    · exact .ofBank hk (.ungate rfl)
    · exact .none s
  case setPower p => cases h; exact ⟨.inl rfl, rfl, rfl, rfl, rfl, .inl rfl⟩
  case pinmux pin =>
    cases h
    unfold State.drawVerdict
    split <;> exact ⟨.inl rfl, rfl, rfl, rfl, rfl, .inr ⟨_, (s.ctx a).result, rfl⟩⟩
  case ret r => cases h; exact .ofResult s _
  case retWord => cases h; exact .ofResult s _
  case retLevel => cases h; exact .ofResult s _
  case retVerdict => cases h; exact .ofResult s _
  case raiseFault f => cases h
  case serviced b =>
    obtain ⟨k, hk, h⟩ := onBank_ok h
    split at h <;> cases h
    · exact .ofBank hk (.serviced _ ‹_› rfl)
    · exact .none s
  case updated b =>
    obtain ⟨k, hk, h⟩ := onBank_ok h
    split at h <;> cases h
    · rename_i r hp
      exact ⟨.inr ⟨b, k, _, hk, .updated r hp rfl, rfl⟩, rfl, rfl, rfl, rfl,
        .inr ⟨_, (s.ctx a).result, rfl⟩⟩
    · exact .none s

/-- A step that accesses a register of a bank whose clock is off faults (R77). -/
theorem microStep_gated {a : Agent} {m : Micro} {s : State} {b : Nat} {k : Bank}
    (hm : m.accesses b = true) (hb : s.banks[b]? = some k) (hc : k.clockOn = false) :
    microStep a m s = .fault .clockGatedAccess := by
  cases m <;> simp only [Micro.accesses, Bool.false_eq_true, beq_iff_eq] at hm <;> subst hm <;>
    simp [microStep, onBank, hb, busRead_gated _ hc, busWrite_gated _ _ hc]

/-- A step that acquires a lock held by another agent is not taken (R60). -/
theorem microStep_lock_held {a h : Agent} {s : State} {b : Nat} {k : Bank}
    (hb : s.banks[b]? = some k) (hl : k.lock = some h) (hh : h ≠ a) :
    microStep a (.lock b) s = .wait := by
  simp [microStep, onBank, hb, hl, hh]

/-- An atomic step leaves the bank table as it was (R20). -/
theorem BankWrite.row {a : Agent} {l : Locals} {m : Micro} {b : Nat} {k k' : Bank}
    (h : BankWrite a l m b k k') : k'.row = k.row := by
  cases h <;> simp

theorem MicroEffect.rows {a : Agent} {m : Micro} {s s' : State} (h : MicroEffect a m s s') :
    s'.rows = s.rows := by
  rcases h.banks with hb | ⟨b, k, k', hk, hw, hb⟩
  · simp [State.rows, hb]
  · have := rows_setBank s b k' k hk hw.row
    simpa [State.rows, hb] using this

/-- An atomic step leaves every other agent's context as it was. -/
theorem MicroEffect.ctx_other {a x : Agent} {m : Micro} {s s' : State} (h : MicroEffect a m s s')
    (hx : x ≠ a) : s'.ctx x = s.ctx x := by
  rcases h.ctxs with hc | ⟨l, r, hc⟩ <;> simp [State.ctx, hc, lookupCtx_putCtx_other a x _ _ hx]

/-- An atomic step leaves the agent's own plan and fault as they were. -/
theorem MicroEffect.ctx_same {a : Agent} {m : Micro} {s s' : State} (h : MicroEffect a m s s') :
    (s'.ctx a).plan = (s.ctx a).plan ∧ (s'.ctx a).fault = (s.ctx a).fault := by
  rcases h.ctxs with hc | ⟨l, r, hc⟩ <;> simp [State.ctx, hc, lookupCtx_putCtx_same]

/-! ### One step of a pass -/

/-- SAID ONCE: what bank `b`'s own pass step does to the bank: it writes the pass, and the in-service
bit at entry and at the one exit; nothing else of the bank. -/
inductive PassWrite (k : Bank) : Bank → Prop
  | enter (r : PassRegs) (h : k.pass = .active .enter r) :
      PassWrite k { k.chainedEnter with pass := .active .snapIsr r }
  | snap (pos : PassPos) (r : PassRegs) (pos' : PassPos) (r' : PassRegs)
      (h : k.pass = .active pos r) (hp : pos = .snapIsr ∧ pos' = .snapIlr ∨
        pos = .snapIlr ∧ pos' = .snapTmask ∨ pos = .snapTmask ∧ pos' = .snapPol ∨
        pos = .snapPol ∧ pos' = .snapLvl) (hr : r'.acked = r.acked) :
      PassWrite k { k with pass := .active pos' r' }
  | scanStart (pos : PassPos) (r r' : PassRegs) (h : k.pass = .active pos r)
      (hp : pos = .snapTmask ∨ pos = .snapLvl) (hr : r'.acked = false) :
      PassWrite k { k with pass := .active .scan r' }
  | move (pos : PassPos) (r : PassRegs) (pos' : PassPos) (r' : PassRegs)
      (h : k.pass = .active pos r) (hp : pos = .scan ∧ (pos' = .update ∨ pos' = .exit ∨
        pos' = .service) ∨ pos = .service ∧ pos' = .service ∨ pos = .clear ∧ pos' = .scan)
      (hr : r'.acked = r.acked) :
      PassWrite k { k with pass := .active pos' r' }
  | earlyExit (r r' : PassRegs) (h : k.pass = .active .scan r) (ha : r.acked = false)
      (hr : r'.acked = true) :
      PassWrite k { k.chainedExit with pass := .active .service r' }
  | lateExit (r : PassRegs) (h : k.pass = .active .exit r) (ha : r.acked = false) :
      PassWrite k { k.chainedExit with pass := .idle }
  | ended (r : PassRegs) (h : k.pass = .active .exit r) (ha : r.acked = true) :
      PassWrite k { k with pass := .idle }
  | kept : PassWrite k k

/-- SAID ONCE: all that a step of bank `b`'s pass can do. -/
structure PassEffect (b : Nat) (s s' : State) : Prop where
  banks : ∃ k k', s.banks[b]? = some k ∧ PassWrite k k' ∧ s'.banks = s.banks.set b k'
  cfg : s'.cfg = s.cfg
  actor : s'.actor = s.actor
  inputs : s'.inputs = s.inputs
  pmuPull : s'.pmuPull = s.pmuPull
  power : s'.power = s.power
  ctxs : s'.ctxs = s.ctxs ∨
    (∃ p, s'.ctxs = putCtx (.irq b) { s.ctx (.irq b) with plan := p } s.ctxs) ∨
    (s'.ctxs = putCtx (.irq b) { s.ctx (.irq b) with loc := {}, result := some .done } s.ctxs ∧
      ∃ k, s'.banks[b]? = some k ∧ k.pass = .idle)

theorem set_self {l : List Bank} {b : Nat} {k : Bank} (h : l[b]? = some k) : l.set b k = l := by
  obtain ⟨hb, rfl⟩ := List.getElem?_eq_some_iff.1 h
  exact List.set_getElem_self hb

theorem PassEffect.ofBank {b : Nat} {s : State} {k k' : Bank} (hk : s.banks[b]? = some k)
    (hw : PassWrite k k') : PassEffect b s (s.setBank b k') :=
  ⟨⟨k, k', hk, hw, rfl⟩, rfl, rfl, rfl, rfl, rfl, .inl rfl⟩

theorem PassEffect.ofBankEmit {b : Nat} {s : State} {k k' : Bank} (c : HostCall)
    (hk : s.banks[b]? = some k) (hw : PassWrite k k') :
    PassEffect b s ((s.setBank b k').emit c) :=
  ⟨⟨k, k', hk, hw, rfl⟩, rfl, rfl, rfl, rfl, rfl, .inl rfl⟩

/-- The effect of the step that ends the pass. -/
theorem PassEffect.ofEnd {b : Nat} {s s' : State} {k k' : Bank} (hk : s.banks[b]? = some k)
    (hw : PassWrite k k') (hp : k'.pass = .idle) (hb : s'.banks = s.banks.set b k')
    (h1 : s'.cfg = s.cfg) (h2 : s'.actor = s.actor) (h3 : s'.inputs = s.inputs)
    (h4 : s'.pmuPull = s.pmuPull) (h5 : s'.power = s.power)
    (hc : s'.ctxs =
      putCtx (.irq b) { s.ctx (.irq b) with loc := {}, result := some .done } s.ctxs) :
    PassEffect b s s' :=
  ⟨⟨k, k', hk, hw, hb⟩, h1, h2, h3, h4, h5,
    .inr (.inr ⟨hc, k', by rw [hb]; exact banks_setBank_same s b k' k hk, hp⟩)⟩

@[simp] theorem scanStart_acked (r : PassRegs) : r.scanStart.acked = false := rfl

@[simp] theorem toggle_acked (r : PassRegs) : r.toggle.acked = r.acked := by
  unfold PassRegs.toggle; split <;> rfl

theorem snapRead_ok {s s' : State} {b : Nat} {k : Bank} {r : Reg} {f : Word → Pass}
    (h : snapRead s b k r f = .ok s') :
    ∃ w, k.busRead r = .ok w ∧ s' = s.setBank b { k with pass := f w } := by
  unfold snapRead at h
  split at h
  · exact ⟨_, ‹_›, by cases h; rfl⟩
  · cases h

theorem passStep_ok {b : Nat} {s s' : State} (h : passStep b s = .ok s') : PassEffect b s s' := by
  obtain ⟨k, hk, h⟩ := onBank_ok h
  split at h
  · cases h
    exact ⟨⟨k, k, hk, .kept, (set_self hk).symm⟩, rfl, rfl, rfl, rfl, rfl, .inl rfl⟩
  · rename_i pos r hp
    split at h
    · cases h; exact .ofBankEmit _ hk (.enter r hp)
    · obtain ⟨w, -, rfl⟩ := snapRead_ok h
      exact .ofBank hk (.snap _ r _ _ hp (by simp) rfl)
    · obtain ⟨w, -, rfl⟩ := snapRead_ok h
      exact .ofBank hk (.snap _ r _ _ hp (by simp) rfl)
    · cases h
      rw [setPass_eq]
      split
      · exact .ofBank hk (.scanStart _ r _ hp (by simp) (by simp))
      · exact .ofBank hk (.snap _ r _ _ hp (by simp) rfl)
    · obtain ⟨w, -, rfl⟩ := snapRead_ok h
      exact .ofBank hk (.snap _ r _ _ hp (by simp) rfl)
    · obtain ⟨w, -, rfl⟩ := snapRead_ok h
      exact .ofBank hk (.scanStart _ r _ hp (by simp) (by simp))
    · split at h
      · cases h
        rw [setPass_eq]
        refine .ofBank hk (.move _ r _ _ hp ?_ rfl)
        split <;> simp
      · dsimp only at h
        split at h
        · rename_i ha
          cases h
          exact .ofBankEmit _ hk (.earlyExit r _ hp (by simp_all) rfl)
        · cases h
          rw [setPass_eq]
          exact .ofBank hk (.move _ r _ _ hp (by simp) rfl)
    · cases h
      unfold servicePin State.drawHandler
      split <;>
        exact ⟨⟨k, _, hk, .move _ r .service r.toggle hp (by simp) (by simp), rfl⟩, rfl, rfl, rfl,
          rfl, rfl, .inr (.inl ⟨_, rfl⟩)⟩
    · cases h
      rw [setPass_eq]
      exact .ofBank hk (.move _ r _ _ hp (by simp) rfl)
    · cases h
      exact ⟨⟨k, k, hk, .kept, (set_self hk).symm⟩, rfl, rfl, rfl, rfl, rfl,
        .inr (.inl ⟨_, rfl⟩)⟩
    · split at h <;> cases h
      · exact .ofEnd hk (.ended r hp ‹_›) rfl rfl rfl rfl rfl rfl rfl rfl
      · exact .ofEnd hk (.lateExit r hp (by simp_all)) rfl rfl rfl rfl rfl rfl rfl rfl

theorem PassWrite.row {k k' : Bank} (h : PassWrite k k') : k'.row = k.row := by
  cases h <;> rfl

/-! ### Running the steps of an operation -/

@[simp] theorem runPlan_nil (a : Agent) (s : State) : runPlan a [] s = s := rfl

theorem runPlan_cons_ok {a : Agent} {m : Micro} {rest : List Micro} {s s' : State}
    (h : microStep a m s = .ok s') :
    runPlan a (m :: rest) s = runPlan a rest (s'.setPlan a rest) := by
  simp [runPlan, h]

theorem runPlan_cons_wait {a : Agent} {m : Micro} {rest : List Micro} {s : State}
    (h : microStep a m s = .wait) : runPlan a (m :: rest) s = s := by
  simp [runPlan, h]

theorem runPlan_cons_fault {a : Agent} {m : Micro} {rest : List Micro} {s : State} {f : AgentFault}
    (h : microStep a m s = .fault f) : runPlan a (m :: rest) s = s.recordFault a f := by
  simp [runPlan, h]

theorem runOp_begins {s : State} {p : List Micro} (h : s.canBegin s.actor = true) :
    runOp p s = .next ((s.beginPlan s.actor p).drain s.actor) := by
  simp [runOp, h]

theorem runOp_idles {s : State} {p : List Micro} (h : s.canBegin s.actor = false) :
    runOp p s = .next s := by
  simp [runOp, h]

/-- An agent that may begin an operation has no step left and no fault. -/
theorem canBegin_ctx {s : State} {a : Agent} (h : s.canBegin a = true) :
    (s.ctx a).plan = [] ∧ (s.ctx a).fault = none := by
  simp only [State.canBegin, State.canStep, State.betweenOps, Bool.and_eq_true,
    decide_eq_true_eq] at h
  exact ⟨h.2.1, h.1.1⟩

/-! ### Invariants -/

/-- A property that every kind of change a step makes keeps. Prove these once for a property; then
`step_keeps` gives that every step keeps it. -/
structure Kept (P : State → Prop) : Prop where
  micro : ∀ a m s s', P s → MicroEffect a m s s' → P s'
  pass : ∀ b s s', P s → PassEffect b s s' → P s'
  ctx : ∀ a c s, P s → P (s.setCtx a c)
  enter : ∀ b s, P s → s.deliverable b = true → P (s.enterPass b)
  env : ∀ b v s, P s → P (s.setEnv b v)
  frame : ∀ s a xs vs hs, P s →
    P { s with actor := a, inputs := xs, verdicts := vs, handlers := hs }

namespace Kept

variable {P : State → Prop} (K : Kept P)
include K

theorem runPlan {a : Agent} {p : List Micro} {s : State} (h : P s) :
    P (Sys2Proof.Machine.runPlan a p s) := by
  induction p generalizing s with
  | nil => exact h
  | cons m rest ih =>
    cases hm : microStep a m s with
    | ok s' => rw [runPlan_cons_ok hm]; exact ih (K.ctx _ _ _ (K.micro _ _ _ _ h (microStep_ok hm)))
    | wait => rw [runPlan_cons_wait hm]; exact h
    | fault f => rw [runPlan_cons_fault hm]; exact K.ctx _ _ _ h

theorem drain {a : Agent} {s : State} (h : P s) : P (s.drain a) := K.runPlan h

theorem runOp {p : List Micro} {s s' : State} (h : P s)
    (hs : Sys2Proof.Machine.runOp p s = .next s') : P s' := by
  unfold Sys2Proof.Machine.runOp at hs
  split at hs <;> cases hs
  · exact K.drain (K.ctx _ _ _ h)
  · exact h

theorem movePass {b : Nat} {s : State} (h : P s) : P (s.movePass b) := by
  unfold State.movePass
  split
  · exact K.pass _ _ _ h (passStep_ok ‹_›)
  · exact h
  · exact K.ctx _ _ _ h

theorem runPass {b n : Nat} {s : State} (h : P s) : P (Sys2Proof.Machine.runPass b n s) := by
  induction n generalizing s with
  | zero => exact h
  | succ n ih =>
    unfold Sys2Proof.Machine.runPass
    split
    · exact ih (K.drain (K.movePass h))
    · exact h

theorem beginDemux {b : Nat} {s s' : State} (h : P s)
    (hs : Sys2Proof.Machine.beginDemux b s = .next s') : P s' := by
  unfold Sys2Proof.Machine.beginDemux at hs
  split at hs
  · cases hs
  · split at hs
    · exact K.runOp h hs
    · split at hs
      · cases hs
      · rename_i hd
        split at hs <;> cases hs
        · exact K.ctx _ _ _ (K.enter _ _ h (by simpa using hd))
        · exact h

theorem exec {i : Instr} {s s' : State} (h : P s) (hs : Sys2Proof.Machine.exec i s = .next s') :
    P s' := by
  cases i <;> try exact K.runOp h hs
  rename_i b
  simp only [Sys2Proof.Machine.exec, execDemux] at hs
  split at hs <;> cases hs
  exact K.runPass (K.beginDemux h ‹_›)

theorem beginInstr {i : Instr} {s s' : State} (h : P s)
    (hs : Sys2Proof.Machine.beginInstr i s = .next s') : P s' := by
  unfold Sys2Proof.Machine.beginInstr at hs
  split at hs
  · exact K.beginDemux h hs
  · split at hs <;> cases hs
    · exact K.ctx _ _ _ h
    · exact h

theorem advance {a : Agent} {s : State} (h : P s) : P (s.advance a) := by
  unfold State.advance
  split
  · split
    · split
      · exact K.ctx _ _ _ (K.micro _ _ _ _ h (microStep_ok ‹_›))
      · exact h
      · exact K.ctx _ _ _ h
    · split
      · exact h
      · split
        · exact K.movePass h
        · exact h
  · exact h

theorem runOn {a : Agent} {s : State} (h : P s) : P (s.runOn a) := by
  unfold State.runOn
  split
  · split
    · exact K.drain h
    · exact K.runPass (K.drain h)
  · exact h

theorem withActor {s : State} (a : Agent) (h : P s) : P { s with actor := a } :=
  K.frame s a s.inputs s.verdicts s.handlers h

theorem applyInput {x : Input} {s s' : State} (h : P s)
    (hs : Sys2Proof.Machine.applyInput x s = .next s') : P s' := by
  cases x <;> simp only [Sys2Proof.Machine.applyInput] at hs
  case issue a bytes =>
    split at hs
    · exact K.exec (K.withActor a h) hs
    · cases hs
  case start a bytes =>
    split at hs
    · exact K.beginInstr (K.withActor a h) hs
    · cases hs
  case advance a => cases hs; exact K.advance h
  case run a => cases hs; exact K.runOn h
  case busRead a addr size =>
    split at hs
    · exact K.runOp (K.withActor a h) hs
    · cases hs
  case busWrite a addr bytes =>
    split at hs
    · exact K.runOp (K.withActor a h) hs
    · cases hs
  case setEnv b v => cases hs; exact K.env _ _ _ h
  case verdict v => cases hs; exact K.frame s s.actor s.inputs _ s.handlers h
  case handler ops => cases hs; exact K.frame s s.actor s.inputs s.verdicts _ h

theorem step_keeps {s s' : State} (h : P s) (hs : Sys2Proof.Machine.step s = .next s') : P s' := by
  unfold Sys2Proof.Machine.step takeInput at hs
  split at hs
  · split at hs
    · cases hs; exact h
    · exact K.applyInput (K.frame s s.actor _ s.verdicts s.handlers h) hs
  · cases hs

end Kept

end Sys2Proof.Machine
end

