-- ==== Sys2Proof/Laws/Runs.lean ====
section
/-! SUPPORT. What each atomic step does to a state whose agent has a known context, and what the steps
that several operations share come to when they run to their end. -/

namespace Sys2Proof.Machine

open Sys2Proof

variable {a : Agent} {s : State} {b : Nat} {k : Bank} {c : Ctx} {rest : List Micro}

/-! ### One step of a run -/

theorem setPlan_setCtx (p : List Micro) :
    (s.setCtx a c).setPlan a p = s.setCtx a { c with plan := p } := by
  simp [State.setPlan]

theorem setPlan_setBank_setCtx (p : List Micro) (k' : Bank) :
    ((s.setCtx a c).setBank b k').setPlan a p =
      (s.setBank b k').setCtx a { c with plan := p } := by
  rw [setBank_setCtx, setPlan_setCtx]

/-- `Lock(b)` on a free lock. -/
theorem runPlan_lock (hb : s.banks[b]? = some k) (hl : k.lock = none) :
    runPlan a (.lock b :: rest) (s.setCtx a c) =
      runPlan a rest ((s.setBank b { k with lock := some a }).setCtx a { c with plan := rest }) := by
  simp [runPlan, microStep, onBank, hb, hl, setPlan_setBank_setCtx]

/-- `Unlock(b)` by the holder. -/
theorem runPlan_unlock (hb : s.banks[b]? = some k) (hl : k.lock = some a) :
    runPlan a (.unlock b :: rest) (s.setCtx a c) =
      runPlan a rest ((s.setBank b { k with lock := none }).setCtx a { c with plan := rest }) := by
  simp [runPlan, microStep, onBank, hb, hl, setPlan_setBank_setCtx]

/-- A bus read that succeeds. -/
theorem runPlan_busRead {r : Reg} {w : Word} (hb : s.banks[b]? = some k)
    (hr : k.busRead r = .ok w) :
    runPlan a (.busRead b r :: rest) (s.setCtx a c) =
      runPlan a rest (s.setCtx a { c with plan := rest, loc := { c.loc with v := w } }) := by
  simp [runPlan, microStep, onBank, hb, hr, State.setLoc, State.setPlan]

/-- A bus write of a clocked bank. -/
theorem runPlan_busWrite {r : Reg} {e : Val} (hb : s.banks[b]? = some k) (hc : k.clockOn = true) :
    runPlan a (.busWrite b r e :: rest) (s.setCtx a c) =
      runPlan a rest ((s.setBank b (edgeDetect k (k.store r (c.loc.eval e)))).setCtx a
        { c with plan := rest }) := by
  simp [runPlan, microStep, onBank, hb, busWrite_clocked _ _ hc, setPlan_setBank_setCtx]

/-- A read of the pad that succeeds. -/
theorem runPlan_readLevel {i : Nat} {w : Word} (hb : s.banks[b]? = some k)
    (hr : k.busRead .ext = .ok w) :
    runPlan a (.readLevel b i :: rest) (s.setCtx a c) =
      runPlan a rest (s.setCtx a
        { c with plan := rest, loc := { c.loc with flag := w.getLsbD i } }) := by
  simp [runPlan, microStep, onBank, hb, hr, State.setLoc, State.setPlan]

/-- A read of a software field. -/
theorem runPlan_softRead {f : SoftField} {x : LocalVar} (hb : s.banks[b]? = some k) :
    runPlan a (.softRead b f x :: rest) (s.setCtx a c) =
      runPlan a rest (s.setCtx a { c with plan := rest, loc := c.loc.put x (k.soft f) }) := by
  simp [runPlan, microStep, onBank, hb, State.setLoc, State.setPlan]

/-- A write of a software field. -/
theorem runPlan_softWrite {f : SoftField} {e : Val} (hb : s.banks[b]? = some k) :
    runPlan a (.softWrite b f e :: rest) (s.setCtx a c) =
      runPlan a rest ((s.setBank b (k.setSoft f (c.loc.eval e))).setCtx a
        { c with plan := rest }) := by
  simp [runPlan, microStep, onBank, hb, setPlan_setBank_setCtx]

/-- The return of a result. -/
theorem runPlan_ret {r : OpResult} :
    runPlan a (.ret r :: rest) (s.setCtx a c) =
      runPlan a rest (s.setCtx a { c with plan := rest, loc := {}, result := some r }) := by
  simp [runPlan, microStep, State.returned, State.setPlan]

theorem runPlan_retWord :
    runPlan a (.retWord :: rest) (s.setCtx a c) =
      runPlan a rest (s.setCtx a
        { c with plan := rest, loc := {}, result := some (.word c.loc.v) }) := by
  simp [runPlan, microStep, State.returned, State.setPlan]

theorem runPlan_retLevel :
    runPlan a (.retLevel :: rest) (s.setCtx a c) =
      runPlan a rest (s.setCtx a
        { c with plan := rest, loc := {}, result := some (.level c.loc.flag) }) := by
  simp [runPlan, microStep, State.returned, State.setPlan]

/-- A bus read of a clocked bank gives a word (R112). -/
theorem busRead_clocked (r : Reg) (hc : k.clockOn = true) : ∃ w, k.busRead r = .ok w := by
  simp [Bank.busRead, hc]

/-! ### Beginning an operation -/

/-- What `exec` runs when the acting agent may begin. -/
theorem runOp_eq {p : List Micro} (h : s.canBegin s.actor = true) :
    runOp p s = .next (runPlan s.actor p (s.setCtx s.actor
      { plan := p, loc := {}, result := none, fault := none })) := by
  rw [runOp_begins h, beginPlan_eq]
  simp [State.drain, (canBegin_ctx h).2]

/-- The steps of a pin operation on a pin that resolves. -/
theorem onPin_some {pin i : Nat} {f : Nat → Nat → List Micro}
    (h : s.resolvePin pin = some (b, i)) : s.onPin pin f = f b i := by
  simp [State.onPin, h]

/-- The steps of a pin operation on a pin that does not (R130). -/
theorem onPin_none {pin : Nat} {f : Nat → Nat → List Micro} (h : s.resolvePin pin = none) :
    s.onPin pin f = codePlan .outOfRange := by
  simp [State.onPin, h]

/-- An operation that ends at once with a code changes nothing else (R130). -/
theorem runOp_codePlan {r : ResultCode} (h : s.canBegin s.actor = true) :
    runOp (codePlan r) s = .next (s.ended (.code r)) := by
  rw [runOp_eq h, codePlan, runPlan_ret, runPlan_nil]
  rfl

/-! ### Setting bits of a register -/

/-- The word `SET_BITS` writes after it has read `w` (R114). -/
def setBitsWord (w m : Word) (enable : Bool) : Word := if enable then w ||| m else w &&& ~~~m

/-- `SET_BITS` run to its end: one write of the word read with the mask's bits set or cleared. -/
theorem runPlan_setBits {r : Reg} {m w : Word} {enable : Bool} (hb : s.banks[b]? = some k)
    (hc : k.clockOn = true) (hr : k.busRead r = .ok w) :
    runPlan a (setBitsPlan b r m enable ++ rest) (s.setCtx a c) =
      runPlan a rest ((s.setBank b (edgeDetect k (k.store r (setBitsWord w m enable)))).setCtx a
        { c with plan := rest, loc := { c.loc with v := w } }) := by
  simp only [setBitsPlan, List.cons_append, List.nil_append]
  rw [runPlan_busRead hb hr, runPlan_busWrite hb hc]
  cases enable <;> simp [Locals.eval, setBitsWord]

/-- A step that changes no lane's active sense latches nothing (R247). -/
theorem edgeDetect_same_sense {k k' : Bank} (h : k'.sense = k.sense) : edgeDetect k k' = k' := by
  have : newLatches k k' = 0 := by
    unfold newLatches
    split
    · rw [h]; ext i hi; simp only [BitVec.getElem_and, BitVec.getElem_not]
      cases k.sense[i] <;> simp
    · rfl
  simp [edgeDetect, this]

/-- A step after which every enable is 0 latches nothing (R199, R247). -/
theorem edgeDetect_disabled {k k' : Bank} (h : k'.inten = 0) : edgeDetect k k' = k' := by
  have : newLatches k k' = 0 := by
    unfold newLatches; split <;> simp [h]
  simp [edgeDetect, this]

/-- Writing a word whose lanes past the pin count were masked before the bits were set is writing the
stored word with the bits set (R32, R113). -/
theorem store_setBitsWord (k : Bank) {r : Reg} (i : Nat) (x : Bool)
    (h : r ≠ .ext ∧ r ≠ .intstatus ∧ r ≠ .eoi) :
    k.store r (setBitsWord (k.stored r &&& k.pinMask) (oneHot i) x) =
      k.store r (setBit (k.stored r) i x) := by
  have hm : ∀ d m o : Word, (d &&& m ||| o) &&& m = (d ||| o) &&& m := by
    intro d m o; ext j hj; simp; cases d[j] <;> cases m[j] <;> simp
  have hn : ∀ d m o : Word, d &&& m &&& ~~~o &&& m = d &&& ~~~o &&& m := by
    intro d m o; ext j hj; simp; cases d[j] <;> cases m[j] <;> simp
  cases r <;> cases x <;>
    simp_all [Bank.store, Bank.stored, setBitsWord, setBit]

/-- A stored register of a clocked bank reads as its stored word, masked (R112). -/
theorem busRead_stored {r : Reg} (hc : k.clockOn = true)
    (h : r ≠ .ext ∧ r ≠ .intstatus ∧ r ≠ .eoi) : k.busRead r = .ok (k.stored r &&& k.pinMask) := by
  cases r <;> simp_all [Bank.busRead, Bank.stored]

/-- `SET_BITS` of one pin's bit, run to its end, is `putBit` (R113, R114). -/
theorem runPlan_putBit {r : Reg} {i : Nat} {x : Bool} (hb : s.banks[b]? = some k)
    (hc : k.clockOn = true) (h : r ≠ .ext ∧ r ≠ .intstatus ∧ r ≠ .eoi) :
    runPlan a (setBitsPlan b r (oneHot i) x ++ rest) (s.setCtx a c) =
      runPlan a rest ((s.setBank b (k.putBit r i x)).setCtx a
        { c with plan := rest, loc := { c.loc with v := k.stored r &&& k.pinMask } }) := by
  rw [runPlan_setBits hb hc (busRead_stored hc h), store_setBitsWord k i x h, Bank.putBit]

/-- The lock plays no part in a bus write. -/
theorem putBit_lock (k : Bank) (r : Reg) (i : Nat) (x : Bool) (l : Option Agent) :
    ({ k with lock := l } : Bank).putBit r i x = { k.putBit r i x with lock := l } := by
  cases r <;> rfl

@[simp] theorem putBit_lock_same (k : Bank) (r : Reg) (i : Nat) (x : Bool) :
    (k.putBit r i x).lock = k.lock := by
  simp [Bank.putBit]

@[simp] theorem putBit_clockOn (k : Bank) (r : Reg) (i : Nat) (x : Bool) :
    (k.putBit r i x).clockOn = k.clockOn := by
  simp [Bank.putBit]

@[simp] theorem putBit_row (k : Bank) (r : Reg) (i : Nat) (x : Bool) :
    (k.putBit r i x).row = k.row := by
  simp [Bank.putBit]

/-- A lock set to what it is leaves the bank as it is. -/
theorem lock_self (k : Bank) (h : k.lock = none) : ({ k with lock := none } : Bank) = k := by
  cases k; simp_all

/-- Steps under a bank's lock: between the lock's being taken and its being given back they run on the
bank with the lock held, and their effect on the bank is `f`. -/
theorem runOp_lockedOk {p : List Micro} {f : Bank → Bank}
    (hbegin : s.canBegin s.actor = true) (hb : s.banks[b]? = some k) (hl : k.lock = none)
    (hlock : (f { k with lock := some s.actor }).lock = some s.actor)
    (hp : ∀ rest c, c.fault = none → ∃ l,
      runPlan s.actor (p ++ rest)
        ((s.setBank b { k with lock := some s.actor }).setCtx s.actor c) =
      runPlan s.actor rest ((s.setBank b (f { k with lock := some s.actor })).setCtx s.actor
        { c with plan := rest, loc := l })) :
    runOp (lockedOk b p) s =
      .next ((s.setBank b { f { k with lock := some s.actor } with lock := none }).ended
        (.code .ok)) := by
  rw [runOp_eq hbegin, lockedOk, runPlan_lock hb hl]
  obtain ⟨l, h⟩ := hp [.unlock b, .ret (.code .ok)]
    { plan := p ++ [.unlock b, .ret (.code .ok)], loc := {}, result := none, fault := none } rfl
  rw [h, runPlan_unlock (banks_setBank_same _ _ _ _ hb) hlock, runPlan_ret, runPlan_nil]
  simp [State.ended]

/-- The bit of one pin in one register, written under the lock. -/
theorem runOp_locked_putBit {r : Reg} {i : Nat} {x : Bool}
    (hbegin : s.canBegin s.actor = true) (hb : s.banks[b]? = some k) (hl : k.lock = none)
    (hc : k.clockOn = true) (h : r ≠ .ext ∧ r ≠ .intstatus ∧ r ≠ .eoi) :
    runOp (lockedOk b (setBitsPlan b r (oneHot i) x)) s =
      .next ((s.setBank b (k.putBit r i x)).ended (.code .ok)) := by
  rw [runOp_lockedOk (f := fun k => k.putBit r i x) hbegin hb hl (by simp)]
  · rw [putBit_lock, ← lock_self (k.putBit r i x) (by simp [hl])]
  · intro rest c _
    have e := runPlan_putBit (a := s.actor) (c := c) (rest := rest) (i := i) (x := x)
      (banks_setBank_same s b { k with lock := some s.actor } _ hb) (by simpa using hc) h
    rw [setBank_setBank] at e
    exact ⟨_, e⟩

end Sys2Proof.Machine
end

