-- ==== Sys2Proof/Laws/Passes.lean ====
section
/-! SUPPORT. What the dispatch of one pin, with the default host flow and an empty handler, comes to when
it runs to its end, and the lanes of single-pin masks (spec/60_exceptions.md R255, spec/43_demux.md
R196, R197). -/

namespace Sys2Proof.Machine

open Sys2Proof

/-! ### Single-pin masks -/

/-- The pin mask, lane by lane. -/
theorem pinMask_lane (k : Bank) {i : Nat} (hi : i < 32) :
    k.pinMask.getLsbD i = decide (i < k.row.pinCount) := by
  simp only [Bank.pinMask, BitVec.getLsbD_ofNat, hi, decide_true, Bool.true_and]
  exact Nat.testBit_two_pow_sub_one _ _

/-- The one-hot mask, lane by lane. -/
theorem oneHot_lane (i : Nat) {j : Nat} (hj : j < 32) : (oneHot i).getLsbD j = decide (j = i) := by
  rcases Nat.lt_trichotomy j i with h | h | h
  · simp [oneHot, hj, h, Nat.ne_of_lt h]
  · subst h; simp [oneHot, hj]
  · have : j - i ≠ 0 := by omega
    simp [oneHot, hj, Nat.not_lt.2 h.le, (Nat.ne_of_lt h).symm, this]

/-- A pin of a bank has its lane in the pin mask. -/
theorem oneHot_pinMask (k : Bank) {i : Nat} (hi : i < k.row.pinCount) :
    oneHot i &&& k.pinMask = oneHot i := by
  refine BitVec.eq_of_getLsbD_eq fun j hj => ?_
  rw [BitVec.getLsbD_and, oneHot_lane i hj, pinMask_lane k hj]
  by_cases h : j = i <;> simp [h, hi]

/-- `setBit`, lane by lane. -/
theorem setBit_lane (v : Word) (i : Nat) (x : Bool) {j : Nat} (hj : j < 32) :
    (setBit v i x).getLsbD j = if j = i then x else v.getLsbD j := by
  cases x
  · simp only [setBit, Bool.false_eq_true, if_false, BitVec.getLsbD_and, BitVec.getLsbD_not, hj,
      decide_true, Bool.true_and]
    rw [oneHot_lane i hj]
    by_cases h : j = i <;> simp [h]
  · simp only [setBit, if_true, BitVec.getLsbD_or]
    rw [oneHot_lane i hj]
    by_cases h : j = i <;> simp [h]

/-! ### Writes that change no active sense -/

/-- `IRQ_ACK`'s write: the pin's latch is cleared and nothing else changes (R172, R250). -/
theorem ack_bank (k : Bank) {i : Nat} (hi : i < k.row.pinCount) :
    edgeDetect k (k.store .eoi (oneHot i)) = { k with latch := setBit k.latch i false } := by
  rw [edgeDetect_same_sense (by rfl)]
  simp [Bank.store, oneHot_pinMask k hi, setBit]

/-- A write of `INTEN` changes that register and nothing else (R170, R171, R247). -/
theorem inten_bank (k : Bank) (v : Word) :
    edgeDetect k (k.store .inten v) = { k with inten := v &&& k.pinMask } := by
  rw [edgeDetect_same_sense (by rfl)]
  rfl

/-- Masking a pin and unmasking it again restores the enables (R255). -/
theorem mask_unmask {w m : Word} {i : Nat} (hw : w &&& m = w) (hi : w.getLsbD i = true) :
    setBit (setBit w i false &&& m) i true &&& m = w := by
  refine BitVec.eq_of_getLsbD_eq fun j hj => ?_
  have hj' : (w.getLsbD j && m.getLsbD j) = w.getLsbD j := by rw [← BitVec.getLsbD_and, hw]
  rw [BitVec.getLsbD_and, setBit_lane _ _ _ hj, BitVec.getLsbD_and, setBit_lane _ _ _ hj]
  by_cases h : j = i
  · subst h; simp [hi] at hj' ⊢; exact hj'
  · simp only [h, if_false]; cases hm : m.getLsbD j <;> simp_all

/-! ### The parts of the default host flow -/

variable {a : Agent} {s : State} {b i : Nat} {k : Bank} {c : Ctx} {rest : List Micro}

/-- A run of `IRQ_ACK`. -/
theorem runPlan_ack {pin : Nat} (hr : s.resolvePin pin = some (b, i)) (hb : s.banks[b]? = some k)
    (hc : k.clockOn = true) (t : State) (ht : t.resolvePin pin = s.resolvePin pin) :
    runPlan a (planIrqAck pin t ++ rest) (s.setCtx a c) =
      runPlan a rest ((s.setBank b { k with latch := setBit k.latch i false }).setCtx a
        { c with plan := rest, loc := {}, result := some (.code .ok) }) := by
  obtain ⟨k', hk', -, hi⟩ := resolvePin_some hr
  obtain rfl : k = k' := by simpa [hb] using hk'
  simp only [planIrqAck, onPin_some (ht.trans hr), List.cons_append, List.nil_append]
  rw [runPlan_busWrite hb hc, runPlan_ret]
  simp [Locals.eval, ack_bank k hi]

/-- A run of steps on one pin's enable under the lock. -/
theorem runPlan_locked_inten {x : Bool} (hb : s.banks[b]? = some k) (hl : k.lock = none)
    (hc : k.clockOn = true) :
    runPlan a (lockedOk b (setBitsPlan b .inten (oneHot i) x) ++ rest) (s.setCtx a c) =
      runPlan a rest ((s.setBank b { k with inten := setBit k.inten i x &&& k.pinMask }).setCtx a
        { c with plan := rest, loc := {}, result := some (.code .ok) }) := by
  have e := fun r => banks_setBank_same s b r _ hb
  simp only [lockedOk, List.cons_append, List.append_assoc, List.nil_append]
  rw [runPlan_lock hb hl, runPlan_putBit (e _) (by simpa using hc) (by simp), setBank_setBank,
    runPlan_unlock (e _) (by simp), setBank_setBank, runPlan_ret, putBit_lock]
  congr 3
  simp only [Bank.putBit, Bank.stored, inten_bank]
  rw [← lock_self { k with inten := setBit k.inten i x &&& k.pinMask } hl]

/-- A run of `IRQ_ENABLE` (`x` true) or `IRQ_DISABLE` (`x` false). -/
theorem runPlan_enable {pin : Nat} (hr : s.resolvePin pin = some (b, i))
    (hb : s.banks[b]? = some k) (hl : k.lock = none) (hc : k.clockOn = true) (t : State)
    (ht : t.resolvePin pin = s.resolvePin pin) (x : Bool) :
    runPlan a ((if x then planIrqEnable pin t else planIrqDisable pin t) ++ rest) (s.setCtx a c) =
      runPlan a rest ((s.setBank b { k with inten := setBit k.inten i x &&& k.pinMask }).setCtx a
        { c with plan := rest, loc := {}, result := some (.code .ok) }) := by
  have h : (if x then planIrqEnable pin t else planIrqDisable pin t) =
      lockedOk b (setBitsPlan b .inten (oneHot i) x) := by
    cases x <;> simp [planIrqEnable, planIrqDisable, onPin_some (ht.trans hr)]
  rw [h, runPlan_locked_inten hb hl hc]

/-- The mark that ends step 4c. -/
theorem runPlan_serviced {r : PassRegs} (hb : s.banks[b]? = some k)
    (hp : k.pass = .active .service r) :
    runPlan a (.serviced b :: rest) (s.setCtx a c) =
      runPlan a rest ((s.setBank b { k with pass := .active .clear r }).setCtx a
        { c with plan := rest }) := by
  simp [runPlan, microStep, onBank, hb, hp, setPlan_setBank_setCtx]

/-! ### Resolution does not change -/

theorem resolveFrom_set {n p : Nat} {l : List Bank} {j : Nat} {x y : Bank} (hx : l[j]? = some x)
    (hy : y.row = x.row) : resolveFrom n p (l.set j y) = resolveFrom n p l := by
  induction l generalizing n j with
  | nil => rfl
  | cons z rest ih =>
    cases j with
    | zero =>
      obtain rfl : z = x := by simpa using hx
      simp [resolveFrom, hy]
    | succ j => simp [resolveFrom, ih (by simpa using hx)]

/-- Writing a bank that keeps its row leaves pin resolution as it was (R90). -/
theorem resolvePin_setBank {p : Nat} {k' : Bank} (hb : s.banks[b]? = some k)
    (hk : k'.row = k.row) : (s.setBank b k').resolvePin p = s.resolvePin p :=
  resolveFrom_set hb hk

@[simp] theorem resolvePin_setCtx (p : Nat) : (s.setCtx a c).resolvePin p = s.resolvePin p := rfl
@[simp] theorem resolvePin_emit (p : Nat) (h : HostCall) :
    (s.emit h).resolvePin p = s.resolvePin p := rfl

/-! ### One dispatch -/

@[simp] theorem toggle_cur (r : PassRegs) : r.toggle.cur = r.cur := by
  unfold PassRegs.toggle; split <;> rfl

/-- Steps 4b and 4c of a pass on one pin, with the default host flow and an empty handler, run to their
end: the pin is dispatched, its latch is clear, and nothing else of its bank has changed but the pass
(R196, R197, R255). A pin that is dispatched as level-type is enabled, as a pending pin is. -/
theorem drain_servicePin {r : PassRegs} {hs : List (List Instr)} (hb : s.banks[b]? = some k)
    (hl : k.lock = none) (hc : k.clockOn = true) (hflow : s.cfg.hostFlow = HostFlow.default)
    (hh : s.handlers = [] :: hs)
    (hr : s.resolvePin (k.row.basePin + r.cur) = some (b, r.cur))
    (hin : k.inten &&& k.pinMask = k.inten) (hen : k.inten.getLsbD r.cur = true)
    (hctx : (s.ctx (.irq b)).fault = none) :
    (servicePin s b k r).drain (.irq b) =
      (({ s with handlers := hs }.setBank b
        { k with latch := setBit k.latch r.cur false, pass := .active .clear r.toggle }).emit
          (.dispatch (k.row.baseIrq + r.cur))).setCtx (.irq b)
        { plan := [], loc := {}, result := some (.code .ok), fault := none } := by
  obtain ⟨u, hu⟩ : ∃ u : State, u = ({ s with handlers := hs }.setBank b
      { k with pass := .active .service r.toggle }).emit (.dispatch (k.row.baseIrq + r.cur)) :=
    ⟨_, rfl⟩
  have hub : ∀ k', (u.setBank b k').banks[b]? = some k' := fun k' => by
    subst hu; exact banks_setBank_same _ b k' _ (banks_setBank_same _ b _ _ hb)
  have hu0 : u.banks[b]? = some { k with pass := .active .service r.toggle } := by
    subst hu; exact banks_setBank_same _ b _ _ hb
  have hur : u.resolvePin (k.row.basePin + r.cur) = s.resolvePin (k.row.basePin + r.cur) := by
    subst hu; exact resolvePin_setBank (s := { s with handlers := hs }) hb rfl
  have hrow : ∀ k' : Bank, k'.row = k.row → (u.setBank b k').resolvePin (k.row.basePin + r.cur) =
      s.resolvePin (k.row.basePin + r.cur) := fun k' hk =>
    (resolvePin_setBank hu0 (by simpa using hk)).trans hur
  have hs' : (servicePin s b k r).drain (.irq b) = runPlan (.irq b)
      (flowPlan s (k.row.basePin + r.cur) (k.triggerType r.cur) [] ++ [.serviced b])
      (u.setCtx (.irq b) { s.ctx (.irq b) with
        plan := flowPlan s (k.row.basePin + r.cur) (k.triggerType r.cur) [] ++ [.serviced b] }) := by
    subst hu
    simp [servicePin, State.drawHandler, hh, State.drain, State.setPlan, State.setPass]
    rfl
  rw [hs']
  have fin : ∀ (k' : Bank) (c : Ctx), k'.pass = .active .service r.toggle → c.fault = none →
      c.loc = {} → c.result = some (.code .ok) →
      runPlan (.irq b) [.serviced b] ((u.setBank b k').setCtx (.irq b) c) =
        (({ s with handlers := hs }.setBank b { k' with pass := .active .clear r.toggle }).emit
          (.dispatch (k.row.baseIrq + r.cur))).setCtx (.irq b)
        { plan := [], loc := {}, result := some (.code .ok), fault := none } := by
    intro k' c hp hf hl' hr'
    rw [runPlan_serviced (hub _) hp, runPlan_nil, setBank_setBank]
    subst hu
    rw [← emit_setBank, setBank_setBank]
    simp [hf, hl', hr', emit_setBank]
  cases he : isEdgeTrigger (k.triggerType r.cur) with
  | true =>
    have : flowPlan s (k.row.basePin + r.cur) (k.triggerType r.cur) [] =
        planIrqAck (k.row.basePin + r.cur) s := by
      simp [flowPlan, he, hflow, HostFlow.default, flowStepPlan, handlerPlan]
    rw [this, runPlan_ack (hur.trans hr) hu0 hc s hur.symm]
    exact fin _ _ rfl hctx rfl rfl
  | false =>
    have : flowPlan s (k.row.basePin + r.cur) (k.triggerType r.cur) [] =
        planIrqDisable (k.row.basePin + r.cur) s ++ (planIrqAck (k.row.basePin + r.cur) s ++
          planIrqEnable (k.row.basePin + r.cur) s) := by
      simp [flowPlan, he, hflow, HostFlow.default, flowStepPlan, handlerPlan, handlerDisables]
    rw [this]
    simp only [List.append_assoc]
    have e1 := fun rest c => runPlan_enable (a := .irq b) (rest := rest) (c := c)
      (hur.trans hr) hu0 hl hc s hur.symm false
    simp only [Bool.false_eq_true, if_false] at e1
    have ea := fun (k' : Bank) (hk : k'.row = k.row) (hc' : k'.clockOn = true) rest c =>
      runPlan_ack (a := .irq b) (rest := rest) (c := c)
        ((hrow k' hk).trans hr) (hub k') hc' s (hrow k' hk).symm
    rw [e1, ea _ (by rfl) (by exact hc), setBank_setBank]
    have e2 := fun (k' : Bank) (hk : k'.row = k.row) (hl' : k'.lock = none)
      (hc' : k'.clockOn = true) rest c => runPlan_enable (a := .irq b) (rest := rest) (c := c)
      ((hrow k' hk).trans hr) (hub k') hl' hc' s (hrow k' hk).symm true
    simp only [if_true] at e2
    rw [e2 _ (by rfl) (by exact hl) (by exact hc), setBank_setBank]
    refine Eq.trans (fin _ _ (by rfl) (by exact hctx) (by rfl) (by rfl)) ?_
    show (({ s with handlers := hs }.setBank b { k with
      inten := setBit (setBit k.inten r.cur false &&& k.pinMask) r.cur true &&& k.pinMask,
      latch := setBit k.latch r.cur false, pass := .active .clear r.toggle }).emit _).setCtx _ _ = _
    rw [mask_unmask hin hen]

end Sys2Proof.Machine
end

