-- ==== Sys2Proof/Laws/PerInstr.lean ====
section
/-! SUPPORT. A law of every instruction: its descriptor holds its operation code in `OP` and 0 in `Z`
(spec/30_encoding.md R95, R98). -/

namespace Sys2Proof.Laws.OpField

open Sys2Proof

/-- The operation codes (R98). -/
def code : Instr → Nat
  | .regRead _ _ => 0x01
  | .regWrite _ _ _ => 0x02
  | .setBits _ _ _ _ => 0x03
  | .wmWrite _ _ _ _ => 0x04
  | .wmRead _ _ _ => 0x05
  | .setDirection _ _ => 0x10
  | .setLevel _ _ => 0x11
  | .getLevel _ => 0x12
  | .setPull _ _ => 0x13
  | .setTriggerType _ _ => 0x14
  | .request _ => 0x15
  | .toIrq _ => 0x16
  | .irqEnable _ => 0x20
  | .irqDisable _ => 0x21
  | .irqAck _ => 0x22
  | .setWake _ _ => 0x23
  | .demux _ => 0x30
  | .suspend => 0x40
  | .resume => 0x41

/-- The descriptor of a well-formed instruction holds its operation code, and 0 in `Z`. -/
def Statement (i : Instr) : Prop :=
  i.wf = true → field (encodeWord i) 24 8 = code i ∧ field (encodeWord i) 16 4 = 0

/-- The fields `OP` and `Z` of a descriptor whose fields fit (R95). -/
theorem descriptor_fields {op a p : Nat} (ho : op < 2 ^ 8) (ha : a < 2 ^ 4) (hp : p < 2 ^ 16) :
    field (descriptor op a p) 24 8 = op ∧ field (descriptor op a p) 16 4 = 0 := by
  simp only [field, descriptor, BitVec.toNat_ofNat]
  constructor <;> omega

theorem bankField_lt {b r : Nat} (hb : b < 2 ^ 8) (hr : r < 2 ^ 8) : bankField b r < 2 ^ 16 := by
  unfold bankField; omega

theorem flagCode_lt (f : Bool) : flagCode f < 2 ^ 4 := by cases f <;> decide

theorem regionCode_lt (g : PullRegion) : g.code < 2 ^ 4 := by cases g <;> decide

theorem regRead (b : Nat) (r : Nat) : Statement (.regRead b r) :=
  fun h => by
    have h' : b < 2 ^ 8 ∧ r < 2 ^ 8 := by simpa [Instr.wf, byteFits] using h
    exact descriptor_fields (by decide) (by decide) (bankField_lt h'.1 h'.2)

theorem regWrite (b : Nat) (r : Nat) (v : Word) : Statement (.regWrite b r v) :=
  fun h => by
    have h' : b < 2 ^ 8 ∧ r < 2 ^ 8 := by simpa [Instr.wf, byteFits] using h
    exact descriptor_fields (by decide) (by decide) (bankField_lt h'.1 h'.2)

theorem setBits (b : Nat) (r : Nat) (e : Bool) (m : Word) : Statement (.setBits b r e m) :=
  fun h => by
    have h' : b < 2 ^ 8 ∧ r < 2 ^ 8 := by simpa [Instr.wf, byteFits] using h
    exact descriptor_fields (by decide) (flagCode_lt e) (bankField_lt h'.1 h'.2)

theorem wmWrite (g : PullRegion) (b : Nat) (n : Nat) (w : Word) : Statement (.wmWrite g b n w) :=
  fun h => by
    have h' : b < 2 ^ 8 ∧ n < 2 ^ 8 := by simpa [Instr.wf, byteFits] using h
    exact descriptor_fields (by decide) (regionCode_lt g) (bankField_lt h'.1 h'.2)

theorem wmRead (g : PullRegion) (b : Nat) (n : Nat) : Statement (.wmRead g b n) :=
  fun h => by
    have h' : b < 2 ^ 8 ∧ n < 2 ^ 8 := by simpa [Instr.wf, byteFits] using h
    exact descriptor_fields (by decide) (regionCode_lt g) (bankField_lt h'.1 h'.2)

theorem setDirection (p : Nat) (o : Bool) : Statement (.setDirection p o) :=
  fun h => descriptor_fields (by decide) (flagCode_lt o)
    (by simpa [Instr.wf, pinFits] using h)

theorem setLevel (p : Nat) (l : Bool) : Statement (.setLevel p l) :=
  fun h => descriptor_fields (by decide) (flagCode_lt l)
    (by simpa [Instr.wf, pinFits] using h)

theorem getLevel (p : Nat) : Statement (.getLevel p) :=
  fun h => descriptor_fields (by decide) (by decide)
    (by simpa [Instr.wf, pinFits] using h)

theorem setPull (p : Nat) (c : Nat) : Statement (.setPull p c) :=
  fun h => by
    have h' : p < 2 ^ 16 ∧ c < 2 ^ 4 := by simpa [Instr.wf, pinFits, codeFits] using h
    exact descriptor_fields (by decide) h'.2 h'.1

theorem setTriggerType (p : Nat) (c : Nat) : Statement (.setTriggerType p c) :=
  fun h => by
    have h' : p < 2 ^ 16 ∧ c < 2 ^ 4 := by simpa [Instr.wf, pinFits, codeFits] using h
    exact descriptor_fields (by decide) h'.2 h'.1

theorem request (p : Nat) : Statement (.request p) :=
  fun h => descriptor_fields (by decide) (by decide)
    (by simpa [Instr.wf, pinFits] using h)

theorem toIrq (p : Nat) : Statement (.toIrq p) :=
  fun h => descriptor_fields (by decide) (by decide)
    (by simpa [Instr.wf, pinFits] using h)

theorem irqEnable (p : Nat) : Statement (.irqEnable p) :=
  fun h => descriptor_fields (by decide) (by decide)
    (by simpa [Instr.wf, pinFits] using h)

theorem irqDisable (p : Nat) : Statement (.irqDisable p) :=
  fun h => descriptor_fields (by decide) (by decide)
    (by simpa [Instr.wf, pinFits] using h)

theorem irqAck (p : Nat) : Statement (.irqAck p) :=
  fun h => descriptor_fields (by decide) (by decide)
    (by simpa [Instr.wf, pinFits] using h)

theorem setWake (p : Nat) (o : Bool) : Statement (.setWake p o) :=
  fun h => descriptor_fields (by decide) (flagCode_lt o)
    (by simpa [Instr.wf, pinFits] using h)

theorem demux (b : Nat) : Statement (.demux b) :=
  fun h => descriptor_fields (by decide) (by decide)
    (bankField_lt (by simpa [Instr.wf, byteFits] using h) (by decide))

theorem suspend : Statement .suspend :=
  fun _ => descriptor_fields (by decide) (by decide) (by decide)

theorem resume : Statement .resume :=
  fun _ => descriptor_fields (by decide) (by decide) (by decide)

end Sys2Proof.Laws.OpField
end

