-- ==== Sys2Proof/Machine/Asm.lean ====
section
/-! DEFINITION. The assembler: pseudo-operations and their expansions, and the reading of one line
(spec/30_encoding.md R102, R103). It is the spec's own notation; no step of the machine uses it. -/

namespace Sys2Proof.Machine

open Sys2Proof

/-- The pseudo-operations of R103; `r` is a register id. -/
inductive Pseudo where
  | setBit (b r i : Nat)
  | clearBit (b r i : Nat)
  | mask (pin : Nat)
  | unmask (pin : Nat)
  | ack (pin : Nat)
  | directionInput (pin : Nat)
  | directionOutput (pin : Nat) (v : Bool)
  | enableWake (pin : Nat)
  | disableWake (pin : Nat)
  deriving DecidableEq, Repr

/-- The mask `1<<i` as a 32-bit data operand (R103). The spec gives no range for `i`; for `i` of 32 or
more there is no such mask, and that it is none is a DESIGN CHOICE (log 23). -/
def bitMask (i : Nat) : Option Word := if i < 32 then some (oneHot i) else none

/-- The operations a pseudo-operation stands for, in order (R103); none for a bit with no mask. -/
def expandPseudo : Pseudo → Option (List Instr)
  | .setBit b r i => (bitMask i).map fun m => [.setBits b r true m]
  | .clearBit b r i => (bitMask i).map fun m => [.setBits b r false m]
  | .mask p => some [.irqDisable p]
  | .unmask p => some [.irqEnable p]
  | .ack p => some [.irqAck p]
  | .directionInput p => some [.setDirection p false]
  | .directionOutput p v => some [.setLevel p v, .setDirection p true]
  | .enableWake p => some [.setWake p true]
  | .disableWake p => some [.setWake p false]

/-! ### Reading a line -/

/-- The value of a digit in a base up to 16. -/
def digitOf (base : Nat) (c : Char) : Option Nat :=
  let n := c.toNat
  let d :=
    if 48 ≤ n ∧ n ≤ 57 then n - 48
    else if 97 ≤ n ∧ n ≤ 102 then n - 87
    else if 65 ≤ n ∧ n ≤ 70 then n - 55
    else base
  if d < base then some d else none

/-- The number that digits spell after `acc`. -/
def digitsFrom (base acc : Nat) : List Char → Option Nat
  | [] => some acc
  | c :: rest =>
    match digitOf base c with
    | some d => digitsFrom base (acc * base + d) rest
    | none => none

/-- A number in decimal, or in hexadecimal after `0x` (R102). -/
def numberOf : List Char → Option Nat
  | [] => none
  | '0' :: 'x' :: d :: rest => digitsFrom 16 0 (d :: rest)
  | d :: rest => digitsFrom 10 0 (d :: rest)

/-- The parts of a list of characters between separators. -/
def splitChars (sep : Char) : List Char → List (List Char)
  | [] => [[]]
  | c :: rest =>
    match splitChars sep rest with
    | [] => [[c]]
    | part :: parts => if c = sep then [] :: part :: parts else (c :: part) :: parts

/-- A list of characters without blanks at its front. -/
def dropBlanks : List Char → List Char
  | [] => []
  | c :: rest => if c = ' ' ∨ c = '\t' then dropBlanks rest else c :: rest

/-- A list of characters without blanks at its ends. -/
def trimBlanks (cs : List Char) : List Char := (dropBlanks (dropBlanks cs).reverse).reverse

/-- The mnemonic and the operands of a line, its comment left out; no operands if it has none. -/
def lineParts (line : List Char) : List Char × List (List Char) :=
  let cs := trimBlanks (line.takeWhile (· ≠ ';'))
  let name := cs.takeWhile fun c => c ≠ ' ' ∧ c ≠ '\t'
  let rest := trimBlanks (cs.drop name.length)
  (name, if rest = [] then [] else (splitChars ',' rest).map trimBlanks)

/-- The entry of a table of names. -/
def named (table : List (String × Nat)) (cs : List Char) : Option Nat :=
  (table.find? fun x => x.1.toList == cs).map (·.2)

/-- The register names (R96, R102). -/
def regNames : List (String × Nat) :=
  [("DIR", 0), ("DR", 1), ("EXT", 2), ("INTEN", 3), ("INTTYPE", 4), ("INTPOL", 5),
   ("INTSTATUS", 6), ("EOI", 7), ("PULL1", 8)]

/-- The pull mode names (R93, R102). -/
def pullNames : List (String × Nat) := [("disabled", 0), ("up", 1), ("down", 2), ("default", 3)]

/-- The trigger type names (R92, R102). -/
def triggerNames : List (String × Nat) :=
  [("level_low", 0), ("level_high", 1), ("edge_rising", 2), ("edge_falling", 3), ("edge_both", 4)]

/-- A code by name, or by number as the test vectors write unsupported codes. -/
def codeOf (table : List (String × Nat)) (cs : List Char) : Option Nat :=
  (named table cs).orElse fun _ => numberOf cs

/-- A 1-bit operand. -/
def bitOf (cs : List Char) : Option Bool :=
  match numberOf cs with
  | some 0 => some false
  | some 1 => some true
  | _ => none

/-- A direction. -/
def directionOf (cs : List Char) : Option Bool :=
  (named [("in", 0), ("out", 1)] cs).map (· == 1)

/-- A pull region. -/
def regionOf (cs : List Char) : Option PullRegion :=
  match named [("pmu", 0), ("grf", 1), ("wm", 2)] cs with
  | some 0 => some .pmu
  | some 1 => some .grf
  | some 2 => some .wm
  | _ => none

/-- A 32-bit operand; a larger number is none. -/
def wordOf (cs : List Char) : Option Word :=
  (numberOf cs).bind fun n => if n < 2 ^ 32 then some (BitVec.ofNat 32 n) else none

/-- One operation named with its operands (R102); a pseudo-operation expands (R103). -/
def assemble (name : String) (args : List (List Char)) : Option (List Instr) :=
  match args with
  | [] =>
    if name = "suspend" then some [.suspend] else if name = "resume" then some [.resume] else none
  | [x] => do
    let p ← numberOf x
    if name = "get_level" then some [.getLevel p]
    else if name = "request" then some [.request p]
    else if name = "to_irq" then some [.toIrq p]
    else if name = "irq_enable" then some [.irqEnable p]
    else if name = "irq_disable" then some [.irqDisable p]
    else if name = "irq_ack" then some [.irqAck p]
    else if name = "demux" then some [.demux p]
    else if name = "mask" then expandPseudo (.mask p)
    else if name = "unmask" then expandPseudo (.unmask p)
    else if name = "ack" then expandPseudo (.ack p)
    else if name = "direction_input" then expandPseudo (.directionInput p)
    else if name = "enable_wake" then expandPseudo (.enableWake p)
    else if name = "disable_wake" then expandPseudo (.disableWake p)
    else none
  | [x, y] => do
    let p ← numberOf x
    if name = "read" then return [.regRead p (← named regNames y)]
    else if name = "set_direction" then return [.setDirection p (← directionOf y)]
    else if name = "set_level" then return [.setLevel p (← bitOf y)]
    else if name = "set_pull" then return [.setPull p (← codeOf pullNames y)]
    else if name = "set_trigger_type" then return [.setTriggerType p (← codeOf triggerNames y)]
    else if name = "set_wake" then return [.setWake p (← bitOf y)]
    else if name = "direction_output" then expandPseudo (.directionOutput p (← bitOf y))
    else none
  | [x, y, z] => do
    if name = "write" then
      return [.regWrite (← numberOf x) (← named regNames y) (← wordOf z)]
    else if name = "wm_read" then
      return [.wmRead (← regionOf x) (← numberOf y) (← numberOf z)]
    else if name = "set_bit" then
      expandPseudo (.setBit (← numberOf x) (← named regNames y) (← numberOf z))
    else if name = "clear_bit" then
      expandPseudo (.clearBit (← numberOf x) (← named regNames y) (← numberOf z))
    else none
  | [x, y, z, w] => do
    if name = "set_bits" then
      return [.setBits (← numberOf x) (← named regNames y) (← bitOf w) (← wordOf z)]
    else if name = "wm_write" then
      return [.wmWrite (← regionOf x) (← numberOf y) (← numberOf z) (← wordOf w)]
    else none
  | _ => none

/-- The operations of one line; an empty line or a comment has none (R102). A line that is no
operation of R102 or R103, or whose operands do not fit the descriptor, is none. -/
def assembleLine (line : String) : Option (List Instr) :=
  let parts := lineParts line.toList
  if parts.1 = [] then some []
  else (assemble (String.ofList parts.1) parts.2).filter fun is => is.all (·.wf)

end Sys2Proof.Machine
end

