-- ==== Sys2Proof/Tests/Slice0.lean ====
section
/-! SUPPORT. The model's own tests. Expected values are those of spec/95_test_vectors.md, named beside
each test, or worked by hand from the rule named. At the end, one witness for each obligation that has
hypotheses: a concrete state and operands that meet them. -/

namespace Sys2Proof.Tests

open Sys2Proof Sys2Proof.Machine

/-! ### Helpers -/

/-- Bank 0, 1 or 2 right after reset. -/
def row (b : Nat) : BankRow := BankRow.tcRows.getD b default
def bank (b : Nat) : Bank := Bank.initial {} (row b)

/-- The reset state with bank `b` replaced. -/
def withBank (b : Nat) (k : Bank) : State := State.reset.setBank b k

/-- The reset state with another variant. -/
def ofVariant (v : Variant) : State := { State.reset with cfg := { Config.tc with variant := v } }

/-- The state an outcome gives. -/
def nextOf : Out → Option State
  | .next s => some s
  | _ => none

/-- What a field of bank `b` is after an instruction. -/
def after {α : Type} (i : Instr) (s : State) (b : Nat) (f : Bank → α) : Option α :=
  ((nextOf (exec i s)).bind (·.banks[b]?)).map f

/-- What an instruction returns to the acting agent. -/
def result (i : Instr) (s : State) : Option OpResult :=
  (nextOf (exec i s)).bind fun t => (t.ctx s.actor).result

/-- The fault an instruction takes. -/
def faultOf (i : Instr) (s : State) : Option AgentFault :=
  (nextOf (exec i s)).bind fun t => (t.ctx s.actor).fault

/-- The calls an instruction makes to collaborators. -/
def callsOf (i : Instr) (s : State) : Option (List HostCall) :=
  (nextOf (exec i s)).map fun t => t.trace.drop s.trace.length

/-- Whether an outcome is this refusal. -/
def refusedAs (o : Out) (r : Refusal) : Bool :=
  match o with
  | .refused r' => decide (r' = r)
  | _ => false

/-! ### Well-formedness: an ill-formed term for each check (R95) -/

theorem test_wf_pin : (Instr.setLevel 65536 true).wf = false := by decide
theorem test_wf_pin_last : (Instr.getLevel 65535).wf = true := by decide
theorem test_wf_bank : (Instr.regRead 256 0).wf = false := by decide
theorem test_wf_register : (Instr.regWrite 0 256 0).wf = false := by decide
theorem test_wf_group : (Instr.wmRead .pmu 0 256).wf = false := by decide
theorem test_wf_code : (Instr.setPull 0 16).wf = false := by decide
theorem test_wf_demux : (Instr.demux 256).wf = false := by decide

/-! ### Decoding: one word for every constructor, its fields written out (R95, R98, R99; L2.1) -/

theorem test_decode_regRead : decodeWord 0x01000006 0 = .ok (.regRead 0 6) := by decide
theorem test_decode_regWrite : decodeWord 0x02000007 0x201 = .ok (.regWrite 0 7 0x201) := by decide
theorem test_decode_setBits : decodeWord 0x03100000 0xF = .ok (.setBits 0 0 true 0xF) := by decide
theorem test_decode_wmWrite : decodeWord 0x04100101 0xC0008000 = .ok (.wmWrite .grf 1 1 0xC0008000) := by decide
theorem test_decode_wmRead : decodeWord 0x05200203 0 = .ok (.wmRead .wm 2 3) := by decide
theorem test_decode_setDirection : decodeWord 0x10100005 0 = .ok (.setDirection 5 true) := by decide
theorem test_decode_setLevel : decodeWord 0x1100FFFF 0 = .ok (.setLevel 65535 false) := by decide
theorem test_decode_getLevel : decodeWord 0x12000025 0 = .ok (.getLevel 37) := by decide
theorem test_decode_setPull : decodeWord 0x13200028 0 = .ok (.setPull 40 2) := by decide
theorem test_decode_setTriggerType : decodeWord 0x14400009 0 = .ok (.setTriggerType 9 4) := by decide
theorem test_decode_request : decodeWord 0x15000028 0 = .ok (.request 40) := by decide
theorem test_decode_toIrq : decodeWord 0x16000046 0 = .ok (.toIrq 70) := by decide
theorem test_decode_irqEnable : decodeWord 0x20000009 0 = .ok (.irqEnable 9) := by decide
theorem test_decode_irqDisable : decodeWord 0x21000009 0 = .ok (.irqDisable 9) := by decide
theorem test_decode_irqAck : decodeWord 0x22000009 0 = .ok (.irqAck 9) := by decide
theorem test_decode_setWake : decodeWord 0x2310003F 0 = .ok (.setWake 63 true) := by decide
theorem test_decode_demux : decodeWord 0x30000100 0 = .ok (.demux 1) := by decide
theorem test_decode_suspend : decodeWord 0x40000000 0 = .ok (.suspend) := by decide
theorem test_decode_resume : decodeWord 0x41000000 0 = .ok (.resume) := by decide

theorem test_decode_unknown_op : decodeWord 0x7F000000 0 = .error .unknownOp := by decide
theorem test_decode_zero : decodeWord 0x00000000 0 = .error .unknownOp := by decide
theorem test_decode_z : decodeWord 0x12010005 0 = .error .nonzeroZ := by decide
theorem test_decode_flag_two : decodeWord 0x10200005 0 = .error .flagTooLarge := by decide
theorem test_decode_read_a : decodeWord 0x01100006 0 = .error .nonzeroField := by decide
theorem test_decode_region_three : decodeWord 0x04300000 0 = .error .reservedRegion := by decide
theorem test_decode_demux_low : decodeWord 0x30000001 0 = .error .nonzeroField := by decide
theorem test_decode_suspend_p : decodeWord 0x40000001 0 = .error .nonzeroField := by decide

/-- The data operand is the second word: bits 63 to 32 of the table's numbering. -/
theorem test_decode_table_word :
    decodeTableWord 64 (0x02000007 + 0x201 * 2 ^ 32) = some (.regWrite 0 7 0x201) := by decide
theorem test_decode_table_short : decodeTableWord 32 0x03100000 = some (.setBits 0 0 true 0) := by
  decide

/-- The lowest address holds the least significant byte on a little-endian bus (R66, D11), and the most
significant one on a big-endian bus. -/
theorem test_decode_bytes_little :
    decodeBytes .little [0x05, 0x00, 0x10, 0x11] = .ok (.setLevel 5 true, []) := by decide
theorem test_decode_bytes_big :
    decodeBytes .big [0x11, 0x10, 0x00, 0x05] = .ok (.setLevel 5 true, []) := by decide
theorem test_decode_narrow : decodeBytes .little [0x05, 0x00, 0x10] = .error .narrow := by decide

/-! ### The assembler (R102, R103) -/

theorem test_asm_expansion :
    expandPseudo (.directionOutput 5 true) = some [.setLevel 5 true, .setDirection 5 true] := by decide
/-- Bit 31 has a 32-bit mask (R103), and bit 32 has none (log 23). -/
theorem test_asm_bit_range :
    assembleLine "set_bit 0, DIR, 31" = some [.setBits 0 0 true 0x80000000] ∧
    assembleLine "clear_bit 0, DIR, 32" = none := by decide
theorem test_asm_line :
    assembleLine "set_bits 0, DIR, 0x30, 0 ; clear" = some [.setBits 0 0 false 0x30] := by decide

/-! ### The step -/

/-- A program's instruction is the first thing that happens after reset (log 3). -/
theorem test_step_runs_fetched_word :
    ((nextOf (step (State.reset.withFetchWord 32 0x11100005))).bind (·.banks[0]?)).map (·.dr) =
      some 0x20 := by decide

theorem test_step_refuses_malformed :
    refusedAs (step (State.reset.withFetchWord 32 0x7F000000)) (.malformed .unknownOp) = true := by
  decide

/-- L2.12: overlapping pins, a count of 24, overlapping interrupts, no cascade line; and a gap. -/
theorem test_table_checks :
    tableOk [row 0, { row 1 with basePin := 16 }, row 2] = false ∧
    tableOk [row 0, row 1, { row 2 with pinCount := 24 }] = false ∧
    tableOk [row 0, { row 1 with baseIrq := 170 }, row 2] = false ∧
    tableOk [row 0, row 1, { row 2 with cascade := false }] = false ∧
    tableOk [row 0, row 1, { row 2 with basePin := 96 }] = true := by decide

/-! ### Register primitives (L2.3) -/

theorem test_regRead_status :
    result (.regRead 0 6) (withBank 0 { bank 0 with inten := 0x200, inttype := 0x200, latch := 0x201 })
      = some (.word 0x200) := by decide
theorem test_regRead_absent_bank : faultOf (.regRead 3 0) State.reset = some .invalidRegister := by
  decide
theorem test_regWrite_drops_high_lanes :
    after (.regWrite 2 0 0xFFFFFFFF) State.reset 2 (·.dir) = some 0x0000FFFF := by decide
/-- L2.8 item 8: an unguarded polarity rewrite latches. -/
theorem test_regWrite_polarity_latches :
    after (.regWrite 0 5 0)
      (withBank 0 { bank 0 with inten := 0x200, inttype := 0x200, intpol := 0x200 }) 0 (·.latch) =
      some 0x200 := by decide
theorem test_setBits_sets :
    after (.setBits 0 0 true 0xF) (withBank 0 { bank 0 with dir := 0xF0 }) 0 (·.dir) = some 0xFF := by
  decide
theorem test_setBits_clears :
    after (.setBits 0 0 false 0x30) (withBank 0 { bank 0 with dir := 0xFF }) 0 (·.dir) =
      some 0xCF := by decide
theorem test_wmWrite_two_fields :
    (nextOf (exec (.wmWrite .pmu 0 0 0x000F0006) State.reset)).map (·.pmuPull.g0) = some 0x0006 := by
  decide
theorem test_wmWrite_absent : faultOf (.wmWrite .pmu 0 2 0) State.reset = some .invalidRegister := by
  decide
theorem test_wmRead_zero_extends :
    result (.wmRead .pmu 0 0) { State.reset with pmuPull := { g0 := 0x8006 } } =
      some (.word 0x00008006) := by decide

/-! ### Pin configuration (L1.2 to L1.4, L1.9, L2.5 to L2.7) -/

/-- L2.5 item 4: driving a pad latches an edge. -/
theorem test_setDirection_latches :
    after (.setDirection 9 true) (withBank 0 { bank 0 with
      inten := 0x200, inttype := 0x200, intpol := 0x200, dr := 0x200 }) 0 (·.latch) = some 0x200 := by
  decide
theorem test_setLevel_last_pin : after (.setLevel 79 true) State.reset 2 (·.dr) = some 0x8000 := by
  decide
theorem test_setLevel_out_of_range :
    result (.setLevel 80 true) State.reset = some (.code .outOfRange) := by decide
theorem test_getLevel_input :
    result (.getLevel 37) (withBank 1 { bank 1 with env := 0x20 }) = some (.level true) := by decide
theorem test_getLevel_output :
    result (.getLevel 5) (withBank 0 { bank 0 with dir := 0x20, dr := 0x20 }) =
      some (.level true) := by decide
/-- L1.7, and pin 12, the first pin of the general block (L2.6). -/
theorem test_setPull_pmu :
    (nextOf (exec (.setPull 3 1) State.reset)).map (·.pmuPull.g0) = some 0x0040 := by decide
theorem test_setPull_general :
    after (.setPull 12 1) State.reset 0 (·.grfPull.g1) = some 0x0040 := by decide
/-- L1.4 case c: an output driving high, while the environment is low. -/
theorem test_setTriggerType_both :
    after (.setTriggerType 9 4) (withBank 0 { bank 0 with dir := 0x200, dr := 0x200 }) 0
      (fun k => (k.dir, k.inttype, k.intpol, k.toggleEdgeMask)) = some (0, 0x200, 0x200, 0x200) := by
  decide
/-- L2.7: an enabled pin latches while its polarity is rewritten. -/
theorem test_setTriggerType_spurious :
    after (.setTriggerType 9 3) (withBank 0 { bank 0 with
      inten := 0x200, inttype := 0x200, intpol := 0x200 }) 0 (·.latch) = some 0x200 := by decide
theorem test_request_refused :
    result (.request 40) { State.reset with verdicts := [false] } =
      some (.code .requestRefused) := by decide
theorem test_toIrq : result (.toIrq 70) State.reset = some (.irq 230) := by decide

/-! ### Interrupt chip (L2.8, L2.9) -/

/-- L2.8 item 6: a latch kept through a disable is pending again. -/
theorem test_irqEnable_shows_latch :
    after (.irqEnable 9) (withBank 0 { bank 0 with
      inttype := 0x200, intpol := 0x200, latch := 0x200 }) 0 (·.status) = some 0x200 := by decide
theorem test_irqDisable_keeps_latch :
    after (.irqDisable 9) (withBank 0 { bank 0 with
      inten := 0x200, inttype := 0x200, latch := 0x200 }) 0 (fun k => (k.inten, k.status, k.latch)) =
      some (0, 0, 0x200) := by decide
theorem test_irqAck : after (.irqAck 9) (withBank 0 { bank 0 with latch := 0x201 }) 0 (·.latch) =
    some 0x001 := by decide
theorem test_setWake_last_pin :
    after (.setWake 63 true) State.reset 1 (·.wakeMask) = some 0x80000000 := by decide

/-! ### The pass (L1.6, L2.10) -/

/-- The state of L1.6: pins 5, 9 and 20 pending, pin 9 an edge pin; bank 0's interrupt agent acts and
three empty handlers are drawn. -/
def pending : State :=
  { withBank 0 { bank 0 with
      inten := 0x100220, inttype := 0x200, intpol := 0x100020, latch := 0x200, env := 0x100020 } with
    actor := .irq 0, handlers := List.replicate 32 [] }

theorem test_demux_order :
    callsOf (.demux 0) pending =
      some [.chainedEnter 0, .dispatch 180, .chainedExit 0, .dispatch 169, .dispatch 165] := by
  decide +kernel
/-- L1.5: the polarity after the pass is the complement of the level observed. -/
theorem test_demux_rearms :
    after (.demux 0) { withBank 0 { bank 0 with
        inten := 0x200, inttype := 0x200, intpol := 0x200, latch := 0x200, env := 0x200
        toggleEdgeMask := 0x200 } with
      actor := .irq 0, handlers := [[]] } 0 (fun k => (k.latch, k.intpol, k.inten, k.pass)) =
      some (0, 0, 0x200, .idle) := by decide +kernel

/-- R98, R207: a pass returns nothing, also where its handler's last operation ends with an error. -/
theorem test_demux_returns_nothing :
    result (.demux 0) { pending with handlers := List.replicate 3 [.setLevel 80 true] } =
      some .done := by decide +kernel

/-! ### Initialisation (R282 steps 5 and 6) -/

theorem test_reset_calls :
    State.reset.trace = [.clockEnable 0, .clockEnable 1, .clockEnable 2,
      .registerHandler 0, .registerHandler 1, .registerHandler 2] := by decide
/-- R280: an override of one bank's register (log 1). -/
theorem test_reset_override :
    (State.initial Config.tc BankRow.tcRows { banks := [{}, { pull1 := 5 }] }).banks.map (·.pull1) =
      [0, 5, 0] := by decide

/-! ### Suspend and resume (L1.8, L2.11) -/

theorem test_suspend :
    after .suspend (withBank 0 { bank 0 with inten := 0x230, wakeMask := 0x200 }) 0
      (fun k => (k.savedEnable, k.inten, k.clockOn, k.gated)) = some (0x230, 0x200, true, false) := by
  decide +kernel
theorem test_suspend_gates :
    callsOf .suspend (withBank 0 { bank 0 with wakeMask := 0x200 }) =
      some [.clockDisable 1, .clockDisable 2] := by decide +kernel
/-- R12, R220: `ClockDisable` is a step of its own, before the one that clears `clock_on`. -/
theorem test_suspend_clock_steps :
    let s := (State.reset.setPlan (.call 1) [.clockDisableIfNoWake 1, .clockOffIfNoWake 1]).advance
      (.call 1)
    s.trace.getLast? = some (.clockDisable 1) ∧ s.banks.map (·.clockOn) = [true, true, true] ∧
    (s.advance (.call 1)).banks.map (·.clockOn) = [true, false, true] := by decide
/-- L2.11 item 2: the pending wake pin is added. -/
theorem test_resume :
    after .resume (withBank 0 { bank 0 with
      inten := 0x200, wakeMask := 0x200, savedEnable := 0x030, inttype := 0x200, latch := 0x200 }) 0 (·.inten) = some 0x230 := by decide +kernel

/-! ### The environment -/

/-- L2.8 items 4 and 7: a rise does not latch on a falling-edge pin; a gated bank latches nothing. -/
theorem test_env_edges :
    ({ bank 0 with inten := 0x200, inttype := 0x200 } : Bank).setEnv 0x200 =
      { bank 0 with inten := 0x200, inttype := 0x200, env := 0x200 } ∧
    (({ bank 0 with inten := 0x200, inttype := 0x200, intpol := 0x200, clockOn := false } :
      Bank).setEnv 0x200).latch = 0 := by decide

/-! ### Witnesses of the obligations' hypotheses -/

/-- Bank 0 with its clock off. -/
def gated0 : State := withBank 0 { bank 0 with clockOn := false }

/-- Bank 0 with its lock held by call-context agent 1. -/
def held : State := withBank 0 { bank 0 with lock := some (.call 1) }

/-- Bank 1 with its lock held by call-context agent 1. -/
def held1 : State := withBank 1 { bank 1 with lock := some (.call 1) }

/-- Bank 0 with pins 5 and 20 pending, both level pins, and its lock held by bank 1's interrupt agent. -/
def heldBank : Bank :=
  { bank 0 with
    inten := 0x100220, inttype := 0x200, intpol := 0x100020, env := 0x100020, lock := some (.irq 1) }
def heldPending : State :=
  { withBank 0 heldBank with actor := .irq 0, handlers := List.replicate 32 [] }

/-- Bank 0 in a pass. -/
def inPass : State := withBank 0 { bank 0 with inService := true, pass := .active .scan {} }

/-- Call-context agent 0 stopped by a fault. -/
def stopped : State := State.reset.recordFault (.call 0) .clockGatedAccess

/-- Pin `pin` of the reset state is pin `i` of bank `b`, unlocked and clocked, and the acting agent may
begin an operation. -/
abbrev pinReady (pin b i : Nat) : Prop :=
  State.reset.canBegin State.reset.actor = true ∧ State.reset.resolvePin pin = some (b, i) ∧
    State.reset.banks[b]? = some (bank b) ∧ (bank b).lock = none ∧ (bank b).clockOn = true

theorem witness_DecodeOfEncodeIsTheInstruction :
    (Instr.setPull 65535 15).wf = true ∧ (Instr.regWrite 255 255 0xFFFFFFFF).wf = true := by
  decide
theorem witness_DecodedDescriptorEncodesBack :
    decodeWord 0x13F0FFFF 0 = .ok (.setPull 65535 15) := by
  decide
theorem witness_BytesOfAnInstructionDecode : (Instr.setBits 255 255 true 1).wf = true := by decide
theorem witness_StepRunsTheIssuedInstruction :
    ({ State.reset with inputs := [.issue (.call 0) [5, 0, 0x10, 0x11]] } : State).tableOk = true ∧
    decodeBytes .little [5, 0, 0x10, 0x11] = .ok (.setLevel 5 true, []) ∧
    decodeBytes .little [0, 0, 0, 0x7F] = .error .unknownOp := by
  decide
theorem witness_InvalidBankTableStopsTheMachine :
    (withBank 1 { bank 1 with row := { row 1 with basePin := 31 } }).tableOk = false ∧
    tableOk [row 0, row 0] = false := by
  decide
theorem witness_NarrowBusAccessIsRefused :
    ({ State.reset with inputs := [.busRead (.call 0) 0x1000 2] } : State).tableOk = true ∧
    ({ State.reset with inputs := [.busWrite (.call 0) 0x1000 [1, 2, 3]] } : State).tableOk = true ∧
    (2 : Nat) ≠ 4 ∧ [1, 2, 3].length ≠ 4 := by
  decide
theorem witness_BusAddressNamesTheRegister :
    State.reset.tableOk = true ∧ State.reset.addressesOk = true ∧
    State.reset.regAddr 2 7 = some 0x301C ∧ (State.reset.regAt 2 7).isSome = true ∧
    State.reset.pullAddr .pmu 0 1 = some 0x10004 ∧ State.reset.pullOk .pmu 0 1 = true ∧
    State.reset.pullAddr .grf 2 3 = some 0x2002C ∧ State.reset.pullOk .grf 2 3 = true ∧
    State.reset.canBegin (.call 0) = true := by
  decide
/-- Address 0xFFC, below the first register block, is no register's. -/
theorem witness_BusAddressOfNoRegister :
    (∀ b r, (State.reset.regAt b r).isSome = true → State.reset.regAddr b r ≠ some 0xFFC) ∧
    (∀ g b n, State.reset.pullOk g b n = true → State.reset.pullAddr g b n ≠ some 0xFFC) := by
  have hr : ∀ b < 3, ∀ r < 9, State.reset.regAddr b r ≠ some 0xFFC := by decide
  have hp : ∀ g : PullRegion, ∀ b < 3, ∀ n < 4, State.reset.pullAddr g b n ≠ some 0xFFC := by
    intro g; cases g <;> decide
  constructor
  · intro b r h
    rcases Nat.lt_or_ge b 3 with hb | hb
    · rcases Nat.lt_or_ge r 9 with h9 | h9
      · exact hr b hb r h9
      · have : State.reset.cfg.regOffset[r]? = none := List.getElem?_eq_none (by exact h9)
        simp only [State.regAddr, this]
        split <;> simp_all
    · have : ¬ b < State.reset.nbanks := Nat.not_lt.2 hb
      simp [State.regAt, this] at h
  · intro g b n h
    have hn : b < 3 ∧ n < 4 := by
      cases g <;> simp only [State.pullOk, pullExists, decide_eq_true_eq] at h
      · exact ⟨h.2.2.2, by omega⟩
      · exact ⟨h.2.2, h.2.1⟩
      · exact ⟨h.2.2, h.2.1⟩
    exact hp g b hn.1 n hn.2
theorem witness_ExecIsARunOfAtomicSteps :
    State.reset.canBegin State.reset.actor = true ∧
    (nextOf (beginInstr (.setLevel 5 true) State.reset)).isSome = true ∧
    pending.canBegin pending.actor = true ∧
    (nextOf (beginInstr (.demux 0) pending)).isSome = true := by
  decide
theorem witness_RegReadReturnsTheRegister :
    State.reset.canBegin State.reset.actor = true ∧
    State.reset.regAt 2 7 = some .eoi ∧ State.reset.banks[2]? = some (bank 2) ∧
    (bank 2).clockOn = true ∧ gated0.canBegin gated0.actor = true ∧ gated0.regAt 0 0 = some .dir ∧
    gated0.banks[0]? = some { bank 0 with clockOn := false } ∧ State.reset.nbanks ≤ 3 ∧
    regOfId State.reset.cfg.variant 8 = none := by
  decide
theorem witness_RegWriteStoresAndDetectsEdges :
    State.reset.canBegin State.reset.actor = true ∧
    (ofVariant .pullGeneric).canBegin (ofVariant .pullGeneric).actor = true ∧
    (ofVariant .pullGeneric).regAt 0 8 = some .pull1 ∧
    (ofVariant .pullGeneric).banks[0]? = some (bank 0) ∧ (bank 0).clockOn = true ∧
    gated0.canBegin gated0.actor = true ∧ gated0.regAt 0 7 = some .eoi ∧
    gated0.banks[0]? = some { bank 0 with clockOn := false } ∧ State.reset.nbanks ≤ 3 ∧
    regOfId .pullWritemask 8 = none := by
  decide
theorem witness_SetBitsChangesExactlyTheMaskLanes :
    State.reset.canBegin State.reset.actor = true ∧
    State.reset.regAt 2 0 = some .dir ∧ State.reset.banks[2]? = some (bank 2) ∧
    gated0.canBegin gated0.actor = true ∧ (bank 2).clockOn = true ∧
    gated0.regAt 0 7 = some .eoi ∧ gated0.banks[0]? = some { bank 0 with clockOn := false } ∧
    regOfId State.reset.cfg.variant 9 = none := by
  decide
theorem witness_EoiWriteClearsLatchesAndReadsZero :
    State.reset.canBegin State.reset.actor = true ∧
    State.reset.banks[2]? = some (bank 2) ∧ (bank 2).clockOn = true := by
  decide
theorem witness_GatedBankAccessStopsTheAgent :
    gated0.canBegin gated0.actor = true ∧ (bank 0).gated = false ∧
    gated0.banks[0]? = some { bank 0 with clockOn := false } ∧ gated0.resolvePin 31 = some (0, 31) ∧
    (bank 0).lock = none ∧ 4 ≤ 4 ∧
    ({ gated0 with cfg := (ofVariant .pullGeneric).cfg } : State).canBegin gated0.actor = true ∧
    ({ gated0 with cfg := (ofVariant .pullGeneric).cfg } : State).cfg.variant = .pullGeneric := by
  decide
/-- A pass of bank 0, whose clock is off, at a position. -/
def gatedPass (pos : PassPos) (r : PassRegs) : State :=
  withBank 0 { bank 0 with clockOn := false, inService := true, pass := .active pos r }
theorem witness_GatedBankAccessStopsTheAgent_pass :
    PassPos.snapIsr.reads = true ∧ (gatedPass .snapIsr {}).canStep (.irq 0) = true ∧
    ((gatedPass .snapIsr {}).ctx (.irq 0)).plan = [] ∧
    (gatedPass .update { newPol := some 0 }).canStep (.irq 0) = true ∧
    ((gatedPass .update { newPol := some 0 }).ctx (.irq 0)).plan = [] ∧
    (gated0.setPlan (.irq 0) [.busRead 0 .ext]).canStep (.irq 0) = true ∧
    (Micro.busRead 0 .ext).accesses 0 = true := by
  decide
theorem witness_StoppedAgentTakesNoStep :
    (stopped.ctx (.call 0)).fault = some .clockGatedAccess ∧
    stopped.actor = .call 0 ∧ Instr.suspend ≠ .demux 0 ∧
    ((pending.recordFault (.irq 0) .selfDeadlock).ctx (.irq 0)).fault = some .selfDeadlock ∧
    (pending.recordFault (.irq 0) .selfDeadlock).actor = .irq 0 ∧
    (pending.recordFault (.irq 0) .selfDeadlock).deliverable 0 = true ∧
    ((State.reset.recordFault (.irq 3) .invalidRegister).ctx (.irq 3)).fault =
      some .invalidRegister ∧ State.reset.nbanks ≤ 3 ∧
    stopped.tableOk = true ∧ [1, 2, 3, 4].length = 4 := by
  decide
theorem witness_WmWriteMergesTheSelectedBits :
    State.reset.canBegin State.reset.actor = true ∧
    pullExists State.reset.cfg.variant State.reset.nbanks .pmu 0 1 = true ∧
    pullExists State.reset.cfg.variant State.reset.nbanks .grf 2 3 = true ∧
    pullExists State.reset.cfg.variant State.reset.nbanks .pmu 0 2 = false := by
  decide
theorem witness_WmReadReturnsTheDataBits :
    (ofVariant .pullWritemask).canBegin (ofVariant .pullWritemask).actor = true ∧
    pullExists (ofVariant .pullWritemask).cfg.variant (ofVariant .pullWritemask).nbanks .wm 2 3 =
      true ∧
    pullExists (ofVariant .pullWritemask).cfg.variant (ofVariant .pullWritemask).nbanks .wm 3 0 =
      false := by
  decide
theorem witness_PullWriteIsSelectedByItsMask :
    State.reset.pullData .grf 2 3 = some 0 ∧ ∀ j < 16, (0xFFFF : Word).getLsbD (16 + j) = false := by
  decide
theorem witness_FieldWriteChangesOneField :
    (7 : Nat) < 8 ∧ (0 : Nat) < 8 ∧ (15 : Nat) < 16 := by
  decide
theorem witness_SetPullGenericWritesOneBit :
    (ofVariant .pullGeneric).canBegin (ofVariant .pullGeneric).actor = true ∧
    (ofVariant .pullGeneric).cfg.variant = .pullGeneric ∧
    (ofVariant .pullGeneric).resolvePin 79 = some (2, 15) ∧
    (ofVariant .pullGeneric).banks[2]? = some (bank 2) ∧ (bank 2).lock = none ∧
    (bank 2).clockOn = true := by
  decide
theorem witness_SetPullSplitWritesOneField :
    State.reset.canBegin State.reset.actor = true ∧
    State.reset.cfg.variant = .pullPmuSplit ∧ State.reset.cfg.pmuPullRegionPins = 12 ∧
    State.reset.tableOk = true ∧ State.reset.resolvePin 11 = some (0, 11) ∧
    State.reset.resolvePin 12 = some (0, 12) ∧ pullOfCode 2 = some .down ∧
    pull2Value State.reset.cfg.pull2Enc .down = some 2 := by
  decide
theorem witness_SetPullWritemaskWritesOneField :
    (ofVariant .pullWritemask).canBegin (ofVariant .pullWritemask).actor = true ∧
    (ofVariant .pullWritemask).cfg.variant = .pullWritemask ∧
    (ofVariant .pullWritemask).tableOk = true ∧
    (ofVariant .pullWritemask).resolvePin 31 = some (0, 31) ∧ pullOfCode 0 = some .disabled ∧
    pull2Value (ofVariant .pullWritemask).cfg.pull2Enc .disabled = some 0 := by
  decide
theorem witness_PinResolvesToTheBankThatHoldsIt :
    State.reset.tableOk = true ∧ State.reset.resolvePin 79 = some (2, 15) ∧
    State.reset.resolvePin 80 = none ∧
    State.reset.banks.map (·.row.basePin) = [32 * 0, 32 * 1, 32 * 2] := by
  decide
theorem witness_PinOutsideEveryBankIsOutOfRange :
    pinOperand (.setPull 80 15) = some 80 ∧ State.reset.canBegin State.reset.actor = true ∧
    State.reset.resolvePin 80 = none := by
  decide
theorem witness_PinBitWriteChangesOneLane :
    (31 : Nat) < 32 ∧ Reg.pull1 ≠ .ext ∧ Reg.pull1 ≠ .intstatus ∧ Reg.pull1 ≠ .eoi := by
  decide
theorem witness_SetDirectionWritesOneBit : pinReady 31 0 31 := by decide
theorem witness_SetLevelWritesOneBit : pinReady 64 2 0 := by decide
theorem witness_GetLevelReadsThePad : pinReady 79 2 15 ∧ 15 < 32 := by decide
theorem witness_OutputLevelRoundTrips : pinReady 63 1 31 ∧ 31 < 32 := by decide
theorem witness_SetTriggerTypeProgramsASingleKind :
    pinReady 9 0 9 ∧
    ((3, true, false) : Nat × Bool × Bool) ∈
      [(0, false, false), (1, false, true), (2, true, true), (3, true, false)] := by
  decide
theorem witness_EdgeBothArmsTheOppositeEdge : pinReady 31 0 31 ∧ 31 < 32 := by decide
theorem witness_UnsupportedCodesAreRejected :
    State.reset.canBegin State.reset.actor = true ∧
    State.reset.resolvePin 3 = some (0, 3) ∧ 4 < 5 ∧ 3 < 4 ∧
    (ofVariant .pullGeneric).resolvePin 3 = some (0, 3) ∧
    (ofVariant .pullGeneric).cfg.variant = .pullGeneric ∧
    State.reset.cfg.variant ≠ .pullGeneric ∧ pullOfCode 3 = some .defaultEnabled ∧
    pull2Value State.reset.cfg.pull2Enc .defaultEnabled = none := by
  decide
theorem witness_RequestReturnsTheVerdict :
    pinReady 40 1 8 ∧ State.reset.verdicts = [] ∧
    ({ State.reset with verdicts := [false] } : State).canBegin (.call 0) = true ∧
    ({ State.reset with verdicts := [false] } : State).resolvePin 40 = some (1, 8) := by
  decide
theorem witness_ToIrqIsBasePlusOffset : pinReady 70 2 6 ∧ State.reset.tableOk = true := by decide
theorem witness_IrqEnableAndDisableWriteOneBit : pinReady 9 0 9 := by decide
theorem witness_IrqAckClearsOneLatch : pinReady 9 0 9 := by decide
theorem witness_SetWakeWritesOneBit : pinReady 63 1 31 := by decide
theorem witness_SuspendNarrowsEveryBank :
    State.reset.canBegin State.reset.actor = true ∧
    ∀ k ∈ State.reset.banks, k.lock = none ∧ k.clockOn = true := by
  decide
theorem witness_ResumeRestoresEveryBank :
    (withBank 1 { bank 1 with clockOn := false, gated := true }).canBegin (.call 0) = true ∧
    (withBank 1 { bank 1 with clockOn := false, gated := true }).actor = .call 0 ∧
    ∀ k ∈ (withBank 1 { bank 1 with clockOn := false, gated := true }).banks,
      k.lock = none ∧ (k.clockOn = true ∨ k.gated = true) := by
  decide
theorem witness_SuspendThenResumeAddsOnlyPendingWakePins :
    State.reset.canBegin State.reset.actor = true ∧ State.reset.lanesOk = true ∧
    ∀ k ∈ State.reset.banks, k.lock = none ∧ k.clockOn = true ∧ k.gated = false := by
  decide
theorem witness_StatusIsDerivedLaneByLane : (31 : Nat) < 32 := by decide
theorem witness_EnvironmentStepLatchesTheEdges :
    ({ State.reset with inputs := [.setEnv 2 0xFFFFFFFF] } : State).tableOk = true ∧
    State.reset.banks[2]? = some (bank 2) := by
  decide
theorem witness_OnlyAnAcknowledgeClearsALatch :
    microStep (.call 0) (.busWrite 0 .eoi (.lit 0x200))
        (withBank 0 { bank 0 with latch := 0x200 }) = .ok (withBank 0 (bank 0)) ∧
    (bank 0).latch.getLsbD 9 = false ∧
    passStep 0 (withBank 0 { bank 0 with latch := 1, pass := .active .clear {} }) =
      .ok (withBank 0 { bank 0 with latch := 1, pass := .active .scan {} }) ∧
    (withBank 0 { bank 0 with latch := 1 }).setEnv 0 0 = withBank 0 { bank 0 with latch := 1 } := by
  decide
theorem witness_GuardedRewriteSetsNoLatch :
    State.reset.banks[0]? = some (bank 0) ∧ (bank 0).lock = none ∧ (bank 0).clockOn = true ∧
    (State.reset.ctx (.irq 0)).fault = none := by
  decide
theorem witness_LockIsTakenOnlyWhenFree :
    State.reset.banks[0]? = some (bank 0) ∧ (bank 0).lock = none ∧
    held.banks[0]? = some { bank 0 with lock := some (.call 1) } ∧ Agent.call 1 ≠ .call 0 := by
  decide
theorem witness_LockedOperationWaitsForTheHolder :
    held.canBegin held.actor = true ∧ held.resolvePin 9 = some (0, 9) ∧
    held.banks[0]? = some { bank 0 with lock := some (.call 1) } ∧ Agent.call 1 ≠ held.actor ∧
    Instr.setTriggerType 9 4 = .setTriggerType 9 4 ∧ 4 ≤ 4 ∧
    ({ held with cfg := (ofVariant .pullGeneric).cfg } : State).canBegin held.actor = true ∧
    held1.canBegin held1.actor = true ∧ Agent.call 1 ≠ held1.actor ∧
    held1.banks[1]? = some { bank 1 with lock := some (.call 1) } ∧
    held1.banks.take 1 = [bank 0] ∧ (bank 0).lock = none ∧ (bank 0).clockOn = true := by
  decide
/-- Level pins pending while another bank's interrupt agent holds the lock. -/
theorem witness_LockedOperationWaitsForTheHolder_pass :
    PassBegins heldPending 0 heldBank ∧ heldBank.lock = some (.irq 1) ∧
    heldBank.status &&& (~~~heldBank.inttype ||| heldBank.toggleEdgeMask) ≠ 0 ∧
    Agent.irq 1 ≠ heldPending.actor ∧
    ((held.setPlan (.irq 0) [.lock 0]).ctx (.irq 0)).plan = [.lock 0] :=
  ⟨{ actor := rfl
     begins := by decide
     delivered := by decide
     bank := by decide
     table := by decide
     lanes := by decide
     flow := by decide
     handlers := by decide }, by decide⟩
theorem witness_PassFreezesTheCallsOnItsCore :
    inPass.banks[0]?.map (·.pass) = some (.active .scan {}) ∧
    Pass.active .scan {} ≠ .idle ∧ (row 0).irqCore = inPass.coreOf (.call 0) ∧
    inPass.actor = .call 0 ∧ Instr.resume ≠ .demux 0 ∧ inPass.tableOk = true ∧
    [1, 2, 3, 4].length = 4 := by
  decide
theorem witness_DeliveryConditions :
    pending.banks[0]?.isSome = true ∧ pending.deliverable 0 = true ∧ inPass.deliverable 0 = false := by
  decide
theorem witness_DemuxOutOfPlaceIsRefused :
    State.reset.actor ≠ .irq 0 ∧ 2 < State.reset.nbanks ∧
    State.reset.deliverable 2 = false ∧ State.reset.nbanks ≤ 3 ∧
    ({ State.reset with actor := .irq 3 } : State).canBegin (.irq 3) = true := by
  decide
theorem witness_LanesStayWithinTheBank :
    State.reset.lanesOk = true ∧ (nextOf (step State.reset)).isSome = true := by
  decide
theorem witness_CascadeFollowsThePass :
    inPass.cascadeOk = true ∧ (nextOf (step inPass)).isSome = true := by
  decide
theorem witness_ConfigurationNeverChanges :
    (nextOf (step (State.reset.withFetchWord 32 0x11100005))).isSome = true := by
  decide
theorem witness_FaultsAreNeverCleared :
    (stopped.ctx (.call 0)).fault = some .clockGatedAccess ∧
    (nextOf (step (stopped.withFetchWord 32 0x11100005))).isSome = true := by
  decide
theorem witness_InitialisedBanksAreIdle :
    tableOk BankRow.tcRows = true ∧ BankRow.tcRows ≠ [] ∧
    ∀ r ∈ [({ pull1 := 5, env := 7 } : BankReset)], r.dir = 0 ∧ r.dr = 0 ∧ r.inten = 0 ∧
      r.inttype = 0 ∧ r.intpol = 0 ∧ r.latch = 0 := by
  decide

/-- Bank 0 before the last step of a pass. -/
def lastStep : State := withBank 0 { bank 0 with inService := true, pass := .active .exit {} }

/-- A step that ends a pass: bank 0's interrupt agent takes the last step of one. Pending pins with an
edge pin among them. -/
theorem witness_PassKeepsItsLaws :
    ((nextOf (step { lastStep with inputs := [.advance (.irq 0)] })).bind (·.banks[0]?)).map (·.pass) =
      some .idle ∧
    Pass.active .exit {} ≠ .idle ∧
    ({ bank 0 with
        inten := 0x100220, inttype := 0x200, intpol := 0x100020, latch := 0x200, env := 0x100020 } :
      Bank).status &&& 0x200 ≠ 0 := by
  decide

/-- Pins 5 and 20 pending, both level pins. -/
def levelsPending : State :=
  { withBank 0 { bank 0 with
      inten := 0x100220, inttype := 0x200, intpol := 0x100020, env := 0x100020 } with
    actor := .irq 0, handlers := List.replicate 32 [] }

/-- The premises of a whole pass, met by the state of L1.6. -/
theorem witness_PassRuns : PassRuns pending 0 { bank 0 with
    inten := 0x100220, inttype := 0x200, intpol := 0x100020, latch := 0x200, env := 0x100020 } :=
  { actor := rfl
    begins := by decide
    delivered := by decide
    bank := by decide
    free := by decide
    table := by decide
    lanes := by decide
    flow := by decide
    handlers := by decide }

/-- The same with no edge pin pending. -/
theorem witness_PassRuns_levels : PassRuns levelsPending 0 { bank 0 with
    inten := 0x100220, inttype := 0x200, intpol := 0x100020, env := 0x100020 } ∧
    ({ bank 0 with inten := 0x100220, inttype := 0x200, intpol := 0x100020, env := 0x100020 } :
      Bank).status &&& 0x200 = 0 :=
  ⟨{ actor := rfl
     begins := by decide
     delivered := by decide
     bank := by decide
     free := by decide
     table := by decide
     lanes := by decide
     flow := by decide
     handlers := by decide }, by decide⟩

end Sys2Proof.Tests
end

section
/-! PROOFS. The derived and the write-one-to-clear registers of a bank, lane by lane
(spec/10_state.md R25, R30, R31). -/

namespace Sys2Proof.Machine

open Sys2Proof

variable {k : Bank} {s : State} {b i : Nat}

/-! ### Lanes of the derived conditions -/

/-- The pad of a pin: what the block drives on an output, what the environment drives on an input, and
0 past the last pin (R25). -/
theorem pad_lane (k : Bank) (hi : i < 32) :
    k.pad.getLsbD i =
      ((if k.dir.getLsbD i then k.dr.getLsbD i else k.env.getLsbD i) &&
        decide (i < k.row.pinCount)) := by
  simp only [Bank.pad, BitVec.getLsbD_and, BitVec.getLsbD_or, BitVec.getLsbD_not, hi,
    pinMask_lane k hi]
  cases k.dir.getLsbD i <;> simp

/-- The active sense of a pin that exists: its pad equals its polarity (R30). -/
theorem sense_lane (k : Bank) (hi : i < 32) :
    k.sense.getLsbD i =
      (!(k.pad.getLsbD i ^^ k.intpol.getLsbD i) && decide (i < k.row.pinCount)) := by
  simp only [Bank.sense, BitVec.getLsbD_and, BitVec.getLsbD_not, BitVec.getLsbD_xor, hi,
    pinMask_lane k hi, decide_true, Bool.true_and]

/-- The pending status of a pin: its latch if it is of edge type, its active sense if it is of level
type (R30). -/
theorem status_lane (k : Bank) (hi : i < 32) :
    k.status.getLsbD i =
      (k.inten.getLsbD i && (if k.inttype.getLsbD i then k.latch.getLsbD i else k.sense.getLsbD i) &&
        decide (i < k.row.pinCount)) := by
  simp only [Bank.status, BitVec.getLsbD_and, BitVec.getLsbD_or, BitVec.getLsbD_not, hi,
    pinMask_lane k hi]
  cases k.inttype.getLsbD i <;> simp

/-! ### Reads and writes of `EOI` -/

/-- `EOI` of a clocked bank reads 0 (R31). -/
theorem busRead_eoi (hc : k.clockOn = true) : k.busRead .eoi = .ok 0 := by
  simp [Bank.busRead, hc]

/-- What is stored by a write to `EOI`: the latches it does not clear (R31). -/
theorem store_eoi_latch_lane (k : Bank) (v : Word) (hi : i < 32) :
    (k.store .eoi v).latch.getLsbD i =
      (k.latch.getLsbD i && !(v.getLsbD i && decide (i < k.row.pinCount))) := by
  simp only [Bank.store, BitVec.getLsbD_and, BitVec.getLsbD_not, hi, pinMask_lane k hi,
    decide_true, Bool.true_and]

/-- A write to `EOI` changes no active sense, so edge detection sets no latch after it (R31, R247). -/
theorem edgeDetect_store_eoi (k : Bank) (v : Word) :
    edgeDetect k (k.store .eoi v) = k.store .eoi v :=
  edgeDetect_same_sense rfl

/-! ### Register operations that run to their end -/

/-- The steps of a register operation on a register that exists. -/
theorem onReg_some {r : Nat} {reg : Reg} {f : Reg → List Micro} (h : s.regAt b r = some reg) :
    s.onReg b r f = f reg := by
  simp [State.onReg, h]

/-- The register id 7 of a bank that exists is `EOI`, in every variant (R96). -/
theorem regAt_eoi (hb : s.banks[b]? = some k) : s.regAt b 7 = some .eoi := by
  obtain ⟨hlt, -⟩ := List.getElem?_eq_some_iff.1 hb
  simp [State.regAt, State.nbanks, hlt, regOfId]

/-- `REG_READ` of a register that reads as `w` returns `w` and changes nothing else (R110). -/
theorem exec_regRead_reads {r : Nat} {reg : Reg} {w : Word} (hbegin : s.canBegin s.actor = true)
    (hreg : s.regAt b r = some reg) (hb : s.banks[b]? = some k) (hr : k.busRead reg = .ok w) :
    exec (.regRead b r) s = .next (s.ended (.word w)) := by
  have hplan : planRegRead b r s = [.busRead b reg, .retWord] := onReg_some hreg
  rw [exec, execRegRead, hplan, runOp_eq hbegin, runPlan_busRead hb hr, runPlan_retWord, runPlan_nil,
    State.ended]

/-- `REG_WRITE` of a clocked bank's register stores the value, with edge detection in the same step,
and changes nothing else (R111). -/
theorem exec_regWrite_stores {r : Nat} {reg : Reg} (v : Word) (hbegin : s.canBegin s.actor = true)
    (hreg : s.regAt b r = some reg) (hb : s.banks[b]? = some k) (hc : k.clockOn = true) :
    exec (.regWrite b r v) s =
      .next ((s.setBank b (edgeDetect k (k.store reg v))).ended .done) := by
  have hplan : planRegWrite b r v s = [.busWrite b reg (.lit v), .ret .done] := onReg_some hreg
  rw [exec, execRegWrite, hplan, runOp_eq hbegin, runPlan_busWrite hb hc, runPlan_ret, runPlan_nil,
    State.ended, Locals.eval, setBank_actor]

/-! ### The statements -/

/-- Settles O42: the lane of the status, with those of the active sense and the pad put in. Past the
last pin both sides are 0; at a pin the pad's mask drops out. -/
theorem statusIsDerivedLaneByLane : Obligations.StatusIsDerivedLaneByLane := by
  intro k i hi
  rw [status_lane k hi, sense_lane k hi, pad_lane k hi]
  by_cases hpin : i < k.row.pinCount <;> simp [hpin]

/-- Settles O14: the read returns what `EOI` reads as, and the write stores the latches it does not
clear, to which edge detection adds none. -/
theorem eoiWriteClearsLatchesAndReadsZero : Obligations.EoiWriteClearsLatchesAndReadsZero := by
  intro s b v k hbegin hb hc
  have hreg : s.regAt b 7 = some .eoi := regAt_eoi hb
  refine ⟨exec_regRead_reads hbegin hreg hb (busRead_eoi hc), (k.store .eoi v).latch,
    fun i hi => store_eoi_latch_lane k v hi, ?_⟩
  rw [exec_regWrite_stores v hbegin hreg hb hc, edgeDetect_store_eoi, Bank.store]

end Sys2Proof.Machine
end

section
/-! PROOFS. The write-mask word of a pull register and the resolution of a pin
(spec/30_encoding.md R83, R90). -/

namespace Sys2Proof.Machine

open Sys2Proof

/-! ### Lanes of a masked write and of the write-mask word of a 2-bit field -/

/-- A masked write, lane by lane: the mask bit selects the word's data bit (R83). -/
theorem maskedWrite_lane (d : Half) (w : Word) {j : Nat} (hj : j < 16) :
    (maskedWrite d w).getLsbD j = if w.getLsbD (16 + j) then w.getLsbD j else d.getLsbD j := by
  simp only [maskedWrite, BitVec.getLsbD_or, BitVec.getLsbD_and, BitVec.getLsbD_not,
    BitVec.getLsbD_extractLsb', hj, decide_true, Bool.true_and, Nat.zero_add]
  cases w.getLsbD (16 + j) <;> simp

/-- The mask of a 2-bit field, before it is shifted, has its two lowest lanes set. -/
theorem pairMask_lane (j : Nat) : (3#32).getLsbD j = decide (j < 2) := by
  rw [BitVec.getLsbD_ofNat, show 3 = 2 ^ 2 - 1 from rfl, Nat.testBit_two_pow_sub_one]
  by_cases h : j < 2
  · simp [h, show j < 32 by omega]
  · simp [h]

/-- The mask half of a field's word is set at the field's two lanes. The value ends below bit 16, as
the field lies in the data half. -/
theorem writeMaskWord_mask_lane (val : BitVec 2) {sh j : Nat} (hsh : sh ≤ 14) (hj : j < 16) :
    (writeMaskWord sh val).getLsbD (16 + j) = decide (sh ≤ j ∧ j < sh + 2) := by
  have hval : val.getLsbD (16 + j - sh) = false := BitVec.getLsbD_of_ge _ _ (by omega)
  have hmask : (3#32).getLsbD (16 + j - (16 + sh)) = decide (16 + j - (16 + sh) < 2) :=
    pairMask_lane _
  rw [writeMaskWord, BitVec.getLsbD_or, BitVec.getLsbD_shiftLeft, BitVec.getLsbD_shiftLeft,
    BitVec.getLsbD_setWidth, hval, hmask, Bool.eq_iff_iff]
  simp only [Bool.and_false, Bool.or_false, Bool.and_eq_true, Bool.not_eq_true', decide_eq_true_eq,
    decide_eq_false_iff_not]
  omega

/-- The data half of a field's word holds the value from the field's first lane on. -/
theorem writeMaskWord_data_lane (val : BitVec 2) {sh j : Nat} (hj : j < 16) :
    (writeMaskWord sh val).getLsbD j = (decide (sh ≤ j) && val.getLsbD (j - sh)) := by
  have hbelow : j < 16 + sh := by omega
  have hlane : j < 32 := by omega
  rcases Nat.lt_or_ge j sh with hout | hin
  · simp [writeMaskWord, hbelow, hlane, hout]
  · simp [writeMaskWord, hbelow, hlane, hin, Nat.not_lt.2 hin]

/-- A field's value, lane by lane. -/
theorem pullFieldAt_lane (d : Half) (sh : Nat) {j : Nat} (hj : j < 2) :
    (pullFieldAt d sh).getLsbD j = d.getLsbD (sh + j) := by
  simp [pullFieldAt, hj]

/-- A write of a field's word sets the field. -/
theorem pullFieldAt_written (d : Half) (val : BitVec 2) {sh : Nat} (hsh : sh ≤ 14) :
    pullFieldAt (maskedWrite d (writeMaskWord sh val)) sh = val := by
  refine BitVec.eq_of_getLsbD_eq fun j hj => ?_
  have hlane : sh + j < 16 := by omega
  rw [pullFieldAt_lane _ _ hj, maskedWrite_lane d _ hlane, writeMaskWord_mask_lane val hsh hlane,
    writeMaskWord_data_lane val hlane]
  simp [hj]

/-- A write of a field's word keeps every field that shares no lane with it. -/
theorem pullFieldAt_other (d : Half) (val : BitVec 2) {sh sh' : Nat} (hsh : sh ≤ 14)
    (hsh' : sh' ≤ 14) (hapart : sh + 2 ≤ sh' ∨ sh' + 2 ≤ sh) :
    pullFieldAt (maskedWrite d (writeMaskWord sh val)) sh' = pullFieldAt d sh' := by
  refine BitVec.eq_of_getLsbD_eq fun j hj => ?_
  have hlane : sh' + j < 16 := by omega
  have hout : ¬(sh ≤ sh' + j ∧ sh' + j < sh + 2) := by omega
  rw [pullFieldAt_lane _ _ hj, pullFieldAt_lane _ _ hj, maskedWrite_lane d _ hlane,
    writeMaskWord_mask_lane val hsh hlane]
  simp [hout]

/-! ### What the check of the bank table gives -/

/-- A bank table keeps R33 when each row does and each two rows, in their order, do. -/
theorem tableOk_iff (rows : List BankRow) :
    tableOk rows = true ↔
      (∀ x ∈ rows, rowOk x = true) ∧ rows.Pairwise (fun x y => rowsApart x y = true) := by
  induction rows with
  | nil => simp [tableOk]
  | cons x rest ih =>
    simp only [tableOk, Bool.and_eq_true, List.all_eq_true, ih, List.forall_mem_cons,
      List.pairwise_cons]
    tauto

/-- The rows of a state's bank table, under R33. -/
theorem tableOk_rows {s : State} (h : s.tableOk = true) :
    (∀ x ∈ s.rows, rowOk x = true) ∧ s.rows.Pairwise (fun x y => rowsApart x y = true) := by
  simp only [State.tableOk, Bool.and_eq_true] at h
  exact (tableOk_iff s.rows).1 h.2

/-- A bank has at most 32 pins (R33 (a)). -/
theorem pinCount_le {s : State} {b : Nat} {k : Bank} (ht : s.tableOk = true)
    (hb : s.banks[b]? = some k) : k.row.pinCount ≤ 32 := by
  have hrow := (tableOk_rows ht).1 k.row (List.mem_map_of_mem (List.mem_of_getElem? hb))
  simp only [rowOk, Bool.and_eq_true, Bool.or_eq_true, decide_eq_true_eq] at hrow
  omega

/-- The pin ranges of the banks ascend (R33 (b)). -/
theorem pinRanges_ascend {s : State} {b c : Nat} {k q : Bank} (ht : s.tableOk = true)
    (hb : s.banks[b]? = some k) (hc : s.banks[c]? = some q) (hlt : b < c) :
    k.row.basePin + k.row.pinCount ≤ q.row.basePin := by
  have hpair := (tableOk_rows ht).2
  rw [State.rows, List.pairwise_map, List.pairwise_iff_getElem] at hpair
  obtain ⟨hbl, rfl⟩ := List.getElem?_eq_some_iff.1 hb
  obtain ⟨hcl, rfl⟩ := List.getElem?_eq_some_iff.1 hc
  have hapart := hpair b c hbl hcl hlt
  simp only [rowsApart, Bool.and_eq_true, decide_eq_true_eq] at hapart
  exact hapart.1

/-! ### Resolution -/

/-- No two banks' ranges hold the same pin (R33, R90). -/
theorem holder_unique {s : State} {b c p : Nat} {k q : Bank} (ht : s.tableOk = true)
    (hb : s.banks[b]? = some k) (hc : s.banks[c]? = some q)
    (hk : k.row.basePin ≤ p ∧ p < k.row.basePin + k.row.pinCount)
    (hq : q.row.basePin ≤ p ∧ p < q.row.basePin + q.row.pinCount) : b = c := by
  rcases Nat.lt_trichotomy b c with hlt | heq | hgt
  · have := pinRanges_ascend ht hb hc hlt
    omega
  · exact heq
  · have := pinRanges_ascend ht hc hb hgt
    omega

/-- A pin in the range of a bank resolves to that bank. The search stops at some bank, as not every
range misses the pin, and no other bank's range holds it. -/
theorem resolvePin_of_held {s : State} {b p : Nat} {k : Bank} (ht : s.tableOk = true)
    (hb : s.banks[b]? = some k)
    (hk : k.row.basePin ≤ p ∧ p < k.row.basePin + k.row.pinCount) :
    s.resolvePin p = some (b, p - k.row.basePin) := by
  cases hr : s.resolvePin p with
  | none => exact absurd hk (resolveFrom_none hr k (List.mem_of_getElem? hb))
  | some bi =>
    obtain ⟨c, i⟩ := bi
    obtain ⟨q, hc, hp, hi⟩ := resolvePin_some hr
    obtain rfl : b = c := holder_unique ht hb hc hk ⟨by omega, by omega⟩
    obtain rfl : k = q := Option.some.inj (hb.symm.trans hc)
    rw [show p - k.row.basePin = i by omega]

/-- A pin resolves exactly to the bank whose range holds it and to its offset there (R90). -/
theorem resolvePin_eq_some_iff {s : State} {p b i : Nat} (ht : s.tableOk = true) :
    s.resolvePin p = some (b, i) ↔
      ∃ k, s.banks[b]? = some k ∧ k.row.basePin ≤ p ∧ p < k.row.basePin + k.row.pinCount ∧
        i = p - k.row.basePin := by
  constructor
  · intro h
    obtain ⟨k, hb, hp, hi⟩ := resolvePin_some h
    exact ⟨k, hb, by omega, by omega, by omega⟩
  · rintro ⟨k, hb, hlo, hhi, rfl⟩
    exact resolvePin_of_held ht hb ⟨hlo, hhi⟩

/-- A pin fails to resolve exactly when it lies in no bank's range (R90). -/
theorem resolvePin_eq_none_iff {s : State} {p : Nat} :
    s.resolvePin p = none ↔
      ∀ k ∈ s.banks, ¬(k.row.basePin ≤ p ∧ p < k.row.basePin + k.row.pinCount) := by
  refine ⟨resolveFrom_none, fun h => ?_⟩
  by_contra hne
  obtain ⟨⟨b, i⟩, hr⟩ := Option.ne_none_iff_exists'.1 hne
  obtain ⟨k, hb, hp, hi⟩ := resolvePin_some hr
  exact h k (List.mem_of_getElem? hb) ⟨by omega, by omega⟩

/-- Where the banks' first pins are the multiples of 32, a pin resolves by division (R90): its
offset is below 32, as no bank has more pins. -/
theorem resolvePin_div_mod {s : State} {p b i : Nat} (ht : s.tableOk = true)
    (hbase : ∀ b k, s.banks[b]? = some k → k.row.basePin = 32 * b)
    (h : s.resolvePin p = some (b, i)) : b = p / 32 ∧ i = p % 32 := by
  obtain ⟨k, hb, hp, hi⟩ := resolvePin_some h
  have hle : k.row.pinCount ≤ 32 := pinCount_le ht hb
  rw [hbase b k hb] at hp
  omega

/-! ### The statements -/

/-- Settles O20: the fields at shifts `2 x` and `2 y` are the same or share no lane, and the
first is set, the second kept. -/
theorem fieldWriteChangesOneField : Obligations.FieldWriteChangesOneField := by
  refine ⟨fun d w j hj => maskedWrite_lane d w hj, fun d val x y hx hy => ⟨rfl, ?_⟩⟩
  by_cases hyx : y = x
  · rw [if_pos hyx, hyx, pullFieldAt_written d val (by omega)]
  · rw [if_neg hyx, pullFieldAt_other d val (by omega) (by omega) (by omega)]

/-- Settles O24: the search for the bank finds a holder where there is one, R33 makes it the only
one, and the offset in it is below 32. -/
theorem pinResolvesToTheBankThatHoldsIt : Obligations.PinResolvesToTheBankThatHoldsIt :=
  fun _ _ ht => ⟨fun _ _ => resolvePin_eq_some_iff ht, resolvePin_eq_none_iff,
    fun hbase _ _ h => resolvePin_div_mod ht hbase h⟩

end Sys2Proof.Machine
end

section
/-! PROOFS. The register primitives `REG_READ` and `REG_WRITE`: the registers of a bank, lane by
lane, and the faults that stop the agent before it has changed anything
(spec/40_register_primitives.md R110 to R113). -/

namespace Sys2Proof.Machine

open Sys2Proof

variable {k : Bank} {s : State} {b i : Nat}

/-! ### Lanes of what a register reads as -/

/-- A word cut to a bank's pins, lane by lane (R32). -/
theorem and_pinMask_lane (k : Bank) (v : Word) (hi : i < 32) :
    (v &&& k.pinMask).getLsbD i = (k.hasLane i && v.getLsbD i) := by
  rw [BitVec.getLsbD_and, pinMask_lane k hi, Bool.and_comm, Bank.hasLane]

/-- The pad's lanes are those the statements speak of (R25). -/
theorem pad_eq_padLane (k : Bank) (hi : i < 32) : k.pad.getLsbD i = k.padLane i := by
  rw [pad_lane k hi, Bool.and_comm, Bank.padLane, Bank.hasLane]

/-- At the pins that exist, the active sense has the lanes the statements speak of (R30). -/
theorem sense_eq_senseLane (k : Bank) (hi : i < 32) :
    k.sense.getLsbD i = (k.hasLane i && k.senseLane i) := by
  rw [sense_lane k hi, pad_eq_padLane k hi, Bool.and_comm, Bank.senseLane, Bank.hasLane]
  cases k.padLane i <;> simp

/-- The pending bits are those the statements speak of (R30, R246). -/
theorem status_eq_statusLane (k : Bank) (hi : i < 32) : k.status.getLsbD i = k.statusLane i := by
  rw [status_lane k hi, sense_eq_senseLane k hi, Bank.statusLane, ← Bank.hasLane]
  cases k.hasLane i <;> simp

/-- `EXT` of a clocked bank reads the pad (R25, R112). -/
theorem busRead_ext (hc : k.clockOn = true) : k.busRead .ext = .ok (k.pad &&& k.pinMask) := by
  simp [Bank.busRead, hc]

/-- `INTSTATUS` of a clocked bank reads the pending bits (R30, R112). -/
theorem busRead_intstatus (hc : k.clockOn = true) : k.busRead .intstatus = .ok k.status := by
  simp [Bank.busRead, hc]

/-- A bus read that succeeds gives the register's lanes (R112): those of the pad, the pending bits,
0, or of a stored word cut to the pins. -/
theorem busRead_lane {r : Reg} {w : Word} (h : k.busRead r = .ok w) (hi : i < 32) :
    w.getLsbD i = k.readLane r i := by
  have hc : k.clockOn = true := busRead_ok h
  cases r with
  | ext =>
    obtain rfl := Except.ok.inj ((busRead_ext hc).symm.trans h)
    rw [and_pinMask_lane k _ hi, pad_eq_padLane k hi, Bank.readLane, Bank.padLane, ← Bool.and_assoc,
      Bool.and_self]
  | intstatus =>
    obtain rfl := Except.ok.inj ((busRead_intstatus hc).symm.trans h)
    exact status_eq_statusLane k hi
  | eoi =>
    obtain rfl := Except.ok.inj ((busRead_eoi hc).symm.trans h)
    exact BitVec.getLsbD_zero
  | _ =>
    obtain rfl := Except.ok.inj ((busRead_stored hc (by decide)).symm.trans h)
    exact and_pinMask_lane k _ hi

/-! ### Lanes of what a bus write leaves -/

/-- A register that stores holds, once written, the value cut to the pins (R113). -/
theorem store_stored_same (k : Bank) {r : Reg} (v : Word)
    (h : r ≠ .ext ∧ r ≠ .intstatus ∧ r ≠ .eoi) : (k.store r v).stored r = v &&& k.pinMask := by
  cases r <;> simp_all [Bank.store, Bank.stored]

/-- A write to one register leaves what every other stores (R113). -/
theorem store_stored_other (k : Bank) {r mine : Reg} (v : Word) (h : r ≠ mine) :
    (k.store r v).stored mine = k.stored mine := by
  cases r <;> cases mine <;> simp_all [Bank.store, Bank.stored]

/-- The lanes of a register that stores, after a write to it or to another (R32, R113). -/
theorem store_lane (k : Bank) (r : Reg) {mine : Reg} (v : Word)
    (h : mine ≠ .ext ∧ mine ≠ .intstatus ∧ mine ≠ .eoi) (hi : i < 32) :
    ((k.store r v).stored mine).getLsbD i = k.laneAfter r mine (k.stored mine) v i := by
  by_cases hr : r = mine
  · subst hr
    rw [store_stored_same k v h, and_pinMask_lane k v hi, Bank.laneAfter, if_pos rfl]
  · rw [store_stored_other k v hr, Bank.laneAfter, if_neg hr]

/-- The latches after a write, before edge detection: only `EOI` clears any (R31, R113). -/
theorem store_latch_lane (k : Bank) (r : Reg) (v : Word) (hi : i < 32) :
    (k.store r v).latch.getLsbD i =
      (k.latch.getLsbD i && !(decide (r = .eoi) && k.hasLane i && v.getLsbD i)) := by
  by_cases hr : r = .eoi
  · rw [hr, store_eoi_latch_lane k v hi, Bank.hasLane, Bool.and_comm (v.getLsbD i)]
    simp
  · have hkeep : (k.store r v).latch = k.latch := by cases r <;> simp_all [Bank.store]
    simp [hkeep, hr]

/-- The latches a step sets, lane by lane (R247). -/
theorem newLatches_lane {k' : Bank} (hrow : k'.row = k.row) (hi : i < 32) :
    (newLatches k k').getLsbD i = k.edgeLane k' i := by
  have hlane : k.hasLane i = k'.hasLane i := by rw [Bank.hasLane, Bank.hasLane, hrow]
  by_cases hc : k'.clockOn = true
  · rw [newLatches, if_pos hc, and_pinMask_lane k' _ hi, Bank.edgeLane, hc]
    simp only [BitVec.getLsbD_and, BitVec.getLsbD_not, sense_eq_senseLane _ hi, hlane, hi]
    cases k'.hasLane i <;> simp
  · rw [newLatches, if_neg hc, Bank.edgeLane]
    simp [hc]

/-- A bus write of a clocked bank is the write the statements speak of (R31, R32, R113, R247). -/
theorem writtenBy_busWrite (k : Bank) (r : Reg) (v : Word) :
    k.WrittenBy r v (edgeDetect k (k.store r v)) where
  rest := by cases r <;> rfl
  dir _ hi := store_lane k r (mine := .dir) v (by decide) hi
  dr _ hi := store_lane k r (mine := .dr) v (by decide) hi
  inten _ hi := store_lane k r (mine := .inten) v (by decide) hi
  inttype _ hi := store_lane k r (mine := .inttype) v (by decide) hi
  intpol _ hi := store_lane k r (mine := .intpol) v (by decide) hi
  pull1 _ hi := store_lane k r (mine := .pull1) v (by decide) hi
  latch _ hi := by
    rw [← store_latch_lane k r v hi, edgeDetect, BitVec.getLsbD_or,
      newLatches_lane (store_row k r v) hi]
    rfl

/-! ### Operations that stop their agent at once -/

/-- An operation whose first step faults stops its agent there and changes nothing else (R241). -/
theorem runOp_first_faults {m : Micro} {rest : List Micro} {f : AgentFault}
    (hbegin : s.canBegin s.actor = true)
    (hm : ∀ c, microStep s.actor m (s.setCtx s.actor c) = .fault f) :
    runOp (m :: rest) s = .next (s.stoppedBy f (m :: rest) {}) := by
  rw [runOp_eq hbegin, runPlan_cons_fault (hm _), recordFault_eq, ctx_setCtx_same, setCtx_setCtx,
    State.stoppedBy]

/-- A read of a bank with its clock off (R112). -/
theorem microStep_busRead_gated {a : Agent} (r : Reg) (hb : s.banks[b]? = some k)
    (hc : k.clockOn = false) : microStep a (.busRead b r) s = .fault .clockGatedAccess := by
  simp [microStep, onBank, hb, busRead_gated r hc]

/-- A write of a bank with its clock off (R113). -/
theorem microStep_busWrite_gated {a : Agent} (r : Reg) (e : Val) (hb : s.banks[b]? = some k)
    (hc : k.clockOn = false) : microStep a (.busWrite b r e) s = .fault .clockGatedAccess := by
  simp [microStep, onBank, hb, busWrite_gated r _ hc]

/-- A check that failed stops the agent that made it (R11, R241). -/
theorem runOp_raiseFault {f : AgentFault} (hbegin : s.canBegin s.actor = true) :
    runOp [.raiseFault f] s = .next (s.stoppedBy f [.raiseFault f] {}) :=
  runOp_first_faults hbegin fun _ => rfl

/-- No bank, or no register with the id, is an invalid register address (R96). -/
theorem regAt_eq_none {r : Nat} (h : s.nbanks ≤ b ∨ regOfId s.cfg.variant r = none) :
    s.regAt b r = none := by
  rw [State.regAt]
  rcases h with hbank | hreg
  · rw [if_neg (Nat.not_lt.2 hbank)]
  · rw [hreg, ite_self]

/-- A register operation on an invalid register address stops its agent before any access (R96,
R244). -/
theorem runOp_onReg_invalid {r : Nat} {f : Reg → List Micro} (hbegin : s.canBegin s.actor = true)
    (h : s.nbanks ≤ b ∨ regOfId s.cfg.variant r = none) :
    ∃ p l, runOp (s.onReg b r f) s = .next (s.stoppedBy .invalidRegister p l) := by
  rw [State.onReg, regAt_eq_none h]
  exact ⟨_, _, runOp_raiseFault hbegin⟩

/-! ### The statements -/

/-- Settles O11: the word read has the register's lanes; a gated bank faults the read itself, and no
register faults the check before it. -/
theorem regReadReturnsTheRegister : Obligations.RegReadReturnsTheRegister := by
  intro s b r hbegin
  refine ⟨fun reg k hreg hb hc => ?_, fun reg k hreg hb hc => ?_, fun hnone => ?_⟩
  · obtain ⟨w, hw⟩ := busRead_clocked (k := k) reg hc
    exact ⟨w, exec_regRead_reads hbegin hreg hb hw, fun _ hi => busRead_lane hw hi⟩
  · have hplan : planRegRead b r s = [.busRead b reg, .retWord] := onReg_some hreg
    rw [exec, execRegRead, hplan]
    exact ⟨_, _, runOp_first_faults hbegin fun _ => microStep_busRead_gated reg hb hc⟩
  · exact runOp_onReg_invalid hbegin hnone

/-- Settles O12: the bank stored and edge-detected is the bank written lane by lane; a gated bank
faults the write itself, and no register faults the check before it. -/
theorem regWriteStoresAndDetectsEdges : Obligations.RegWriteStoresAndDetectsEdges := by
  intro s b r v hbegin
  refine ⟨fun reg k hreg hb hc => ?_, fun reg k hreg hb hc => ?_, fun hnone => ?_⟩
  · exact ⟨_, writtenBy_busWrite k reg v, exec_regWrite_stores v hbegin hreg hb hc⟩
  · have hplan : planRegWrite b r v s = [.busWrite b reg (.lit v), .ret .done] := onReg_some hreg
    rw [exec, execRegWrite, hplan]
    exact ⟨_, _, runOp_first_faults hbegin fun _ => microStep_busWrite_gated reg _ hb hc⟩
  · exact runOp_onReg_invalid hbegin hnone

end Sys2Proof.Machine
end

section
/-! PROOFS. The pull registers: what a pull write leaves in each of them, and the primitives
`WM_WRITE` and `WM_READ` (spec/40_register_primitives.md R115 to
R118, spec/30_encoding.md R97). -/

namespace Sys2Proof.Machine

open Sys2Proof

variable {s : State} {g : PullRegion} {b n m : Nat} {d : Half}

/-! ### One register of a bank's four, or of the PMU block's two -/

/-- A bank has pull registers 0 to 3 in a region (R36, R37). -/
theorem quad_get_some (q : PullQuad) (h : n < 4) : ∃ d, q.get n = some d := by
  interval_cases n <;> exact ⟨_, rfl⟩

/-- The PMU block has pull registers 0 and 1 (R35). -/
theorem pair_get_some (q : PullPair) (h : n < 2) : ∃ d, q.get n = some d := by
  interval_cases n <;> exact ⟨_, rfl⟩

/-- What the four registers read as after one of them is written. -/
theorem quad_get_set (q : PullQuad) (n m : Nat) (d : Half) :
    (q.set n d).get m = if m = n then (q.get m).map fun _ => d else q.get m := by
  rcases n with _ | _ | _ | _ | n <;> rcases m with _ | _ | _ | _ | m <;>
    simp [PullQuad.set, PullQuad.get]

/-- What the two registers read as after one of them is written. -/
theorem pair_get_set (q : PullPair) (n m : Nat) (d : Half) :
    (q.set n d).get m = if m = n then (q.get m).map fun _ => d else q.get m := by
  rcases n with _ | _ | n <;> rcases m with _ | _ | m <;> simp [PullPair.set, PullPair.get]

theorem quad_set_self {q : PullQuad} (h : q.get n = some d) : q.set n d = q := by
  rcases n with _ | _ | _ | _ | n
  case succ.succ.succ.succ => rfl
  all_goals obtain rfl := Option.some.inj h; rfl

theorem pair_set_self {q : PullPair} (h : q.get n = some d) : q.set n d = q := by
  rcases n with _ | _ | n
  case succ.succ => rfl
  all_goals obtain rfl := Option.some.inj h; rfl

/-! ### The pull registers of a state -/

theorem setPullData_pmu (s : State) (b n : Nat) (d : Half) :
    s.setPullData .pmu b n d = { s with pmuPull := s.pmuPull.set n d } := rfl

/-- A write to `GRF_PULL` changes its bank only, if the bank exists (R36). -/
theorem setPullData_grf (s : State) (b n : Nat) (d : Half) :
    s.setPullData .grf b n d = { s with
      banks := s.banks.modify b fun k => { k with grfPull := k.grfPull.set n d } } := by
  cases hb : s.banks[b]? <;>
    simp [State.setPullData, State.setBank, List.modify_eq_set_getElem?, hb]

/-- A write to `WM_PULL` changes its bank only, if the bank exists (R37). -/
theorem setPullData_wm (s : State) (b n : Nat) (d : Half) :
    s.setPullData .wm b n d = { s with
      banks := s.banks.modify b fun k => { k with wmPull := k.wmPull.set n d } } := by
  cases hb : s.banks[b]? <;>
    simp [State.setPullData, State.setBank, List.modify_eq_set_getElem?, hb]

/-- What every pull register reads as after one of them is written: `(g', c, m)` is the register
written if it is of the same region, group and, but in the PMU block, which has no bank, of the same
bank. -/
theorem pullData_setPullData (s : State) (g : PullRegion) (b n : Nat) (d : Half) (g' : PullRegion)
    (c m : Nat) :
    (s.setPullData g b n d).pullData g' c m =
      if g' = g ∧ (g = .pmu ∨ b = c) ∧ m = n then (s.pullData g' c m).map fun _ => d
      else s.pullData g' c m := by
  cases g with
  | pmu =>
    rw [setPullData_pmu]
    cases g' <;> simp [State.pullData, pair_get_set]
  | grf =>
    rw [setPullData_grf]
    by_cases hbank : b = c
    · subst hbank
      cases hb : s.banks[b]? <;> cases g' <;> simp [State.pullData, quad_get_set, hb]
    · cases g' <;> simp [State.pullData, hbank]
  | wm =>
    rw [setPullData_wm]
    by_cases hbank : b = c
    · subst hbank
      cases hb : s.banks[b]? <;> cases g' <;> simp [State.pullData, quad_get_set, hb]
    · cases g' <;> simp [State.pullData, hbank]

/-- The pull register written reads as what was written. -/
theorem pullData_setPullData_same (h : s.pullData g b n = some d) (d' : Half) :
    (s.setPullData g b n d').pullData g b n = some d' := by
  rw [pullData_setPullData, if_pos ⟨rfl, .inr rfl, rfl⟩, h, Option.map_some]

/-- A bank written back as it is. -/
theorem setBank_self {k : Bank} (hb : s.banks[b]? = some k) : s.setBank b k = s := by
  obtain ⟨hlt, rfl⟩ := List.getElem?_eq_some_iff.1 hb
  rw [State.setBank, List.set_getElem_self]

/-- A pull register written with what it holds changes nothing. -/
theorem setPullData_self (h : s.pullData g b n = some d) : s.setPullData g b n d = s := by
  cases g with
  | pmu => rw [setPullData_pmu, pair_set_self h]
  | grf =>
    obtain ⟨k, hb, hget⟩ := Option.bind_eq_some_iff.1 h
    simp only [State.setPullData, hb, quad_set_self hget]
    exact setBank_self hb
  | wm =>
    obtain ⟨k, hb, hget⟩ := Option.bind_eq_some_iff.1 h
    simp only [State.setPullData, hb, quad_set_self hget]
    exact setBank_self hb

@[simp] theorem setPullData_actor (s : State) (g : PullRegion) (b n : Nat) (d : Half) :
    (s.setPullData g b n d).actor = s.actor := by
  cases g <;> simp [setPullData_pmu, setPullData_grf, setPullData_wm]

theorem setPullData_setCtx (s : State) (a : Agent) (c : Ctx) (g : PullRegion) (b n : Nat)
    (d : Half) :
    (s.setCtx a c).setPullData g b n d = (s.setPullData g b n d).setCtx a c := by
  cases g <;> simp only [setPullData_pmu, setPullData_grf, setPullData_wm] <;> rfl

/-! ### The pull registers that exist -/

/-- A pull register that exists is held (R35 to R37, R97). -/
theorem pullExists_held (h : pullExists s.cfg.variant s.nbanks g b n = true) :
    ∃ d, s.pullData g b n = some d := by
  cases g with
  | pmu =>
    obtain ⟨-, -, hn, -⟩ := of_decide_eq_true h
    exact pair_get_some s.pmuPull hn
  | grf =>
    obtain ⟨-, hn, hb⟩ := of_decide_eq_true h
    obtain ⟨d, hd⟩ := quad_get_some s.banks[b].grfPull hn
    exact ⟨d, by simpa [State.pullData, List.getElem?_eq_getElem hb] using hd⟩
  | wm =>
    obtain ⟨-, hn, hb⟩ := of_decide_eq_true h
    obtain ⟨d, hd⟩ := quad_get_some s.banks[b].wmPull hn
    exact ⟨d, by simpa [State.pullData, List.getElem?_eq_getElem hb] using hd⟩

/-- The PMU block's registers are named with bank 0 (R97). -/
theorem pullExists_pmu {var : Variant} {nbanks : Nat} (h : pullExists var nbanks .pmu b n = true) :
    b = 0 := by
  obtain ⟨-, hb, -, -⟩ := of_decide_eq_true h
  exact hb

/-- Of the pull registers that exist, a write leaves every other as it was (R116). Only in the PMU
block could two names be of one register, and there both have bank 0. -/
theorem pullData_setPullData_other {g' : PullRegion} {c : Nat}
    (h : pullExists s.cfg.variant s.nbanks g b n = true)
    (h' : pullExists s.cfg.variant s.nbanks g' c m = true) (hne : (g', c, m) ≠ (g, b, n)) :
    (s.setPullData g b n d).pullData g' c m = s.pullData g' c m := by
  rw [pullData_setPullData, if_neg]
  rintro ⟨rfl, hpmu | rfl, rfl⟩
  · subst hpmu
    exact hne (by rw [pullExists_pmu h, pullExists_pmu h'])
  · exact hne rfl

/-! ### One pull access -/

/-- One step writes the register with the word merged into its data bits (R116). -/
theorem microStep_pullWrite {a : Agent} (w : Word) (h : s.pullData g b n = some d) :
    microStep a (.pullWrite g b n w) s = .ok (s.setPullData g b n (maskedWrite d w)) := by
  simp [microStep, h]

/-- A write-mask word with mask 0 selects nothing (R116). -/
theorem maskedWrite_unselected {w : Word} (d : Half) (h : ∀ j < 16, w.getLsbD (16 + j) = false) :
    maskedWrite d w = d :=
  BitVec.eq_of_getLsbD_eq fun j hj => by rw [maskedWrite_lane d w hj, h j hj]; rfl

/-- A write of a pull register that the model holds (R116). -/
theorem runPlan_pullWrite {a : Agent} {c : Ctx} {rest : List Micro} (w : Word)
    (h : s.pullData g b n = some d) :
    runPlan a (.pullWrite g b n w :: rest) (s.setCtx a c) =
      runPlan a rest
        ((s.setPullData g b n (maskedWrite d w)).setCtx a { c with plan := rest }) := by
  have hd : (s.setCtx a c).pullData g b n = some d := h
  rw [runPlan_cons_ok (microStep_pullWrite w hd), setPullData_setCtx, setPlan_setCtx]

/-- A read of a pull register that the model holds (R115). -/
theorem runPlan_pullRead {a : Agent} {c : Ctx} {rest : List Micro} (h : s.pullData g b n = some d) :
    runPlan a (.pullRead g b n :: rest) (s.setCtx a c) =
      runPlan a rest (s.setCtx a
        { c with plan := rest, loc := { c.loc with v := d.setWidth 32 } }) := by
  have hd : (s.setCtx a c).pullData g b n = some d := h
  simp [runPlan, microStep, hd, State.setLoc, State.setPlan]

/-- The steps of a pull operation on a register that exists. -/
theorem onPull_exists {p : List Micro} (h : pullExists s.cfg.variant s.nbanks g b n = true) :
    s.onPull g b n p = p := by
  rw [State.onPull, State.pullOk, if_pos h]

/-- A pull operation on a register that does not exist stops its agent before any access (R97). -/
theorem runOp_onPull_absent {p : List Micro} (hbegin : s.canBegin s.actor = true)
    (h : pullExists s.cfg.variant s.nbanks g b n = false) :
    ∃ q l, runOp (s.onPull g b n p) s = .next (s.stoppedBy .invalidRegister q l) := by
  have hplan : s.onPull g b n p = [.raiseFault .invalidRegister] := by
    simp [State.onPull, State.pullOk, h]
  rw [hplan]
  exact ⟨_, _, runOp_raiseFault hbegin⟩

/-! ### The statements -/

/-- Settles O19: the step merges the word into the data bits, and where nothing is selected it
writes back what the register holds. -/
theorem pullWriteIsSelectedByItsMask : Obligations.PullWriteIsSelectedByItsMask := by
  intro a s g b n w d hd
  refine ⟨maskedWrite d w, microStep_pullWrite w hd, pullData_setPullData_same hd _,
    fun j hj => maskedWrite_lane d w hj, fun hmask => ?_⟩
  rw [maskedWrite_unselected d hmask, setPullData_self hd]

/-- Settles O17: one pull write of a register that the model holds, or the check that fails before
it. -/
theorem wmWriteMergesTheSelectedBits : Obligations.WmWriteMergesTheSelectedBits := by
  intro s g b n w hbegin
  refine ⟨fun hex => ?_, fun habsent => ?_⟩
  · obtain ⟨d, hd⟩ := pullExists_held hex
    refine ⟨d, maskedWrite d w, hd, fun j hj => maskedWrite_lane d w hj,
      pullData_setPullData_same hd _,
      fun g' c m hne hex' => pullData_setPullData_other hex hex' hne, ?_⟩
    have hplan : planWmWrite g b n w s = [.pullWrite g b n w, .ret .done] := onPull_exists hex
    rw [exec, execWmWrite, hplan, runOp_eq hbegin, runPlan_pullWrite w hd, runPlan_ret, runPlan_nil,
      State.ended, setPullData_actor]
  · exact runOp_onPull_absent hbegin habsent

/-- Settles O18: one pull read of a register that the model holds, zero-extended, or the check that
fails before it. -/
theorem wmReadReturnsTheDataBits : Obligations.WmReadReturnsTheDataBits := by
  intro s g b n hbegin
  refine ⟨fun hex => ?_, fun habsent => ?_⟩
  · obtain ⟨d, hd⟩ := pullExists_held hex
    refine ⟨d, d.setWidth 32, hd, fun j hj => ?_, ?_⟩
    · rw [BitVec.getLsbD_setWidth]
      by_cases hdata : j < 16
      · simp [hj, hdata]
      · simp [hdata, BitVec.getLsbD_of_ge d j (Nat.not_lt.1 hdata)]
    · have hplan : planWmRead g b n s = [.pullRead g b n, .retWord] := onPull_exists hex
      rw [exec, execWmRead, hplan, runOp_eq hbegin, runPlan_pullRead hd, runPlan_retWord,
        runPlan_nil, State.ended]
  · exact runOp_onPull_absent hbegin habsent

end Sys2Proof.Machine
end

section
/-! PROOFS. Encoding and decoding: a descriptor is its fields, so the decoder and the encoder undo each
other, and what the decoder refuses is read off the use of the fields (spec/30_encoding.md R95 to
R101). -/

namespace Sys2Proof

open Sys2Proof.Laws

/-! ### The fields of a descriptor -/

/-- What the decoder reads from a descriptor whose fields fit: the fields it was made of (R95). -/
theorem decodeWord_descriptor {op a p : Nat} (d : Word) (ho : op < 2 ^ 8) (ha : a < 2 ^ 4)
    (hp : p < 2 ^ 16) :
    decodeWord (descriptor op a p) d = decodeFields op a p (p / 2 ^ 8) (p % 2 ^ 8) d := by
  obtain ⟨hop, hz⟩ := OpField.descriptor_fields ho ha hp
  have hw : (descriptor op a p).toNat = op * 2 ^ 24 + a * 2 ^ 20 + p := by
    rw [descriptor, BitVec.toNat_ofNat]; omega
  have hA : field (descriptor op a p) 20 4 = a := by rw [field, hw]; omega
  have hP : field (descriptor op a p) 0 16 = p := by rw [field, hw]; omega
  have hB : field (descriptor op a p) 8 8 = p / 2 ^ 8 := by rw [field, hw]; omega
  have hR : field (descriptor op a p) 0 8 = p % 2 ^ 8 := by rw [field, hw]; omega
  rw [decodeWord, if_pos hz, hop, hA, hP, hB, hR]

/-- What the decoder reads from the descriptor of a bank operation. -/
theorem decodeWord_bank {op a b r : Nat} (d : Word) (ho : op < 2 ^ 8) (ha : a < 2 ^ 4)
    (hb : b < 2 ^ 8) (hr : r < 2 ^ 8) :
    decodeWord (descriptor op a (bankField b r)) d = decodeFields op a (bankField b r) b r d := by
  have hB : bankField b r / 2 ^ 8 = b := by unfold bankField; omega
  have hR : bankField b r % 2 ^ 8 = r := by unfold bankField; omega
  rw [decodeWord_descriptor d ho ha (OpField.bankField_lt hb hr), hB, hR]

/-- A word is the descriptor of its fields where `Z` is 0 (R95). -/
theorem descriptor_of_fields {w : Word} (hz : field w 16 4 = 0) :
    descriptor (field w 24 8) (field w 20 4) (field w 0 16) = w := by
  have hlt := w.isLt
  refine BitVec.eq_of_toNat_eq ?_
  simp only [descriptor, field, BitVec.toNat_ofNat] at *
  omega

/-- The field `P` of a bank operation is its two bytes (R95). -/
theorem bankField_of_fields (w : Word) : bankField (field w 8 8) (field w 0 8) = field w 0 16 := by
  simp only [bankField, field]; omega

theorem field_lt (w : Word) (lo n : Nat) : field w lo n < 2 ^ n :=
  Nat.mod_lt _ (Nat.two_pow_pos n)

/-! ### The uses of the field `A` -/

theorem needZero_ok {a : Nat} {i j : Instr} : needZero a i = .ok j ↔ a = 0 ∧ i = j := by
  unfold needZero; split <;> simp_all

theorem needFlag_ok {a : Nat} {i : Bool → Instr} {j : Instr} :
    needFlag a i = .ok j ↔ ∃ e, a = flagCode e ∧ i e = j := by
  unfold needFlag flagCode; split
  · simp_all
  · split <;> simp_all

theorem needRegion_ok {a : Nat} {i : PullRegion → Instr} {j : Instr} :
    needRegion a i = .ok j ↔ ∃ g : PullRegion, a = g.code ∧ i g = j := by
  constructor
  · intro h
    unfold needRegion at h
    split at h
    · exact ⟨.pmu, ‹_›, by simpa using h⟩
    · split at h
      · exact ⟨.grf, ‹_›, by simpa using h⟩
      · split at h
        · exact ⟨.wm, ‹_›, by simpa using h⟩
        · simp at h
  · rintro ⟨g, rfl, rfl⟩
    cases g <;> rfl

theorem needZero_error {a : Nat} {i : Instr} : (∃ e, needZero a i = .error e) ↔ a ≠ 0 := by
  unfold needZero; split <;> simp_all

theorem needFlag_error {a : Nat} {i : Bool → Instr} : (∃ e, needFlag a i = .error e) ↔ 2 ≤ a := by
  unfold needFlag; split
  · simp_all
  · split
    · simp_all
    · simp only [Except.error.injEq, exists_eq', true_iff]; omega

theorem needRegion_error {a : Nat} {i : PullRegion → Instr} :
    (∃ e, needRegion a i = .error e) ↔ 3 ≤ a := by
  unfold needRegion; split
  · simp_all
  · split
    · simp_all
    · split
      · simp_all
      · simp only [Except.error.injEq, exists_eq', true_iff]; omega

/-! ### What the decoder accepts and what it refuses -/

/-- Fields that decode are those of the operation they decode to, whose operands they carry. -/
theorem decodeFields_ok {op a p b r : Nat} {d : Word} {i : Instr}
    (h : decodeFields op a p b r d = .ok i) (ha : a < 2 ^ 4) (hp : p < 2 ^ 16) (hb : b < 2 ^ 8)
    (hr : r < 2 ^ 8) (hbr : bankField b r = p) :
    i.wf = true ∧ encodeWord i = descriptor op a p ∧
      (encodeOperand i = none ∨ encodeOperand i = some d) := by
  have hbb : byteFits b = true := decide_eq_true hb
  have hrr : byteFits r = true := decide_eq_true hr
  have hpp : pinFits p = true := decide_eq_true hp
  have hcc : codeFits a = true := decide_eq_true ha
  unfold decodeFields at h
  split at h
  case h_17 =>
    split at h
    · obtain ⟨rfl, rfl⟩ := needZero_ok.1 h
      subst hbr
      simp_all [Instr.wf, encodeWord, encodeOperand]
    · cases h
  case h_18 | h_19 =>
    split at h
    · obtain ⟨rfl, rfl⟩ := needZero_ok.1 h
      simp_all [Instr.wf, encodeWord, encodeOperand]
    · cases h
  case h_20 => cases h
  case h_9 | h_10 => cases h; simp_all [Instr.wf, encodeWord, encodeOperand]
  case h_3 | h_6 | h_7 | h_16 =>
    obtain ⟨e, rfl, rfl⟩ := needFlag_ok.1 h
    simp_all [Instr.wf, encodeWord, encodeOperand]
  case h_4 | h_5 =>
    obtain ⟨g, rfl, rfl⟩ := needRegion_ok.1 h
    simp_all [Instr.wf, encodeWord, encodeOperand]
  all_goals
    obtain ⟨rfl, rfl⟩ := needZero_ok.1 h
    simp_all [Instr.wf, encodeWord, encodeOperand]

/-- The operation codes of the map (R98). -/
def opcodes : List Nat :=
  [0x01, 0x02, 0x03, 0x04, 0x05, 0x10, 0x11, 0x12, 0x13, 0x14, 0x15, 0x16, 0x20, 0x21, 0x22, 0x23,
    0x30, 0x40, 0x41]

/-- Fields are refused exactly where the operation's use of `A` or of `P` is broken, or `OP` names no
operation (R98 to R100). -/
theorem decodeFields_error (op a p b r : Nat) (d : Word) :
    (∃ e, decodeFields op a p b r d = .error e) ↔
      (op ∉ opcodes ∨
        (op ∈ [0x01, 0x02, 0x12, 0x15, 0x16, 0x20, 0x21, 0x22, 0x30, 0x40, 0x41] ∧ a ≠ 0) ∨
        (op ∈ [0x03, 0x10, 0x11, 0x23] ∧ 2 ≤ a) ∨ (op ∈ [0x04, 0x05] ∧ 3 ≤ a) ∨
        (op = 0x30 ∧ r ≠ 0) ∨ (op ∈ [0x40, 0x41] ∧ p ≠ 0)) := by
  unfold decodeFields
  split
  case h_17 => by_cases hr : r = 0 <;> simp [hr, needZero_error, opcodes]
  case h_18 | h_19 => by_cases hp : p = 0 <;> simp [hp, needZero_error, opcodes]
  case h_20 => simp_all [opcodes]
  all_goals simp [needZero_error, needFlag_error, needRegion_error, opcodes]

/-! ### Words and bytes -/

/-- The bytes of a word make it again, and the bytes after them are left (R66). -/
theorem takeWord_wordBytes (e : Endian) (w : Word) (rest : List Byte) :
    takeWord e (wordBytes e w ++ rest) = some (w, rest) := by
  have hlt := w.isLt
  have hw : BitVec.ofNat 32 (w.toNat % 2 ^ 8 + w.toNat / 2 ^ 8 % 2 ^ 8 * 2 ^ 8 +
      w.toNat / 2 ^ 16 % 2 ^ 8 * 2 ^ 16 + w.toNat / 2 ^ 24 % 2 ^ 8 * 2 ^ 24) = w := by
    refine BitVec.eq_of_toNat_eq ?_
    rw [BitVec.toNat_ofNat]
    omega
  cases e <;>
    simpa only [wordBytes, takeWord, bytesWord, List.reverse_cons, List.reverse_nil,
      List.nil_append, List.cons_append, BitVec.toNat_ofNat, Option.some.injEq, Prod.mk.injEq,
      and_true] using hw

/-- The descriptor of every well-formed operation holds its code, and 0 in `Z` (R95, R98). -/
theorem opField_statement : ∀ i : Instr, OpField.Statement i
  | .regRead b r => OpField.regRead b r
  | .regWrite b r v => OpField.regWrite b r v
  | .setBits b r e m => OpField.setBits b r e m
  | .wmWrite g b n w => OpField.wmWrite g b n w
  | .wmRead g b n => OpField.wmRead g b n
  | .setDirection p o => OpField.setDirection p o
  | .setLevel p l => OpField.setLevel p l
  | .getLevel p => OpField.getLevel p
  | .setPull p c => OpField.setPull p c
  | .setTriggerType p c => OpField.setTriggerType p c
  | .request p => OpField.request p
  | .toIrq p => OpField.toIrq p
  | .irqEnable p => OpField.irqEnable p
  | .irqDisable p => OpField.irqDisable p
  | .irqAck p => OpField.irqAck p
  | .setWake p o => OpField.setWake p o
  | .demux b => OpField.demux b
  | .suspend => OpField.suspend
  | .resume => OpField.resume

/-- The descriptors that take a data operand are those of the operations that have one (R101). -/
theorem takesOperand_encodeWord {i : Instr} (hi : i.wf = true) :
    takesOperand (encodeWord i) = (encodeOperand i).isSome := by
  rw [takesOperand, (opField_statement i hi).1]
  cases i <;> rfl

/-- Decoding the bytes of a descriptor word and of the operand after it, if it takes one. -/
theorem decodeBytes_words (e : Endian) {w : Word} {d : Option Word} {i : Instr} (rest : List Byte)
    (ht : takesOperand w = d.isSome) (hd : decodeWord w (d.getD 0) = .ok i) :
    decodeBytes e ((w :: d.toList).flatMap (wordBytes e) ++ rest) = .ok (i, rest) := by
  cases d with
  | none =>
    simp only [Option.isSome_none] at ht
    have hd : decodeWord w 0#32 = .ok i := hd
    simp [decodeBytes, takeWord_wordBytes, ht, hd]
  | some v =>
    simp only [Option.isSome_some] at ht
    have hd : decodeWord w v = .ok i := hd
    simp [decodeBytes, takeWord_wordBytes, ht, hd]

/-! ### The statements -/

/-- Settles O1: the decoder reads from a descriptor the fields it was made of, and each operation's use
of them gives its operands back. -/
theorem decodeOfEncodeIsTheInstruction : Obligations.DecodeOfEncodeIsTheInstruction := by
  intro i d hi
  cases i with
  | regRead b r | regWrite b r v =>
    obtain ⟨hb, hr⟩ : b < 2 ^ 8 ∧ r < 2 ^ 8 := by simpa [Instr.wf, byteFits] using hi
    exact decodeWord_bank _ (by decide) (by decide) hb hr
  | setBits b r e m =>
    obtain ⟨hb, hr⟩ : b < 2 ^ 8 ∧ r < 2 ^ 8 := by simpa [Instr.wf, byteFits] using hi
    exact (decodeWord_bank _ (by decide) (OpField.flagCode_lt e) hb hr).trans
      (by cases e <;> rfl)
  | wmWrite g b n w | wmRead g b n =>
    obtain ⟨hb, hn⟩ : b < 2 ^ 8 ∧ n < 2 ^ 8 := by simpa [Instr.wf, byteFits] using hi
    exact (decodeWord_bank _ (by decide) (OpField.regionCode_lt g) hb hn).trans
      (by cases g <;> rfl)
  | setDirection p x | setLevel p x | setWake p x =>
    exact (decodeWord_descriptor _ (by decide) (OpField.flagCode_lt x) (of_decide_eq_true hi)).trans
      (by cases x <;> rfl)
  | setPull p c | setTriggerType p c =>
    obtain ⟨hp, hc⟩ : p < 2 ^ 16 ∧ c < 2 ^ 4 := by simpa [Instr.wf, pinFits, codeFits] using hi
    exact decodeWord_descriptor _ (by decide) hc hp
  | getLevel p | request p | toIrq p | irqEnable p | irqDisable p | irqAck p =>
    exact decodeWord_descriptor _ (by decide) (by decide) (of_decide_eq_true hi)
  | demux b => exact decodeWord_bank _ (by decide) (by decide) (of_decide_eq_true hi) (by decide)
  | suspend | resume => exact decodeWord_descriptor _ (by decide) (by decide) (by decide)

/-- Settles O2: the word is the descriptor of its fields, as is the encoding of what they decode
to. -/
theorem decodedDescriptorEncodesBack : Obligations.DecodedDescriptorEncodesBack := by
  intro w d i h
  unfold decodeWord at h
  split at h
  case isTrue hz =>
    obtain ⟨hwf, henc, hd⟩ := decodeFields_ok h (field_lt w 20 4) (field_lt w 0 16) (field_lt w 8 8)
      (field_lt w 0 8) (bankField_of_fields w)
    exact ⟨hwf, henc.trans (descriptor_of_fields hz), hd⟩
  case isFalse => cases h

/-- Settles O3: `Z` is looked at first, and each operation's use of `A` and `P` after it. -/
theorem descriptorRefusedExactlyWhenMalformed :
    Obligations.DescriptorRefusedExactlyWhenMalformed := by
  intro w d
  by_cases hz : field w 16 4 = 0
  · rw [decodeWord, if_pos hz, decodeFields_error]
    simp only [hz, opcodes, ne_eq, not_true_eq_false, false_or]
  · simp [decodeWord, hz]

/-- Settles O4: the bytes are those of the descriptor and of the operand, if there is one, and the
word decodes beside it. -/
theorem bytesOfAnInstructionDecode : Obligations.BytesOfAnInstructionDecode := fun e i rest hi =>
  decodeBytes_words e rest (takesOperand_encodeWord hi) (decodeOfEncodeIsTheInstruction i 0 hi)

/-- Settles O5: the decoder evaluated on each of the words. -/
theorem sampleDescriptorsDecode : Obligations.SampleDescriptorsDecode := by
  refine ⟨?_, ?_, ?_, ?_, ?_, ?_, ?_, ?_, ?_, ?_, ?_⟩ <;> rfl

end Sys2Proof
end

section
/-! PROOFS. Invariants of every step: a property of each bank that every write of a bank keeps is kept
by every step (spec/10_state.md R20, R32, R44). -/

namespace Sys2Proof.Machine

open Sys2Proof

/-! ### Properties of each bank -/

/-- What a write of one bank keeps of every bank. -/
theorem all_set_banks {Q : Bank → Bool} {l : List Bank} {b : Nat} {k k' : Bank}
    (h : l.all Q = true) (hb : l[b]? = some k) (hk : Q k = true → Q k' = true) :
    (l.set b k').all Q = true := by
  rw [List.all_eq_true] at h ⊢
  intro q hq
  rcases List.mem_or_eq_of_mem_set hq with hm | rfl
  · exact h q hm
  · exact hk (h k (List.mem_of_getElem? hb))

/-- A property of each bank is kept by every step if every kind of write of a bank keeps it: an
agent's, a pass's, the entry into a pass that may begin, and the environment's. -/
theorem kept_of_banks {Q : Bank → Bool}
    (hmicro : ∀ {a l m b k k'}, BankWrite a l m b k k' → Q k = true → Q k' = true)
    (hpass : ∀ {k k'}, PassWrite k k' → Q k = true → Q k' = true)
    (henter : ∀ {k : Bank}, k.pass = .idle → k.inService = false → Q k = true →
      Q { k with pass := .active .enter {} } = true)
    (henv : ∀ {k : Bank} (v : Word), Q k = true → Q (k.setEnv v) = true) :
    Kept fun s => s.banks.all Q = true where
  micro _ _ _ _ h e := by
    rcases e.banks with hb | ⟨b, k, k', hk, hw, hb⟩ <;> rw [hb]
    · exact h
    · exact all_set_banks h hk (hmicro hw)
  pass _ _ _ h e := by
    obtain ⟨k, k', hk, hw, hb⟩ := e.banks
    rw [hb]
    exact all_set_banks h hk (hpass hw)
  ctx _ _ _ h := h
  enter b s h hd := by
    unfold State.deliverable at hd
    unfold State.enterPass
    split
    · rename_i k hk
      simp only [hk, Bool.and_eq_true, Bool.not_eq_true'] at hd
      obtain ⟨⟨⟨hidle, hserv⟩, -⟩, -⟩ := hd
      refine all_set_banks h hk (henter ?_ hserv)
      cases hp : k.pass with
      | idle => rfl
      | active _ _ => simp [hp, Pass.isActive] at hidle
    · exact h
  env b v s h := by
    unfold State.setEnv
    split
    · exact all_set_banks h ‹_› (henv v)
    · exact h
  frame _ _ _ _ _ h := h

/-! ### Lanes within the pin count -/

section
variable {k : Bank} {v w : Word}

theorem within_iff : k.within w = true ↔ w &&& ~~~k.pinMask = 0#32 := decide_eq_true_iff

theorem lanesOk_iff : k.lanesOk = true ↔
    k.within k.dir = true ∧ k.within k.dr = true ∧ k.within k.inten = true ∧
      k.within k.inttype = true ∧ k.within k.intpol = true ∧ k.within k.latch = true ∧
      k.within k.pull1 = true := by
  simp [Bank.lanesOk, and_assoc]

/-- A word cut to the pins is within them. -/
theorem within_masked (k : Bank) (v : Word) : k.within (v &&& k.pinMask) = true := by
  rw [within_iff, BitVec.and_assoc, BitVec.and_not_self]
  exact BitVec.and_zero

theorem within_and (h : k.within w = true) : k.within (w &&& v) = true := by
  rw [within_iff] at *
  rw [BitVec.and_comm w, BitVec.and_assoc, h, BitVec.and_zero]

theorem within_or (hv : k.within v = true) (hw : k.within w = true) :
    k.within (v ||| w) = true := by
  rw [within_iff] at *
  rw [BitVec.and_comm, BitVec.and_or_distrib_left, BitVec.and_comm, hv, BitVec.and_comm, hw,
    BitVec.or_zero]

/-- A word within the pins is itself cut to them. -/
theorem and_pinMask_of_within (h : k.within w = true) : w &&& k.pinMask = w := by
  rw [within_iff] at h
  have hsplit : w &&& (k.pinMask ||| ~~~k.pinMask) = w := by
    rw [BitVec.or_not_self, BitVec.and_allOnes]
  rw [BitVec.and_or_distrib_left, h, BitVec.or_zero] at hsplit
  exact hsplit

/-- The latches that a step sets are of pins that exist (R247). -/
theorem within_newLatches (k k' : Bank) : k'.within (newLatches k k') = true := by
  unfold newLatches
  split
  · exact within_masked k' _
  · exact within_iff.2 (BitVec.zero_and)

/-- Edge detection keeps R32. -/
theorem lanesOk_edgeDetect {k' : Bank} (h : k'.lanesOk = true) :
    (edgeDetect k k').lanesOk = true := by
  obtain ⟨hdir, hdr, hen, hty, hpol, hla, hpu⟩ := lanesOk_iff.1 h
  exact lanesOk_iff.2 ⟨hdir, hdr, hen, hty, hpol, within_or hla (within_newLatches k k'), hpu⟩

/-- A bus write stores words cut to the pins, and clears latches (R113). -/
theorem lanesOk_store {r : Reg} (v : Word) (h : k.lanesOk = true) :
    (k.store r v).lanesOk = true := by
  obtain ⟨hdir, hdr, hen, hty, hpol, hla, hpu⟩ := lanesOk_iff.1 h
  have hv := within_masked k v
  cases r with
  | dir => exact lanesOk_iff.2 ⟨hv, hdr, hen, hty, hpol, hla, hpu⟩
  | dr => exact lanesOk_iff.2 ⟨hdir, hv, hen, hty, hpol, hla, hpu⟩
  | ext => exact h
  | inten => exact lanesOk_iff.2 ⟨hdir, hdr, hv, hty, hpol, hla, hpu⟩
  | inttype => exact lanesOk_iff.2 ⟨hdir, hdr, hen, hv, hpol, hla, hpu⟩
  | intpol => exact lanesOk_iff.2 ⟨hdir, hdr, hen, hty, hv, hla, hpu⟩
  | intstatus => exact h
  | eoi => exact lanesOk_iff.2 ⟨hdir, hdr, hen, hty, hpol, within_and hla, hpu⟩
  | pull1 => exact lanesOk_iff.2 ⟨hdir, hdr, hen, hty, hpol, hla, hv⟩

/-- An agent's write of a bank keeps R32: only a bus write touches a register. -/
theorem BankWrite.lanesOk {a : Agent} {l : Locals} {m : Micro} {b : Nat} {k' : Bank}
    (hw : BankWrite a l m b k k') (h : k.lanesOk = true) : k'.lanesOk = true := by
  cases hw with
  | written r e => exact lanesOk_edgeDetect (lanesOk_store _ h)
  | soft f e => cases f <;> exact h
  | _ => exact h

/-- A pass writes no register. -/
theorem PassWrite.lanesOk {k' : Bank} (hw : PassWrite k k') (h : k.lanesOk = true) :
    k'.lanesOk = true := by
  cases hw <;> exact h

end

/-! ### The cascade and the pass -/

/-- The agreement of the cascade with the pass is a matter of these two fields. -/
theorem cascadeOk_congr {k k' : Bank} (hp : k'.pass = k.pass) (hs : k'.inService = k.inService) :
    k'.cascadeOk = k.cascadeOk := by
  unfold Bank.cascadeOk
  rw [hp, hs]

/-- An agent's write of a bank leaves the in-service bit, and moves the pass at most from a position
after `ChainedEnter` and before the end to another. -/
theorem BankWrite.cascadeOk {a : Agent} {l : Locals} {m : Micro} {b : Nat} {k k' : Bank}
    (hw : BankWrite a l m b k k') (h : k.cascadeOk = true) : k'.cascadeOk = true := by
  cases hw with
  | serviced r hp => simpa [Bank.cascadeOk, hp] using h
  | updated r hp => simpa [Bank.cascadeOk, hp] using h
  | written r e => rwa [cascadeOk_congr (k := k) (by simp) (by simp)]
  | soft f e => rwa [cascadeOk_congr (k := k) (by simp) (by simp)]
  | _ => exact h

/-- A pass's own step sets the in-service bit at its entry, clears it at its one exit, and records in
`acked` that it did (R191, R195, R200). -/
theorem PassWrite.cascadeOk {k k' : Bank} (hw : PassWrite k k') (h : k.cascadeOk = true) :
    k'.cascadeOk = true := by
  cases hw with
  | enter r hp => simp_all [Bank.cascadeOk, Bank.chainedEnter]
  | snap pos r pos' r' hp hpos hr =>
    rcases hpos with ⟨rfl, rfl⟩ | ⟨rfl, rfl⟩ | ⟨rfl, rfl⟩ | ⟨rfl, rfl⟩ <;>
      simpa [Bank.cascadeOk, hp, hr] using h
  | scanStart pos r r' hp hpos hr =>
    rcases hpos with rfl | rfl <;>
    · simp only [Bank.cascadeOk, hp, Bool.and_eq_true] at h
      simp [Bank.cascadeOk, hr, h.1]
  | move pos r pos' r' hp hpos hr =>
    rcases hpos with ⟨rfl, rfl | rfl | rfl⟩ | ⟨rfl, rfl⟩ | ⟨rfl, rfl⟩ <;>
      simpa [Bank.cascadeOk, hp, hr] using h
  | earlyExit r r' hp ha hr => simp [Bank.cascadeOk, Bank.chainedExit, hr]
  | lateExit r hp ha => simp [Bank.cascadeOk, Bank.chainedExit]
  | ended r hp ha => simpa [Bank.cascadeOk, hp, ha] using h
  | kept => exact h

/-! ### The configuration -/

/-- A pass leaves the bank table as it was (R20). -/
theorem PassEffect.rows {b : Nat} {s s' : State} (h : PassEffect b s s') : s'.rows = s.rows := by
  obtain ⟨k, k', hk, hw, hb⟩ := h.banks
  have hset := rows_setBank s b k' k hk hw.row
  rwa [State.rows, setBank_banks, ← hb] at hset

/-- The parameters and the bank table are what they were. -/
theorem kept_configuration (c : Config) (rows : List BankRow) :
    Kept fun s => s.cfg = c ∧ s.rows = rows where
  micro _ _ _ _ h e := ⟨e.cfg.trans h.1, e.rows.trans h.2⟩
  pass _ _ _ h e := ⟨e.cfg.trans h.1, e.rows.trans h.2⟩
  ctx _ _ _ h := h
  enter b s h _ := by
    unfold State.enterPass
    split
    · rename_i k hk
      exact ⟨h.1, (rows_setBank s b { k with pass := .active .enter {} } k hk rfl).trans h.2⟩
    · exact h
  env b v s h := by
    unfold State.setEnv
    split
    · rename_i k hk
      exact ⟨h.1, (rows_setBank s b (k.setEnv v) k hk rfl).trans h.2⟩
    · exact h
  frame _ _ _ _ _ h := h

/-- No interrupt is pending in a bank that enables none (R30). -/
theorem status_of_disabled {k : Bank} (h : k.inten = 0#32) : k.status = 0#32 := by
  simp [Bank.status, h]

/-! ### The statements -/

/-- Settles O54: every write of a bank keeps R32, as a bus write cuts its value to the pins and edge
detection latches pins that exist. -/
theorem lanesStayWithinTheBank : Obligations.LanesStayWithinTheBank := fun _ _ h hs =>
  (kept_of_banks (Q := Bank.lanesOk) BankWrite.lanesOk PassWrite.lanesOk (fun _ _ h => h)
    fun _ h => lanesOk_edgeDetect h).step_keeps h hs

/-- Settles O55: every write of a bank keeps the cascade in agreement with the pass. A pass begins only
where the line is not in service (R254). -/
theorem cascadeFollowsThePass : Obligations.CascadeFollowsThePass := fun _ _ h hs =>
  (kept_of_banks (Q := Bank.cascadeOk) BankWrite.cascadeOk PassWrite.cascadeOk
    (fun _ hserv _ => by simp [Bank.cascadeOk, hserv]) fun _ h => h).step_keeps h hs

/-- Settles O56: no kind of change that a step makes touches the parameters or a bank's row. -/
theorem configurationNeverChanges : Obligations.ConfigurationNeverChanges := fun s _ hs =>
  (kept_configuration s.cfg s.rows).step_keeps ⟨rfl, rfl⟩ hs

/-- Settles O58: each invariant evaluated at the reset state. -/
theorem resetKeepsTheInvariants : Obligations.ResetKeepsTheInvariants := by
  refine ⟨?_, ?_, ?_, ?_⟩ <;> decide

/-- Settles O59: the check of the table passes, and each bank constructed has the reset values of R51
over overrides whose registers are 0. -/
theorem initialisedBanksAreIdle : Obligations.InitialisedBanksAreIdle := by
  intro cfg rows rv htable hne hrv
  have hbanks : banksFrom rv 0 rows ≠ [] := fun h =>
    hne (by simpa [h] using (map_row_banksFrom rv 0 rows).symm)
  have hok : (State.initial cfg rows rv).tableOk = true := by
    simp [State.tableOk, htable, hbanks]
  refine ⟨_, if_pos hok, rows_initial cfg rows rv, rfl, rfl, fun k hk => ?_⟩
  obtain ⟨m, row, -, rfl⟩ := mem_banksFrom hk
  obtain ⟨hdir, hdr, hen, hty, hpol, hla⟩ : (rv.banks.getD m {}).dir = 0 ∧
      (rv.banks.getD m {}).dr = 0 ∧ (rv.banks.getD m {}).inten = 0 ∧
      (rv.banks.getD m {}).inttype = 0 ∧ (rv.banks.getD m {}).intpol = 0 ∧
      (rv.banks.getD m {}).latch = 0 := by
    rw [List.getD_eq_getElem?_getD]
    cases hm : rv.banks[m]? with
    | none => exact ⟨rfl, rfl, rfl, rfl, rfl, rfl⟩
    | some r => exact hrv r (List.mem_of_getElem? hm)
  exact ⟨hdir, hdr, hen, hty, hpol, hla, status_of_disabled hen, rfl, rfl, rfl, rfl, rfl, rfl, rfl,
    rfl⟩

end Sys2Proof.Machine
end

section
/-! PROOFS. Turns of agents: what one turn can do, a run as a number of turns of one agent, a step of
the machine as a beginning and turns after it, and the agents that have no turn
(spec/00_scope.md R12, spec/60_exceptions.md R241, R260). -/

namespace Sys2Proof.Machine

open Sys2Proof

variable {a : Agent} {s s' : State} {b : Nat}

/-! ### One turn of an agent that can take it -/

/-- A turn of an agent with steps left takes the first of them. -/
theorem advance_ok {m : Micro} {rest : List Micro} (hc : s.canStep a = true)
    (hp : (s.ctx a).plan = m :: rest) (hm : microStep a m s = .ok s') :
    s.advance a = s'.setPlan a rest := by
  simp only [State.advance, hc, if_true, hp, hm]

/-- On a lock that another agent holds there is no step to take (R60). -/
theorem advance_wait {m : Micro} {rest : List Micro} (hc : s.canStep a = true)
    (hp : (s.ctx a).plan = m :: rest) (hm : microStep a m s = .wait) : s.advance a = s := by
  simp only [State.advance, hc, if_true, hp, hm]

/-- A step that faults stops the agent. -/
theorem advance_fault {m : Micro} {rest : List Micro} {f : AgentFault} (hc : s.canStep a = true)
    (hp : (s.ctx a).plan = m :: rest) (hm : microStep a m s = .fault f) :
    s.advance a = s.recordFault a f := by
  simp only [State.advance, hc, if_true, hp, hm]

theorem movePass_ok (h : passStep b s = .ok s') : s.movePass b = s' := by
  simp only [State.movePass, h]

theorem movePass_wait (h : passStep b s = .wait) : s.movePass b = s := by
  simp only [State.movePass, h]

theorem movePass_fault {f : AgentFault} (h : passStep b s = .fault f) :
    s.movePass b = s.recordFault (.irq b) f := by
  simp only [State.movePass, h]

/-- A turn of the interrupt agent of a pass that is ready is the pass's own next step. -/
theorem advance_pass (hr : s.passReady b = true) : s.advance (.irq b) = s.movePass b := by
  have hready := hr
  unfold State.passReady at hr
  split at hr
  · simp only [Bool.and_eq_true, decide_eq_true_eq] at hr
    obtain ⟨⟨-, hplan⟩, hfault⟩ := hr
    have hc : s.canStep (.irq b) = true := by simp [State.canStep, State.interrupted, hfault]
    simp only [State.advance, hc, if_true, hplan, hready]
  · cases hr

/-- SAID ONCE: all that one turn of an agent can be. -/
inductive Advanced (a : Agent) (s : State) : State → Prop
  | stays : Advanced a s s
  | micro {m rest t} (hc : s.canStep a = true) (hp : (s.ctx a).plan = m :: rest)
      (h : microStep a m s = .ok t) : Advanced a s (t.setPlan a rest)
  | fault {m rest f} (hc : s.canStep a = true) (hp : (s.ctx a).plan = m :: rest)
      (h : microStep a m s = .fault f) : Advanced a s (s.recordFault a f)
  | pass {c t} (ha : a = .irq c) (hr : s.passReady c = true) (h : passStep c s = .ok t) :
      Advanced a s t
  | passFault {c f} (ha : a = .irq c) (hr : s.passReady c = true) (h : passStep c s = .fault f) :
      Advanced a s (s.recordFault a f)

theorem advance_advanced (a : Agent) (s : State) : Advanced a s (s.advance a) := by
  by_cases hc : s.canStep a = true
  · cases hp : (s.ctx a).plan with
    | cons m rest =>
      cases hm : microStep a m s with
      | ok s' => exact advance_ok hc hp hm ▸ .micro hc hp hm
      | wait => exact (advance_wait hc hp hm).symm ▸ .stays
      | fault f => exact advance_fault hc hp hm ▸ .fault hc hp hm
    | nil =>
      cases a with
      | call n =>
        have hstay : s.advance (.call n) = s := by simp only [State.advance, hc, if_true, hp]
        exact hstay.symm ▸ .stays
      | irq b =>
        by_cases hr : s.passReady b = true
        · rw [advance_pass hr]
          cases hm : passStep b s with
          | ok s' => exact movePass_ok hm ▸ .pass rfl hr hm
          | wait => exact (movePass_wait hm).symm ▸ .stays
          | fault f => exact movePass_fault hm ▸ .passFault rfl hr hm
        · have hstay : s.advance (.irq b) = s := by
            simp only [State.advance, hc, if_true, hp, if_neg hr]
          exact hstay.symm ▸ .stays
  · have hstay : s.advance a = s := by simp only [State.advance, if_neg hc]
    exact hstay.symm ▸ .stays

/-- What a pass that is ready is: under way, with no step of a dispatch left and no fault. -/
theorem passReady_iff : s.passReady b = true ↔
    (∃ k pos r, s.banks[b]? = some k ∧ k.pass = .active pos r) ∧ (s.ctx (.irq b)).plan = [] ∧
      (s.ctx (.irq b)).fault = none := by
  unfold State.passReady
  cases s.banks[b]? with
  | none => simp
  | some k => cases hp : k.pass <;> simp [hp, Pass.isActive]

/-! ### Contexts after a step of a pass -/

/-- A pass leaves every other agent's context as it was. -/
theorem PassEffect.ctx_other {x : Agent} (h : PassEffect b s s') (hx : x ≠ .irq b) :
    s'.ctx x = s.ctx x := by
  rcases h.ctxs with hc | ⟨p, hc⟩ | ⟨hc, -⟩ <;>
    simp [State.ctx, hc, lookupCtx_putCtx_other _ x _ _ hx]

/-- A pass leaves its agent's fault as it was. -/
theorem PassEffect.ctx_fault (h : PassEffect b s s') :
    (s'.ctx (.irq b)).fault = (s.ctx (.irq b)).fault := by
  rcases h.ctxs with hc | ⟨p, hc⟩ | ⟨hc, -⟩ <;> simp [State.ctx, hc, lookupCtx_putCtx_same]

/-! ### Runs as turns of one agent -/

/-- An atomic step leaves each bank's pass under way or idle, as it was. -/
theorem BankWrite.isActive {l : Locals} {m : Micro} {k k' : Bank} (h : BankWrite a l m b k k') :
    k'.pass.isActive = k.pass.isActive := by
  cases h with
  | serviced r hp => rw [hp]; rfl
  | updated r hp => rw [hp]; rfl
  | written r e => rw [edgeDetect_pass, store_pass]
  | soft f e => rw [setSoft_pass]
  | _ => rfl

/-- What of a bank freezes call-context agents: whether its pass is under way, and on which core
(R260). -/
def Bank.freezing (k : Bank) : Bool × Nat := (k.pass.isActive, k.row.irqCore)

/-- Which agents are frozen is a matter of the banks' passes and cores. -/
theorem interrupted_congr (hbanks : s'.banks.map Bank.freezing = s.banks.map Bank.freezing)
    (hcfg : s'.cfg = s.cfg) (x : Agent) : s'.interrupted x = s.interrupted x := by
  cases x with
  | irq c => rfl
  | call n =>
    have hany : ∀ t : State, t.interrupted (.call n) = (t.banks.map Bank.freezing).any
        (fun q => q.1 && decide (q.2 = t.cfg.callCores.getD n 0)) := by
      intro t
      rw [List.any_map]
      rfl
    rw [hany, hany, hbanks, hcfg]

/-- Writing a bank with one whose pass is under way as it was, on the same core, freezes and thaws no
agent. -/
theorem map_freezing_set {l : List Bank} {k k' : Bank} (hb : l[b]? = some k)
    (hk : k'.freezing = k.freezing) :
    (l.set b k').map Bank.freezing = l.map Bank.freezing := by
  obtain ⟨hlt, rfl⟩ := List.getElem?_eq_some_iff.1 hb
  rw [List.map_set, hk, ← List.map_set, List.set_getElem_self]

/-- An atomic step begins and ends no pass. -/
theorem MicroEffect.freezing {m : Micro} (h : MicroEffect a m s s') :
    s'.banks.map Bank.freezing = s.banks.map Bank.freezing := by
  rcases h.banks with hb | ⟨b, k, k', hk, hw, hb⟩ <;> rw [hb]
  exact map_freezing_set hk (by rw [Bank.freezing, Bank.freezing, hw.isActive, hw.row])

/-- An atomic step freezes and thaws no agent. -/
theorem MicroEffect.interrupted {m : Micro} {x : Agent} (h : MicroEffect a m s s') :
    s'.interrupted x = s.interrupted x :=
  interrupted_congr h.freezing h.cfg x

/-- After an atomic step of its own an agent can take the next. -/
theorem canStep_setPlan {m : Micro} {rest : List Micro} (hc : s.canStep a = true)
    (h : MicroEffect a m s s') : (s'.setPlan a rest).canStep a = true := by
  have hi : (s'.setPlan a rest).interrupted a = s'.interrupted a := rfl
  simp only [State.canStep, Bool.and_eq_true, decide_eq_true_eq] at hc ⊢
  rw [setPlan_eq, ctx_setCtx_same, ← setPlan_eq, hi, h.interrupted]
  exact ⟨h.ctx_same.2.trans hc.1, hc.2⟩

/-- What is left of an operation runs in turns of its agent. -/
theorem drain_is_turns (hc : s.canStep a = true) : ∃ n, s.drain a = (·.advance a)^[n] s := by
  rw [State.drain]
  generalize hp : (s.ctx a).plan = p
  induction p generalizing s with
  | nil => exact ⟨0, rfl⟩
  | cons m rest ih =>
    cases hm : microStep a m s with
    | wait => exact ⟨0, runPlan_cons_wait hm⟩
    | fault f => exact ⟨1, (runPlan_cons_fault hm).trans (advance_fault hc hp hm).symm⟩
    | ok s' =>
      obtain ⟨n, hn⟩ := ih (canStep_setPlan (rest := rest) hc (microStep_ok hm))
        (by rw [setPlan_eq, ctx_setCtx_same])
      exact ⟨n + 1, by
        rw [runPlan_cons_ok hm, hn, Function.iterate_succ_apply, advance_ok hc hp hm]⟩

/-- One position of a pass, with the steps it leaves to be taken, is turns of its agent. -/
theorem movePass_drain_is_turns (hr : s.passReady b = true) :
    ∃ n, (s.movePass b).drain (.irq b) = (·.advance (.irq b))^[n] s := by
  obtain ⟨-, hplan, hfault⟩ := passReady_iff.1 hr
  have hadv := advance_pass hr
  cases hm : passStep b s with
  | ok s' =>
    have hc : s'.canStep (.irq b) = true := by
      simp [State.canStep, State.interrupted, (passStep_ok hm).ctx_fault, hfault]
    obtain ⟨n, hn⟩ := drain_is_turns hc
    exact ⟨n + 1, by rw [Function.iterate_succ_apply, hadv, movePass_ok hm, hn]⟩
  | wait => exact ⟨0, by rw [movePass_wait hm, State.drain, hplan]; rfl⟩
  | fault f =>
    refine ⟨1, ?_⟩
    rw [Function.iterate_one, hadv, movePass_fault hm, State.drain, recordFault_eq,
      ctx_setCtx_same, hplan, runPlan_nil]

/-- A pass runs in turns of its bank's interrupt agent. -/
theorem runPass_is_turns (b m : Nat) (s : State) :
    ∃ n, runPass b m s = (·.advance (.irq b))^[n] s := by
  induction m generalizing s with
  | zero => exact ⟨0, rfl⟩
  | succ m ih =>
    rw [runPass]
    split
    case isTrue hr =>
      obtain ⟨n, hn⟩ := movePass_drain_is_turns hr
      obtain ⟨n', hn'⟩ := ih ((s.movePass b).drain (.irq b))
      exact ⟨n' + n, by rw [hn', hn, Function.iterate_add_apply]⟩
    case isFalse => exact ⟨0, rfl⟩

/-- What is left of an agent's operation or pass runs in turns of the agent. -/
theorem runOn_is_turns (a : Agent) (s : State) : ∃ n, s.runOn a = (·.advance a)^[n] s := by
  by_cases hc : s.canStep a = true
  · obtain ⟨n, hn⟩ := drain_is_turns hc
    cases a with
    | call c => exact ⟨n, by simp only [State.runOn, hc, if_true, hn]⟩
    | irq b =>
      obtain ⟨n', hn'⟩ := runPass_is_turns b passBound (s.drain (.irq b))
      refine ⟨n' + n, ?_⟩
      simp only [State.runOn, hc, if_true]
      rw [hn', hn, Function.iterate_add_apply]
  · exact ⟨0, by simp only [State.runOn, hc, Bool.false_eq_true, if_false]; rfl⟩

/-! ### Beginning an operation -/

/-- Every operation but `DEMUX` is the run of its steps. -/
theorem exec_eq_runOp {i : Instr} (hi : ∀ b, i ≠ .demux b) : exec i s = runOp (planOf s i) s := by
  cases i with
  | demux b => exact absurd rfl (hi b)
  | _ => rfl

/-- Beginning an operation that is not `DEMUX` puts its steps in the agent's context. -/
theorem beginInstr_eq {i : Instr} (hi : ∀ b, i ≠ .demux b) :
    beginInstr i s =
      if s.canBegin s.actor then .next (s.beginPlan s.actor (planOf s i)) else .next s := by
  cases i with
  | demux b => exact absurd rfl (hi b)
  | _ => rfl

/-- An agent that may begin an operation can take a step. -/
theorem canStep_of_canBegin (h : s.canBegin a = true) : s.canStep a = true := by
  simp only [State.canBegin, Bool.and_eq_true] at h
  exact h.1

/-- An agent that has begun an operation can take its steps. -/
theorem canStep_beginPlan {p : List Micro} (h : s.canBegin a = true) :
    (s.beginPlan a p).canStep a = true := by
  have hc := canStep_of_canBegin h
  simp only [State.canStep, Bool.and_eq_true, decide_eq_true_eq] at hc ⊢
  rw [beginPlan_eq, ctx_setCtx_same]
  exact hc

/-- An operation's uninterrupted run is its beginning and turns of its agent. -/
theorem runOp_is_turns {p : List Micro} (h : s.canBegin s.actor = true) :
    ∃ n, runOp p s = .next ((·.advance s.actor)^[n] (s.beginPlan s.actor p)) := by
  obtain ⟨n, hn⟩ := drain_is_turns (canStep_beginPlan (p := p) h)
  exact ⟨n, by rw [runOp_begins h, hn]⟩

/-- A bank that does not exist has no pass. -/
theorem not_passReady_of_absent (h : s.nbanks ≤ b) : s.passReady b = false := by
  have hb : s.banks[b]? = none := List.getElem?_eq_none h
  simp [State.passReady, hb]

/-- A pass that is not ready does not run. -/
theorem runPass_of_not_ready {n : Nat} (h : s.passReady b = false) : runPass b n s = s := by
  cases n with
  | zero => rfl
  | succ n => rw [runPass, h]; rfl

/-- What `DEMUX` begins with, if it is not refused: a check that fails, a pass that is entered, or
nothing. -/
theorem beginDemux_next {t : State} (h : beginDemux b s = .next t) :
    s.actor = .irq b ∧
      ((s.nbanks ≤ b ∧ runOp [.raiseFault .invalidRegister] s = .next t) ∨
        (s.deliverable b = true ∧ s.canBegin s.actor = true ∧
          t = (s.enterPass b).beginPlan s.actor []) ∨
        (s.deliverable b = true ∧ s.canBegin s.actor = false ∧ t = s)) := by
  unfold beginDemux at h
  split at h
  · cases h
  · rename_i ha
    refine ⟨not_ne_iff.1 ha, ?_⟩
    split at h
    · exact .inl ⟨‹_›, h⟩
    · split at h
      · cases h
      · rename_i hd
        have hd : s.deliverable b = true := by simpa using hd
        split at h <;> cases h
        · exact .inr (.inl ⟨hd, ‹_›, rfl⟩)
        · exact .inr (.inr ⟨hd, Bool.not_eq_true _ ▸ ‹¬s.canBegin s.actor = true›, rfl⟩)

/-- An agent with no step left and no fault may begin where one that could begin is between passes and
cores as before. -/
theorem canBegin_congr (hbanks : s'.banks.map Bank.freezing = s.banks.map Bank.freezing)
    (hcfg : s'.cfg = s.cfg) (hplan : (s'.ctx a).plan = []) (hfault : (s'.ctx a).fault = none)
    (h : s.canBegin a = true) : s'.canBegin a = true := by
  simp only [State.canBegin, State.canStep, Bool.and_eq_true, Bool.not_eq_true'] at h ⊢
  obtain ⟨⟨-, hint⟩, hbetween⟩ := h
  refine ⟨⟨decide_eq_true hfault, (interrupted_congr hbanks hcfg a).trans hint⟩, ?_⟩
  cases a with
  | call n => simp [State.betweenOps, hplan]
  | irq b =>
    have hpass : s'.banks[b]?.map Bank.freezing = s.banks[b]?.map Bank.freezing := by
      rw [← List.getElem?_map, ← List.getElem?_map, hbanks]
    unfold State.betweenOps at hbetween ⊢
    cases hb : s.banks[b]? with
    | none =>
      have hb' : s'.banks[b]? = none := by simpa [hb] using hpass
      simp [hplan, hb']
    | some k =>
      obtain ⟨k', hb', hk⟩ : ∃ k', s'.banks[b]? = some k' ∧ k'.freezing = k.freezing := by
        simpa [hb] using hpass
      have hactive : k'.pass.isActive = k.pass.isActive := congrArg Prod.fst hk
      simp only [hb, Bool.and_eq_true, decide_eq_true_eq] at hbetween
      simp [hplan, hb', hactive, hbetween.2]

/-! ### A step of the machine -/

/-- SAID ONCE: what the input of a step does before agents' turns. The input may change the acting
agent and the queues (`t`); an agent that may begin an operation begins one, or a pass that may begin
is entered; or the environment moves. -/
inductive Started (s : State) : State → Prop
  | frame (a xs vs hs) :
      Started s { s with actor := a, inputs := xs, verdicts := vs, handlers := hs }
  | begun (a x xs p) (hc : s.canBegin x = true) :
      Started s (State.beginPlan { s with actor := a, inputs := xs } x p)
  | entered (b xs) (hd : s.deliverable b = true) (hc : s.canBegin (.irq b) = true) :
      Started s ((State.enterPass { s with actor := .irq b, inputs := xs } b).beginPlan (.irq b) [])
  | env (b v xs) : Started s (State.setEnv { s with inputs := xs } b v)

/-- What a step gives: its input's beginning, and then turns of one agent. -/
def StepRun (s s' : State) : Prop :=
  ∃ t a n, Started s t ∧ s' = (·.advance a)^[n] t

theorem stepRun_runOp {p : List Micro} (a : Agent) (xs : List Input)
    (h : runOp p { s with actor := a, inputs := xs } = .next s') : StepRun s s' := by
  by_cases hc : s.canBegin a = true
  · obtain ⟨n, hn⟩ := runOp_is_turns (p := p) (s := { s with actor := a, inputs := xs }) hc
    exact ⟨_, a, n, .begun a a xs p hc, by rw [hn] at h; cases h; rfl⟩
  · rw [runOp_idles (Bool.eq_false_iff.2 hc)] at h
    cases h
    exact ⟨_, a, 0, .frame a xs s.verdicts s.handlers, rfl⟩

/-- A `DEMUX` that has begun goes on in turns of the interrupt agent, if at all. -/
theorem stepRun_beginDemux {t : State} (m : Nat) (a : Agent) (xs : List Input)
    (h : beginDemux b { s with actor := a, inputs := xs } = .next t) :
    StepRun s (runPass b m t) := by
  obtain ⟨ha, ⟨hnb, hrun⟩ | ⟨hd, hc, rfl⟩ | ⟨hd, hc, rfl⟩⟩ := beginDemux_next h
  · by_cases hc : s.canBegin a = true
    · obtain ⟨k, hk⟩ := runPass_is_turns b m t
      obtain ⟨n, hn⟩ := runOp_is_turns (p := [.raiseFault .invalidRegister])
        (s := { s with actor := a, inputs := xs }) hc
      obtain rfl : a = .irq b := ha
      rw [hrun] at hn
      cases hn
      exact ⟨_, .irq b, k + n, .begun (.irq b) (.irq b) xs _ hc,
        by rw [hk, Function.iterate_add_apply]⟩
    · rw [runOp_idles (Bool.eq_false_iff.2 hc)] at hrun
      cases hrun
      rw [runPass_of_not_ready (not_passReady_of_absent hnb)]
      exact ⟨_, a, 0, .frame a xs s.verdicts s.handlers, rfl⟩
  · obtain rfl : a = .irq b := ha
    obtain ⟨k, hk⟩ := runPass_is_turns b m ((State.enterPass { s with actor := .irq b, inputs := xs }
      b).beginPlan (.irq b) [])
    exact ⟨_, .irq b, k, .entered b xs hd hc, hk⟩
  · obtain ⟨k, hk⟩ := runPass_is_turns b m { s with actor := a, inputs := xs }
    exact ⟨_, .irq b, k, .frame a xs s.verdicts s.handlers, hk⟩

theorem stepRun_exec {i : Instr} (a : Agent) (xs : List Input)
    (h : exec i { s with actor := a, inputs := xs } = .next s') : StepRun s s' := by
  by_cases hi : ∀ b, i ≠ .demux b
  · rw [exec_eq_runOp hi] at h
    exact stepRun_runOp a xs h
  · push Not at hi
    obtain ⟨b, rfl⟩ := hi
    simp only [exec, execDemux] at h
    split at h <;> cases h
    exact stepRun_beginDemux passBound a xs ‹_›

theorem stepRun_beginInstr {i : Instr} (a : Agent) (xs : List Input)
    (h : beginInstr i { s with actor := a, inputs := xs } = .next s') : StepRun s s' := by
  by_cases hi : ∀ b, i ≠ .demux b
  · rw [beginInstr_eq hi] at h
    split at h <;> cases h
    · exact ⟨_, a, 0, .begun a a xs _ ‹_›, rfl⟩
    · exact ⟨_, a, 0, .frame a xs s.verdicts s.handlers, rfl⟩
  · push Not at hi
    obtain ⟨b, rfl⟩ := hi
    exact stepRun_beginDemux 0 a xs h

theorem stepRun_applyInput {x : Input} {rest : List Input}
    (h : applyInput x { s with inputs := rest } = .next s') : StepRun s s' := by
  cases x <;> simp only [applyInput] at h
  case issue a bytes =>
    split at h
    · exact stepRun_exec a rest h
    · cases h
  case start a bytes =>
    split at h
    · exact stepRun_beginInstr a rest h
    · cases h
  case advance a =>
    cases h
    exact ⟨_, a, 1, .frame s.actor rest s.verdicts s.handlers, rfl⟩
  case run a =>
    obtain ⟨n, hn⟩ := runOn_is_turns a { s with inputs := rest }
    cases h
    exact ⟨_, a, n, .frame s.actor rest s.verdicts s.handlers, hn⟩
  case busRead a addr size =>
    split at h
    · exact stepRun_runOp a rest h
    · cases h
  case busWrite a addr bytes =>
    split at h
    · exact stepRun_runOp a rest h
    · cases h
  case setEnv b v => cases h; exact ⟨_, .call 0, 0, .env b v rest, rfl⟩
  case verdict v => cases h; exact ⟨_, .call 0, 0, .frame s.actor rest _ s.handlers, rfl⟩
  case handler ops => cases h; exact ⟨_, .call 0, 0, .frame s.actor rest s.verdicts _, rfl⟩

/-- Every step of the machine is a beginning and then turns of one agent. -/
theorem step_stepRun (h : step s = .next s') : StepRun s s' := by
  unfold step takeInput at h
  split at h
  · split at h
    · cases h
      exact ⟨_, .call 0, 0, .frame s.actor s.inputs s.verdicts s.handlers, rfl⟩
    · exact stepRun_applyInput h
  · cases h

/-! ### Faults stay -/

/-- An agent that can take a step has no fault. -/
theorem fault_of_canStep (h : s.canStep a = true) : (s.ctx a).fault = none := by
  simp only [State.canStep, Bool.and_eq_true, decide_eq_true_eq] at h
  exact h.1

/-- A turn keeps every fault: an agent that has one takes no turn, and a turn leaves every other
agent's context as it was (R241). -/
theorem Advanced.fault_stays {x : Agent} {f : AgentFault} (h : Advanced a s s')
    (hf : (s.ctx x).fault = some f) : (s'.ctx x).fault = some f := by
  by_cases hx : x = a
  · subst hx
    cases h with
    | stays => exact hf
    | micro hc | fault hc => rw [fault_of_canStep hc] at hf; cases hf
    | pass ha hr | passFault ha hr =>
      subst ha
      obtain ⟨-, -, hnone⟩ := passReady_iff.1 hr
      rw [hnone] at hf
      cases hf
  · cases h with
    | stays => exact hf
    | micro hc hp h =>
      rwa [setPlan_eq, ctx_setCtx_other _ _ _ _ hx, (microStep_ok h).ctx_other hx]
    | fault | passFault => rwa [recordFault_eq, ctx_setCtx_other _ _ _ _ hx]
    | pass ha hr h => subst ha; rwa [(passStep_ok h).ctx_other hx]

/-- The beginning of a step keeps every fault: an agent that has one begins nothing. -/
theorem Started.fault_stays {x : Agent} {f : AgentFault} (h : Started s s')
    (hf : (s.ctx x).fault = some f) : (s'.ctx x).fault = some f := by
  have hother : ∀ {y}, s.canBegin y = true → x ≠ y := by
    rintro y hc rfl
    rw [(canBegin_ctx hc).2] at hf
    cases hf
  cases h with
  | frame => exact hf
  | begun a y xs p hc => rw [beginPlan_eq, ctx_setCtx_other _ _ _ _ (hother hc)]; exact hf
  | entered b xs hd hc =>
    rw [beginPlan_eq, ctx_setCtx_other _ _ _ _ (hother hc)]
    unfold State.enterPass
    split <;> exact hf
  | env b v xs => unfold State.setEnv; split <;> exact hf

/-- A property that every turn of an agent keeps holds after any number of its turns. -/
theorem turns_keep {P : State → Prop} (hP : ∀ s s', P s → Advanced a s s' → P s') (n : Nat)
    (h : P s) : P ((·.advance a)^[n] s) := by
  induction n generalizing s with
  | zero => exact h
  | succ n ih => exact ih (hP _ _ h (advance_advanced a s))

/-! ### Agents that have no turn -/

section
variable (hc : s.canStep a = false)
include hc

theorem advance_idle : s.advance a = s := by
  simp [State.advance, hc]

theorem runOn_idle : s.runOn a = s := by
  simp [State.runOn, hc]

theorem canBegin_idle : s.canBegin a = false := by
  rw [State.canBegin, hc, Bool.false_and]

/-- Such an agent begins no operation, and runs none. -/
theorem exec_idle {i : Instr} (ha : s.actor = a) (hi : ∀ b, i ≠ .demux b) :
    exec i s = .next s ∧ beginInstr i s = .next s := by
  subst ha
  have hb := canBegin_idle hc
  rw [exec_eq_runOp hi, beginInstr_eq hi, runOp_idles hb, hb]
  exact ⟨rfl, rfl⟩

end

/-- A pass that may begin is idle. -/
theorem not_passReady_of_deliverable (h : s.deliverable b = true) : s.passReady b = false := by
  unfold State.deliverable at h
  unfold State.passReady
  split at h
  · cases h
  · rename_i k hk
    simp only [Bool.and_eq_true, Bool.not_eq_true'] at h
    obtain ⟨⟨⟨hidle, -⟩, -⟩, -⟩ := h
    simp [hk, hidle]

/-- Nor does it begin a pass, where R242 does not refuse it. -/
theorem demux_idle (hc : s.canStep (.irq b) = false) (ha : s.actor = .irq b)
    (hd : s.deliverable b = true ∨ s.nbanks ≤ b) :
    exec (.demux b) s = .next s ∧ beginInstr (.demux b) s = .next s := by
  have hb : s.canBegin s.actor = false := ha ▸ canBegin_idle hc
  have hbegin : beginDemux b s = .next s := by
    rw [beginDemux, if_neg (not_not.2 ha), runOp_idles hb, hb]
    rcases hd with hd | hnb
    · simp [hd]
    · simp [hnb]
  have hready : s.passReady b = false :=
    hd.elim not_passReady_of_deliverable not_passReady_of_absent
  refine ⟨?_, hbegin⟩
  rw [exec, execDemux, hbegin]
  simp only [runPass_of_not_ready hready]

/-! ### One input -/

/-- A step of a machine whose bank table keeps R33 is what its next input does. -/
theorem step_input {x : Input} {rest : List Input} (ht : s.tableOk = true)
    (hi : s.inputs = x :: rest) : step s = applyInput x { s with inputs := rest } := by
  rw [step, if_pos ht, takeInput, hi]

/-- A bus write of four bytes has a word (R66). -/
theorem wholeWord_some {e : Endian} {bytes : List Byte} (h : bytes.length = 4) :
    ∃ w, wholeWord e bytes = some w := by
  obtain ⟨x0, x1, x2, x3, rfl⟩ := List.length_eq_four.1 h
  exact ⟨_, rfl⟩

/-- A bus write of any other number of bytes has none (R66). -/
theorem wholeWord_none {e : Endian} {bytes : List Byte} (h : bytes.length ≠ 4) :
    wholeWord e bytes = none := by
  match bytes with
  | [] | [_] | [_, _] | [_, _, _] => rfl
  | [_, _, _, _] => exact absurd rfl h
  | _ :: _ :: _ :: _ :: _ :: _ => rfl

/-- A raw access by an agent that has no turn only uses the input up. -/
theorem rawAccess_idle (hc : s.canStep a = false) (ht : s.tableOk = true) (addr : Nat)
    (bytes : List Byte) (rest : List Input) :
    (s.inputs = .busRead a addr 4 :: rest → step s = .next { s with inputs := rest, actor := a }) ∧
    (s.inputs = .busWrite a addr bytes :: rest → bytes.length = 4 →
      step s = .next { s with inputs := rest, actor := a }) := by
  have hb : State.canBegin { s with inputs := rest, actor := a } a = false := canBegin_idle hc
  refine ⟨fun hi => ?_, fun hi hlen => ?_⟩
  · rw [step_input ht hi, applyInput, if_pos rfl]
    exact runOp_idles hb
  · obtain ⟨w, hw⟩ := wholeWord_some (e := s.cfg.busEndian) hlen
    rw [step_input ht hi, applyInput]
    simp only [hw]
    exact runOp_idles hb

/-! ### The statements -/

/-- Settles O10: the run after the beginning is turns of the agent, a pass's too. -/
theorem execIsARunOfAtomicSteps : Obligations.ExecIsARunOfAtomicSteps := by
  intro i s t hc ht
  by_cases hi : ∀ b, i ≠ .demux b
  · rw [beginInstr_eq hi, if_pos hc] at ht
    cases ht
    rw [exec_eq_runOp hi]
    exact runOp_is_turns hc
  · push Not at hi
    obtain ⟨b, rfl⟩ := hi
    have hbegin : beginDemux b s = .next t := ht
    obtain ⟨ha, -⟩ := beginDemux_next hbegin
    obtain ⟨n, hn⟩ := runPass_is_turns b passBound t
    refine ⟨n, ?_⟩
    rw [exec, execDemux, hbegin, ha]
    simp only [hn]

/-- Settles O57: neither the beginning of a step nor a turn touches the context of an agent that has a
fault. -/
theorem faultsAreNeverCleared : Obligations.FaultsAreNeverCleared := by
  intro s s' x f hs hf
  obtain ⟨t, a, n, hstart, rfl⟩ := step_stepRun hs
  exact turns_keep (P := fun u => (u.ctx x).fault = some f) (fun _ _ h hadv => hadv.fault_stays h) n
    (hstart.fault_stays hf)

/-- Settles O6: with its table in order the machine does what its next input says. -/
theorem stepRunsTheIssuedInstruction : Obligations.StepRunsTheIssuedInstruction := by
  intro s a bytes rest ht hi
  refine ⟨fun i left hd => ?_, fun e hd => ?_⟩ <;>
  · rw [step_input ht hi, applyInput]
    simp only [hd]

/-- Settles O7: the check of the table comes first, in a step and in initialisation. -/
theorem invalidBankTableStopsTheMachine : Obligations.InvalidBankTableStopsTheMachine := by
  refine ⟨fun s ht => if_neg (by simp [ht]), fun cfg rows rv ht => if_neg ?_⟩
  simp [State.tableOk, ht]

/-- Settles O8: an access of another width has no word. -/
theorem narrowBusAccessIsRefused : Obligations.NarrowBusAccessIsRefused := by
  intro s a addr size bytes rest ht
  refine ⟨fun hi hsize => ?_, fun hi hlen => ?_⟩
  · rw [step_input ht hi, applyInput, if_neg hsize]
  · rw [step_input ht hi, applyInput]
    simp only [wholeWord_none hlen]

/-- Settles O16: an agent that has a fault can take no step. -/
theorem stoppedAgentTakesNoStep : Obligations.StoppedAgentTakesNoStep := by
  intro s a f hf
  have hc : s.canStep a = false := by simp [State.canStep, hf]
  refine ⟨advance_idle hc, runOn_idle hc, fun ha => ⟨fun i hi => exec_idle hc ha hi, ?_⟩,
    rawAccess_idle hc⟩
  rintro b rfl hd
  exact demux_idle hc ha hd

/-- Settles O48: a pass under way on its core freezes the agent. -/
theorem passFreezesTheCallsOnItsCore : Obligations.PassFreezesTheCallsOnItsCore := by
  intro s n b k hb hp hcore
  have hactive : k.pass.isActive = true := by
    cases h : k.pass with
    | idle => exact absurd h hp
    | active _ _ => rfl
  have hint : s.interrupted (.call n) = true :=
    List.any_eq_true.2 ⟨k, List.mem_of_getElem? hb, by simp [hactive, hcore]⟩
  have hc : s.canStep (.call n) = false := by simp [State.canStep, hint]
  exact ⟨advance_idle hc, runOn_idle hc, fun ha i hi => exec_idle hc ha hi, rawAccess_idle hc⟩

/-- Settles O50: the checks before a pass, in their order. -/
theorem demuxOutOfPlaceIsRefused : Obligations.DemuxOutOfPlaceIsRefused := by
  intro s b
  refine ⟨fun h => ?_, fun ha hnb hc => ?_⟩
  · have hbegin : beginDemux b s = .refused (.notDeliverable s.actor b) := by
      by_cases ha : s.actor = .irq b
      · obtain ⟨hb, hd⟩ := h.resolve_left (not_not.2 ha)
        simp [beginDemux, ha, hd, Nat.not_le.2 hb]
      · rw [beginDemux, if_pos ha]
    rw [exec, execDemux, hbegin]
  · have hbegin : beginDemux b s =
        .next (s.stoppedBy .invalidRegister [.raiseFault .invalidRegister] {}) := by
      rw [beginDemux, if_neg (not_not.2 ha), if_pos hnb]
      exact runOp_raiseFault hc
    refine ⟨[.raiseFault .invalidRegister], {}, ?_⟩
    rw [exec, execDemux, hbegin]
    simp only [runPass_of_not_ready (not_passReady_of_absent
      (s := s.stoppedBy .invalidRegister [.raiseFault .invalidRegister] {}) hnb)]

/-- Settles O46: the four cases of the two lock steps. -/
theorem lockIsTakenOnlyWhenFree : Obligations.LockIsTakenOnlyWhenFree := by
  intro a s b k hb
  refine ⟨fun hl => ?_, fun hl => ?_, fun h hl hne => microStep_lock_held hb hl hne, fun hl => ?_⟩ <;>
    simp [microStep, onBank, hb, hl]

end Sys2Proof.Machine
end

section
/-! PROOFS. Registers behind addresses, latches, and the conditions of delivery: raw accesses
(spec/20_memory.md R63 to R67), `SET_BITS` (spec/40_register_primitives.md R114), what sets and clears
a latch (spec/60_exceptions.md R247 to R250), and R254. -/

namespace Sys2Proof.Machine

open Sys2Proof

variable {s : State} {b i : Nat} {k k' : Bank}

/-! ### The address map -/

theorem regAddr_eq_some {r addr : Nat} : s.regAddr b r = some addr ↔
    ∃ k off, s.banks[b]? = some k ∧ s.cfg.regOffset[r]? = some off ∧ k.row.regBase + off = addr := by
  unfold State.regAddr
  cases s.banks[b]? <;> cases s.cfg.regOffset[r]? <;> simp

theorem regAt_eq_some (hb : s.banks[b]? = some k) (r : Nat) :
    s.regAt b r = regOfId s.cfg.variant r := by
  obtain ⟨hlt, -⟩ := List.getElem?_eq_some_iff.1 hb
  exact if_pos hlt

/-- The registers of the system and their addresses: the bank registers that exist (R63), and the pull
registers that exist (R64). -/
theorem mem_addressMap {addr : Nat} {t : BusTarget} :
    (addr, t) ∈ s.addressMap ↔
      (∃ b r reg, t = .reg b reg ∧ s.regAddr b r = some addr ∧ s.regAt b r = some reg) ∨
        ∃ g b n, t = .pull g b n ∧ s.pullAddr g b n = some addr ∧ s.pullOk g b n = true := by
  simp only [State.addressMap, List.mem_append, List.mem_flatMap, List.mem_filterMap,
    List.mem_zipIdx_iff_getElem?, Option.map_eq_some_iff, Prod.exists, Option.ite_none_right_eq_some,
    Option.some.injEq, Prod.mk.injEq]
  constructor
  · rintro (⟨k, b, hb, (⟨off, r, hoff, reg, hreg, haddr, rfl⟩ | ⟨_, n, ha, hok, rfl, rfl⟩) |
      ⟨_, n, ha, hok, rfl, rfl⟩⟩ | ⟨_, n, ha, hok, rfl, rfl⟩)
    · exact .inl ⟨b, r, reg, rfl, regAddr_eq_some.2 ⟨k, off, hb, hoff, haddr⟩,
        (regAt_eq_some hb r).trans hreg⟩
    · exact .inr ⟨.grf, b, n, rfl, Option.bind_eq_some_iff.2 ⟨k, hb, ha⟩, hok⟩
    · exact .inr ⟨.wm, b, n, rfl, Option.bind_eq_some_iff.2 ⟨k, hb, ha⟩, hok⟩
    · exact .inr ⟨.pmu, 0, n, rfl, ha, hok⟩
  · rintro (⟨b, r, reg, rfl, haddr, hreg⟩ | ⟨g, b, n, rfl, haddr, hok⟩)
    · obtain ⟨k, off, hb, hoff, hsum⟩ := regAddr_eq_some.1 haddr
      rw [regAt_eq_some hb] at hreg
      exact .inl ⟨k, b, hb, .inl (.inl ⟨off, r, hoff, reg, hreg, hsum, rfl⟩)⟩
    · cases g with
      | pmu =>
        obtain rfl : b = 0 := pullExists_pmu hok
        exact .inr ⟨addr, n, haddr, hok, rfl, rfl⟩
      | grf =>
        obtain ⟨k, hb, ha⟩ := Option.bind_eq_some_iff.1 haddr
        exact .inl ⟨k, b, hb, .inl (.inr ⟨addr, n, ha, hok, rfl, rfl⟩)⟩
      | wm =>
        obtain ⟨k, hb, ha⟩ := Option.bind_eq_some_iff.1 haddr
        exact .inl ⟨k, b, hb, .inr ⟨addr, n, ha, hok, rfl, rfl⟩⟩

/-- A search by key in a list in which no key is twice finds the entry that is there. -/
theorem find_key_of_mem {β : Type} {l : List (Nat × β)} {x : Nat} {y : β}
    (hl : (l.map (·.1)).Nodup) (h : (x, y) ∈ l) : l.find? (fun e => e.1 == x) = some (x, y) := by
  induction l with
  | nil => cases h
  | cons e rest ih =>
    rw [List.map_cons, List.nodup_cons] at hl
    rcases List.mem_cons.1 h with rfl | hm
    · simp
    · have hne : (e.1 == x) = false := by
        rw [beq_eq_false_iff_ne]
        rintro rfl
        exact hl.1 (List.mem_map.2 ⟨_, hm, rfl⟩)
      rw [List.find?_cons, hne]
      exact ih hl.2 hm

/-- With no two registers at one address, an address names the register that is there. -/
theorem busTarget_of_mem {addr : Nat} {t : BusTarget} (hs : s.addressesOk = true)
    (h : (addr, t) ∈ s.addressMap) : s.busTarget addr = some t := by
  simp only [State.addressesOk, Bool.and_eq_true, decide_eq_true_eq] at hs
  rw [State.busTarget, find_key_of_mem hs.2 h, Option.map_some]

/-- An address of no register names none. -/
theorem busTarget_none {addr : Nat} (h : ∀ t, (addr, t) ∉ s.addressMap) :
    s.busTarget addr = none := by
  rw [State.busTarget, Option.map_eq_none_iff, List.find?_eq_none]
  rintro ⟨x, t⟩ hm hx
  obtain rfl : x = addr := beq_iff_eq.1 hx
  exact h t hm

/-! ### Raw accesses -/

section
variable {a : Agent} {addr : Nat} {rest : List Input} (ht : s.tableOk = true)
include ht

/-- A raw word read is the run of the read at that address. -/
theorem step_busRead (hi : s.inputs = .busRead a addr 4 :: rest) :
    step s = runOp (busReadPlan s addr) { s with inputs := rest, actor := a } := by
  rw [step_input ht hi, applyInput, if_pos rfl]
  rfl

/-- A raw write of a word's bytes is the run of the write of that word at that address. -/
theorem step_busWrite {v : Word}
    (hi : s.inputs = .busWrite a addr (wordBytes s.cfg.busEndian v) :: rest) :
    step s = runOp (busWritePlan s addr v) { s with inputs := rest, actor := a } := by
  have hw : wholeWord s.cfg.busEndian (wordBytes s.cfg.busEndian v) = some v := by
    have htake := takeWord_wordBytes s.cfg.busEndian v []
    rw [List.append_nil] at htake
    simp only [wholeWord, htake]
  rw [step_input ht hi, applyInput]
  simp only [hw]
  rfl

end

/-- The steps of the raw accesses at the address of a bank register are those of `REG_READ` and
`REG_WRITE`. -/
theorem busPlans_reg {addr r : Nat} (hs : s.addressesOk = true) (ha : s.regAddr b r = some addr)
    (hr : (s.regAt b r).isSome = true) :
    busReadPlan s addr = planRegRead b r s ∧
      ∀ v, busWritePlan s addr v = planRegWrite b r v s := by
  obtain ⟨reg, hreg⟩ := Option.isSome_iff_exists.1 hr
  have htarget := busTarget_of_mem hs (mem_addressMap.2 (.inl ⟨b, r, reg, rfl, ha, hreg⟩))
  simp [busReadPlan, busWritePlan, htarget, planRegRead, planRegWrite, onReg_some hreg]

/-- The steps of the raw accesses at the address of a pull register are those of `WM_READ` and
`WM_WRITE`. -/
theorem busPlans_pull {addr n : Nat} {g : PullRegion} (hs : s.addressesOk = true)
    (ha : s.pullAddr g b n = some addr) (hok : s.pullOk g b n = true) :
    busReadPlan s addr = planWmRead g b n s ∧
      ∀ v, busWritePlan s addr v = planWmWrite g b n v s := by
  have htarget := busTarget_of_mem hs (mem_addressMap.2 (.inr ⟨g, b, n, rfl, ha, hok⟩))
  simp [busReadPlan, busWritePlan, htarget, planWmRead, planWmWrite, State.onPull, hok]

/-- At an address of no register they are the check that fails. -/
theorem busPlans_none {addr : Nat}
    (hreg : ∀ b r, (s.regAt b r).isSome = true → s.regAddr b r ≠ some addr)
    (hpull : ∀ g b n, s.pullOk g b n = true → s.pullAddr g b n ≠ some addr) :
    busReadPlan s addr = [.raiseFault .invalidRegister] ∧
      ∀ v, busWritePlan s addr v = [.raiseFault .invalidRegister] := by
  have htarget : s.busTarget addr = none := by
    refine busTarget_none fun t hm => ?_
    rcases mem_addressMap.1 hm with ⟨b, r, reg, -, ha, hr⟩ | ⟨g, b, n, -, ha, hok⟩
    · exact hreg b r (Option.isSome_iff_exists.2 ⟨reg, hr⟩) ha
    · exact hpull g b n hok ha
  simp [busReadPlan, busWritePlan, htarget]

/-! ### Setting bits -/

/-- The word `SET_BITS` writes, lane by lane (R114). -/
theorem setBitsWord_lane (w m : Word) (enable : Bool) (hi : i < 32) :
    (setBitsWord w m enable).getLsbD i = if m.getLsbD i then enable else w.getLsbD i := by
  cases enable
  · simp only [setBitsWord, Bool.false_eq_true, if_false, BitVec.getLsbD_and, BitVec.getLsbD_not, hi]
    cases m.getLsbD i <;> simp
  · simp only [setBitsWord, if_true, BitVec.getLsbD_or]
    cases m.getLsbD i <;> simp

/-! ### What sets and clears a latch -/

/-- Edge detection clears no latch. -/
theorem edgeDetect_keeps_latch (k : Bank) (h : k'.latch.getLsbD i = true) :
    (edgeDetect k k').latch.getLsbD i = true := by
  simp [edgeDetect, h]

/-- Of an agent's writes of a bank only one to `EOI` clears a latch, and only in a lane where the value
has a 1 (R250). -/
theorem BankWrite.clears_latch {a : Agent} {l : Locals} {m : Micro} (hw : BankWrite a l m b k k')
    (h : k.latch.getLsbD i = true) (h' : k'.latch.getLsbD i = false) :
    ∃ e, m = .busWrite b .eoi e ∧ (l.eval e).getLsbD i = true := by
  have hi : i < 32 := BitVec.lt_of_getLsbD h
  have hkeep : k'.latch ≠ k.latch := by
    intro heq
    rw [heq, h] at h'
    cases h'
  cases hw with
  | written r e hc hm =>
    have hstore : (k.store r (l.eval e)).latch.getLsbD i = false := by
      rw [← Bool.not_eq_true]
      intro hset
      rw [edgeDetect_keeps_latch k hset] at h'
      cases h'
    rw [store_latch_lane k r _ hi, h] at hstore
    simp only [Bool.true_and, Bool.not_eq_false', Bool.and_eq_true, decide_eq_true_eq] at hstore
    obtain ⟨⟨rfl, -⟩, hlane⟩ := hstore
    exact ⟨e, hm, hlane⟩
  | soft f e => cases f <;> exact absurd rfl hkeep
  | _ => exact absurd rfl hkeep

/-- A pass's own step touches no latch. -/
theorem PassWrite.latch (hw : PassWrite k k') : k'.latch = k.latch := by
  cases hw <;> rfl

/-- The environment's step on a bank, lane by lane (R247). -/
theorem setEnv_latch_lane (k : Bank) (v : Word) (hi : i < 32) :
    (k.setEnv v).latch.getLsbD i = (k.latch.getLsbD i || k.edgeLane (k.setEnv v) i) := by
  have hnew := newLatches_lane (k := k) (k' := { k with env := v }) rfl hi
  rw [Bank.setEnv, edgeDetect, BitVec.getLsbD_or, hnew]
  rfl

/-- What a bank is after another list entry, or it, has been written. -/
theorem getElem?_set_cases {l : List Bank} {c : Nat} {q : Bank} (hb : l[b]? = some k)
    (hb' : (l.set c q)[b]? = some k') : (b = c ∧ k' = q) ∨ (b ≠ c ∧ k' = k) := by
  by_cases hc : c = b
  · subst hc
    obtain ⟨hlt, -⟩ := List.getElem?_eq_some_iff.1 hb
    rw [List.getElem?_set_self hlt] at hb'
    exact .inl ⟨rfl, (Option.some.inj hb').symm⟩
  · rw [List.getElem?_set_ne hc, hb] at hb'
    exact .inr ⟨Ne.symm hc, (Option.some.inj hb').symm⟩

/-! ### The guarded rewrite of the polarity -/

/-- The rewrite run through: while the polarity is written every enable is 0, and a write of the enables
changes no active sense, so no write of it latches anything (R199, R205, R247). -/
theorem runPlan_updatePlan {a : Agent} {rest : List Micro} (pol : Word) (c : Ctx)
    (hb : s.banks[b]? = some k) (hl : k.lock = none) (hc : k.clockOn = true) :
    ∃ l, runPlan a (updatePlan b pol ++ rest) (s.setCtx a c) =
      runPlan a rest ((s.setBank b { k with
        intpol := pol &&& k.pinMask, inten := k.inten &&& k.pinMask }).setCtx a
        { c with plan := rest, loc := l }) := by
  have hbank := fun q => banks_setBank_same s b q k hb
  have hrestored : ({ k with
      intpol := pol &&& k.pinMask, inten := k.inten &&& k.pinMask &&& k.pinMask, lock := none } :
        Bank) = { k with intpol := pol &&& k.pinMask, inten := k.inten &&& k.pinMask } := by
    rw [BitVec.and_assoc, BitVec.and_self, ← hl]
  refine ⟨{ c.loc with v := k.inten &&& k.pinMask }, ?_⟩
  simp only [updatePlan, List.cons_append, List.nil_append]
  rw [runPlan_lock hb hl,
    runPlan_busRead (hbank _) (busRead_stored (by exact hc) (by decide)),
    runPlan_busWrite (hbank _) (by exact hc), setBank_setBank, inten_bank,
    runPlan_busWrite (hbank _) (by exact hc), setBank_setBank,
    edgeDetect_disabled (by simp [Bank.store, Locals.eval]),
    runPlan_busWrite (hbank _) (by exact hc), setBank_setBank, inten_bank,
    runPlan_unlock (hbank _) rfl, setBank_setBank, ← hrestored]
  rfl

/-! ### The conditions of delivery -/

theorem isActive_eq_false {p : Pass} : p.isActive = false ↔ p = .idle := by
  cases p <;> simp [Pass.isActive]

/-- The line of a bank is asserted when its clock is on and a pin is pending (R251, R263). -/
theorem line_eq_true : k.line = true ↔ k.clockOn = true ∧ k.status ≠ 0 := by
  simp [Bank.line]

theorem heldOnCore_eq_true {core : Nat} {l : Option Agent} :
    s.heldOnCore core l = true ↔ ∃ n, l = some (.call n) ∧ s.coreOf (.call n) = core := by
  match l with
  | none => simp [State.heldOnCore]
  | some (.irq b) => simp [State.heldOnCore]
  | some (.call n) => simp [State.heldOnCore]

/-- The calls on a core let a pass start there (R254, R260). -/
theorem coreFree_eq_true {core : Nat} : s.coreFree core = true ↔
    (∀ k' ∈ s.banks, ∀ n, k'.lock = some (.call n) → s.coreOf (.call n) ≠ core) ∧
      (s.cfg.nestedDispatch = false → ∀ n c, (.call n, c) ∈ s.ctxs →
        s.coreOf (.call n) = core → c.plan = []) := by
  have hlocks : (s.banks.any fun q => s.heldOnCore core q.lock) = false ↔
      ∀ k' ∈ s.banks, ∀ n, k'.lock = some (.call n) → s.coreOf (.call n) ≠ core := by
    simp only [List.any_eq_false, heldOnCore_eq_true, not_exists, not_and, ne_eq]
  rw [State.coreFree, Bool.and_eq_true, Bool.not_eq_true', hlocks, Bool.or_eq_true,
    List.all_eq_true]
  refine and_congr_right fun _ => ⟨fun h hnest n c hm hcore => ?_, fun h => ?_⟩
  · simpa [hcore] using h.resolve_left (by simp [hnest]) (.call n, c) hm
  · cases hnest : s.cfg.nestedDispatch with
    | true => exact .inl rfl
    | false =>
      refine .inr fun x hm => ?_
      obtain ⟨n | c, e⟩ := x
      · by_cases hcore : s.coreOf (.call n) = core
        · simp [h hnest n e hm hcore]
        · simp [hcore]
      · rfl

/-! ### A lost update -/

/-- Agent 0 has begun to set bit 0 of bank 0's `DIR`. -/
def raceFirst : State :=
  State.beginPlan { State.reset with actor := .call 0 } (.call 0) (planSetBits 0 0 true 1 State.reset)

/-- Agent 1 has begun to set bit 1. -/
def raceSecond : State :=
  State.beginPlan { raceFirst with actor := .call 1 } (.call 1) (planSetBits 0 0 true 2 State.reset)

/-- Each agent has read `DIR`, in which no bit is set. -/
def raceRead : State := (raceSecond.advance (.call 0)).advance (.call 1)

/-! ### The statements -/

/-- Settles O9: the access has the steps of the operation on the register that is at the address, or of
a check that fails. -/
theorem busAddressNamesTheRegister : Obligations.BusAddressNamesTheRegister := by
  intro s a addr rest ht hs
  refine ⟨fun b r ha hr => ?_, fun g b n ha hok => ?_, fun hreg hpull hc => ?_⟩
  · obtain ⟨hread, hwrite⟩ := busPlans_reg hs ha hr
    exact ⟨fun hi => by rw [step_busRead ht hi, hread]; rfl,
      fun v hi => by rw [step_busWrite ht hi, hwrite]; rfl⟩
  · obtain ⟨hread, hwrite⟩ := busPlans_pull hs ha hok
    exact ⟨fun hi => by rw [step_busRead ht hi, hread]; rfl,
      fun v hi => by rw [step_busWrite ht hi, hwrite]; rfl⟩
  · obtain ⟨hread, hwrite⟩ := busPlans_none hreg hpull
    have hstop := runOp_raiseFault (s := { s with inputs := rest, actor := a })
      (f := .invalidRegister) hc
    exact ⟨fun hi => ⟨_, _, by rw [step_busRead ht hi, hread, hstop]⟩,
      fun v hi => ⟨_, _, by rw [step_busWrite ht hi, hwrite, hstop]⟩⟩

/-- Settles O13: the read gives the register's lanes, and the write is one bus write of them with the
mask's lanes set or cleared. -/
theorem setBitsChangesExactlyTheMaskLanes : Obligations.SetBitsChangesExactlyTheMaskLanes := by
  intro s b r enable mask hbegin
  refine ⟨fun reg k hreg hb hc => ?_, fun reg k hreg hb hc => ?_, fun hnone => ?_⟩
  · obtain ⟨w, hw⟩ := busRead_clocked (k := k) reg hc
    refine ⟨setBitsWord w mask enable, _, fun i hi => ?_, writtenBy_busWrite k reg _, ?_⟩
    · rw [setBitsWord_lane w mask enable hi, busRead_lane hw hi]
    · have hplan : planSetBits b r enable mask s = setBitsPlan b reg mask enable ++ [.ret .done] :=
        onReg_some hreg
      rw [exec, execSetBits, hplan, runOp_eq hbegin, runPlan_setBits hb hc hw, runPlan_ret,
        runPlan_nil, State.ended, setBank_actor]
  · have hplan : planSetBits b r enable mask s = setBitsPlan b reg mask enable ++ [.ret .done] :=
      onReg_some hreg
    rw [exec, execSetBits, hplan]
    exact ⟨_, _, runOp_first_faults hbegin fun _ => microStep_busRead_gated reg hb hc⟩
  · exact runOp_onReg_invalid hbegin hnone

/-- Settles O43: the step is the environment's write of the bank, whose new latches are the lanes'
edges. -/
theorem environmentStepLatchesTheEdges : Obligations.EnvironmentStepLatchesTheEdges := by
  intro s b v rest k ht hi hb
  refine ⟨k.setEnv v, rfl, fun i hi => setEnv_latch_lane k v hi, ?_⟩
  rw [step_input ht hi, applyInput]
  simp only [State.setEnv, hb]
  rfl

/-- Settles O44: an atomic step writes at most one bank, and of the ways it can only the write to `EOI`
clears a latch. A pass touches none, and edge detection only sets them. -/
theorem onlyAnAcknowledgeClearsALatch : Obligations.OnlyAnAcknowledgeClearsALatch := by
  refine ⟨fun a m s s' b i k k' hm hb hb' h h' => ?_, fun c s s' b i k k' hm hb hb' h => ?_,
    fun c v s b i k k' hb hb' h => ?_⟩
  · rcases (microStep_ok hm).banks with hbanks | ⟨c, q, q', hq, hw, hbanks⟩
    · rw [hbanks, hb] at hb'
      cases hb'
      rw [h] at h'
      cases h'
    · rw [hbanks] at hb'
      rcases getElem?_set_cases hb hb' with ⟨rfl, rfl⟩ | ⟨-, rfl⟩
      · cases hb.symm.trans hq
        exact hw.clears_latch h h'
      · rw [h] at h'
        cases h'
  · obtain ⟨q, q', hq, hw, hbanks⟩ := (passStep_ok hm).banks
    rw [hbanks] at hb'
    rcases getElem?_set_cases hb hb' with ⟨rfl, rfl⟩ | ⟨-, rfl⟩
    · cases hb.symm.trans hq
      rwa [hw.latch]
    · exact h
  · unfold State.setEnv at hb'
    split at hb'
    case h_1 q hq =>
      rcases getElem?_set_cases hb hb' with ⟨rfl, rfl⟩ | ⟨-, rfl⟩
      · cases hb.symm.trans hq
        exact edgeDetect_keeps_latch k h
      · exact h
    case h_2 => cases hb.symm.trans hb'; exact h

/-- Settles O45: the rewrite is the whole of the steps that run. -/
theorem guardedRewriteSetsNoLatch : Obligations.GuardedRewriteSetsNoLatch := by
  intro b s k pol hb hl hc _
  rw [State.drain, setPlan_eq, ctx_setCtx_same]
  obtain ⟨l, h⟩ := runPlan_updatePlan (a := .irq b) (rest := []) pol
    { s.ctx (.irq b) with plan := updatePlan b pol } hb hl hc
  rw [List.append_nil] at h
  exact ⟨l, h⟩

/-- Settles O49: each conjunct of the delivery test. -/
theorem deliveryConditions : Obligations.DeliveryConditions := by
  intro s b k hb
  simp only [State.deliverable, hb, Bool.and_eq_true, Bool.not_eq_true', isActive_eq_false,
    line_eq_true, coreFree_eq_true, and_assoc]

/-- Settles O60: both agents read `DIR` before either writes it, so the second write drops the bit that
the first has set. -/
theorem rawSetBitsCanLoseAnUpdate : Obligations.RawSetBitsCanLoseAnUpdate := by
  refine ⟨State.reset, raceFirst, raceSecond, raceRead, raceRead.runOn (.call 0),
    (raceRead.runOn (.call 0)).runOn (.call 1), ?_, ?_, ?_, rfl, rfl, rfl, rfl, ?_, rfl, ?_, ?_, ?_⟩ <;>
  decide

end Sys2Proof.Machine
end

section
/-! PROOFS. The pin operations: each is the steps of the pin it resolves to, most of them writes of one
bit under the bank's lock (spec/41_pin_config.md R130 to R141, spec/42_irq_chip.md R170 to R173). -/

namespace Sys2Proof.Machine

open Sys2Proof

variable {s : State} {b i pin : Nat} {k : Bank}

/-! ### Operations that end with a code -/

/-- Every pin operation is the run of its steps on the pin it resolves to (R130). -/
theorem exec_pinOp {x : Instr} {p : Nat} (hx : pinOperand x = some p) (s : State) :
    ∃ f, exec x s = runOp (s.onPin p f) s := by
  cases x <;> cases hx <;> exact ⟨_, rfl⟩

/-- The codes past the last trigger kind name none (R92). -/
theorem triggerOfCode_none {c : Nat} (h : 4 < c) : triggerOfCode c = none := by
  match c with
  | 0 | 1 | 2 | 3 | 4 => omega
  | n + 5 => rfl

/-- The codes past the last pull mode name none (R93). -/
theorem pullOfCode_none {c : Nat} (h : 3 < c) : pullOfCode c = none := by
  match c with
  | 0 | 1 | 2 | 3 => omega
  | n + 4 => rfl

/-- A mode that a layout with pull fields gives no value has no steps (R134). -/
theorem pullPlan_none {m : PullMode} (hv : s.cfg.variant ≠ .pullGeneric)
    (hm : pull2Value s.cfg.pull2Enc m = none) : pullPlan s b i m = none := by
  unfold pullPlan
  cases hvar : s.cfg.variant with
  | pullGeneric => exact absurd hvar hv
  | pullPmuSplit => simp [hm]
  | pullWritemask => simp [hm]

/-- `SET_PULL` of what the layout cannot represent is the code `UnsupportedPull` (R134). -/
theorem planSetPull_none {code : Nat} (hr : s.resolvePin pin = some (b, i))
    (h : (pullOfCode code).bind (pullPlan s b i) = none) :
    planSetPull pin code s = codePlan .unsupportedPull := by
  simp [planSetPull, onPin_some hr, h]

/-- `SET_PULL` of what the layout represents. -/
theorem planSetPull_some {code : Nat} {m : PullMode} {p : List Micro}
    (hr : s.resolvePin pin = some (b, i)) (hm : pullOfCode code = some m)
    (hp : pullPlan s b i m = some p) : planSetPull pin code s = p := by
  simp [planSetPull, onPin_some hr, hm, hp]

/-! ### One pull field -/

/-- A pull field of layouts 2 and 3 is written in one step, with no lock (R136, R137). -/
theorem runOp_pullFieldPlan {at_ : PullPlace} {val : BitVec 2} {d : Half}
    (hbegin : s.canBegin s.actor = true) (hd : s.pullData at_.region b at_.group = some d) :
    runOp (pullFieldPlan b at_ val) s = .next ((s.setPullData at_.region b at_.group
      (maskedWrite d (writeMaskWord at_.shift val))).ended (.code .ok)) := by
  rw [runOp_eq hbegin, pullFieldPlan, runPlan_pullWrite _ hd, runPlan_ret, runPlan_nil, State.ended,
    setPullData_actor]

/-- A bank that exists has in its regions the group of each of its pins (R36, R37). -/
theorem pin_group_lt (ht : s.tableOk = true) (hr : s.resolvePin pin = some (b, i)) :
    b < s.nbanks ∧ i / 8 < 4 := by
  obtain ⟨k, hb, -, hi⟩ := resolvePin_some hr
  obtain ⟨hlt, -⟩ := List.getElem?_eq_some_iff.1 hb
  have hcount := pinCount_le ht hb
  exact ⟨hlt, by omega⟩

/-! ### One bit of one register -/

/-- A pin's bit written is written in the stored register, which no other write touches (R113,
R119). -/
theorem putBit_lane (k : Bank) {r : Reg} (mine : Reg) (i : Nat) {j : Nat} (x : Bool) (hj : j < 32)
    (h : r ≠ .ext ∧ r ≠ .intstatus ∧ r ≠ .eoi) :
    ((k.putBit r i x).stored mine).getLsbD j =
      if mine = r then k.hasLane j && (if j = i then x else (k.stored r).getLsbD j)
      else (k.stored mine).getLsbD j := by
  have hstored : (k.putBit r i x).stored mine = (k.store r (setBit (k.stored r) i x)).stored mine := by
    cases mine <;> rfl
  rw [hstored]
  by_cases hm : mine = r
  · subst hm
    rw [if_pos rfl, store_stored_same k _ h, and_pinMask_lane k _ hj, setBit_lane _ _ _ hj]
  · rw [if_neg hm, store_stored_other k _ (Ne.symm hm)]

/-- Setting bits by a read and a write of a software field. -/
theorem eval_setBit (l : Locals) (i : Nat) (x : Bool) :
    l.eval (if x then .setMask (oneHot i) else .clearMask (oneHot i)) = setBit l.v i x := by
  cases x <;> rfl

/-- The bit of `INTPOL` that is the complement of the level read (R138). -/
theorem runPlan_putBit_notFlag {a : Agent} {c : Ctx} {rest : List Micro}
    (hb : s.banks[b]? = some k) (hc : k.clockOn = true) :
    runPlan a (.busRead b .intpol :: .busWrite b .intpol (.setNotFlag (oneHot i)) :: rest)
        (s.setCtx a c) =
      runPlan a rest ((s.setBank b (k.putBit .intpol i (!c.loc.flag))).setCtx a
        { c with plan := rest, loc := { c.loc with v := k.stored .intpol &&& k.pinMask } }) := by
  have hput : k.putBit .intpol i (!c.loc.flag) = edgeDetect k
      (k.store .intpol (setBitsWord (k.stored .intpol &&& k.pinMask) (oneHot i) (!c.loc.flag))) := by
    rw [store_setBitsWord k i _ (by decide), Bank.putBit]
  rw [runPlan_busRead hb (busRead_stored hc (by decide)), runPlan_busWrite hb hc, hput]
  cases hf : c.loc.flag <;> simp [Locals.eval, setBitsWord, hf]

/-! ### The trigger types -/

/-- A bank after `SET_TRIGGER_TYPE` of a single kind (R138). -/
def Bank.singleKind (k : Bank) (i : Nat) (edge high : Bool) : Bank :=
  { ((k.putBit .dir i false).putBit .inttype i edge).putBit .intpol i high with
    toggleEdgeMask := setBit k.toggleEdgeMask i false }

/-- A bank after `SET_TRIGGER_TYPE` of both edges: the level is read once the pin is an input (R138,
R139). -/
def Bank.bothEdges (k : Bank) (i : Nat) : Bank :=
  { ((k.putBit .dir i false).putBit .inttype i true).putBit .intpol i
      (!(k.putBit .dir i false).padLane i) with
    toggleEdgeMask := setBit k.toggleEdgeMask i true }

/-- The level read by a clocked bank's `EXT` is the pad's (R25, R133). -/
theorem runPlan_readPad {a : Agent} {c : Ctx} {rest : List Micro} (hb : s.banks[b]? = some k)
    (hc : k.clockOn = true) (hi : i < 32) :
    runPlan a (.readLevel b i :: rest) (s.setCtx a c) =
      runPlan a rest (s.setCtx a
        { c with plan := rest, loc := { c.loc with flag := k.padLane i } }) := by
  rw [runPlan_readLevel hb (busRead_ext hc), busRead_lane (busRead_ext hc) hi]
  rfl

section
variable {a : Agent} {c : Ctx} {rest : List Micro} (hb : s.banks[b]? = some k)
  (hc : k.clockOn = true)
include hb hc

/-- The steps of a single kind, run through. -/
theorem runPlan_singleKind (edge high : Bool) :
    ∃ l, runPlan a ((setBitsPlan b .dir (oneHot i) false ++ triggerPlan b (oneHot i) edge high) ++
        rest) (s.setCtx a c) =
      runPlan a rest ((s.setBank b (k.singleKind i edge high)).setCtx a
        { c with plan := rest, loc := l }) := by
  have hbank := fun q => banks_setBank_same s b q k hb
  refine ⟨{ c.loc with v := k.toggleEdgeMask }, ?_⟩
  simp only [triggerPlan, List.append_assoc, List.cons_append, List.nil_append]
  rw [runPlan_putBit hb hc (by decide), runPlan_putBit (hbank _) (by simpa using hc) (by decide),
    setBank_setBank, runPlan_putBit (hbank _) (by simpa using hc) (by decide), setBank_setBank,
    runPlan_softRead (hbank _), runPlan_softWrite (hbank _), setBank_setBank]
  rfl

/-- The steps of both edges, run through. -/
theorem runPlan_bothEdges (hi : i < 32) :
    ∃ l, runPlan a ((setBitsPlan b .dir (oneHot i) false ++ edgeBothPlan b i) ++ rest)
        (s.setCtx a c) =
      runPlan a rest ((s.setBank b (k.bothEdges i)).setCtx a
        { c with plan := rest, loc := l }) := by
  have hbank := fun q => banks_setBank_same s b q k hb
  refine ⟨{ c.loc with v := k.toggleEdgeMask, flag := (k.putBit .dir i false).padLane i }, ?_⟩
  simp only [edgeBothPlan, List.append_assoc, List.cons_append, List.nil_append]
  rw [runPlan_putBit hb hc (by decide), runPlan_readPad (hbank _) (by simpa using hc) hi,
    runPlan_putBit (hbank _) (by simpa using hc) (by decide), setBank_setBank,
    runPlan_putBit_notFlag (hbank _) (by simpa using hc), setBank_setBank,
    runPlan_softRead (hbank _), runPlan_softWrite (hbank _), setBank_setBank]
  rfl

end

/-- The lock plays no part in setting a trigger type. -/
theorem singleKind_lock (k : Bank) (l : Option Agent) (edge high : Bool) :
    ({ k with lock := l } : Bank).singleKind i edge high =
      { k.singleKind i edge high with lock := l } := by
  simp only [Bank.singleKind, putBit_lock]

theorem bothEdges_lock (k : Bank) (l : Option Agent) :
    ({ k with lock := l } : Bank).bothEdges i = { k.bothEdges i with lock := l } := by
  simp only [Bank.bothEdges, putBit_lock]
  rfl

/-- Steps under the lock of a bank that was free: what they do to the bank they do to it unlocked. -/
theorem runOp_lockedOk_free {p : List Micro} {f : Bank → Bank}
    (hbegin : s.canBegin s.actor = true) (hb : s.banks[b]? = some k) (hl : k.lock = none)
    (hf : ∀ l, f { k with lock := l } = { f k with lock := l })
    (hp : ∀ rest c, ∃ l,
      runPlan s.actor (p ++ rest)
        ((s.setBank b { k with lock := some s.actor }).setCtx s.actor c) =
      runPlan s.actor rest ((s.setBank b (f { k with lock := some s.actor })).setCtx s.actor
        { c with plan := rest, loc := l })) :
    runOp (lockedOk b p) s = .next ((s.setBank b (f k)).ended (.code .ok)) := by
  rw [runOp_lockedOk (f := f) hbegin hb hl (by rw [hf]) fun rest c _ => hp rest c, hf]
  have hk : f k = { f k with lock := none } := by
    rw [← hf, ← hl]
  rw [hk]

/-! ### The pin-multiplexing controller -/

/-- A request and its verdict (R140). -/
theorem runPlan_pinmux {a : Agent} {c : Ctx} {rest : List Micro} :
    runPlan a (.pinmux pin :: rest) (s.setCtx a c) =
      runPlan a rest ((s.drawVerdict.2.emit (.pinmuxRequest pin)).setCtx a
        { c with plan := rest, loc := { c.loc with flag := s.drawVerdict.1 } }) := by
  rw [runPlan_cons_ok rfl]
  unfold State.drawVerdict
  cases hv : s.verdicts <;>
    simp [hv, State.setLoc, State.setPlan, State.setCtx, State.emit, State.ctx,
      lookupCtx_putCtx_same, putCtx_putCtx]

theorem runPlan_retVerdict {a : Agent} {c : Ctx} {rest : List Micro} :
    runPlan a (.retVerdict :: rest) (s.setCtx a c) =
      runPlan a rest (s.setCtx a { c with
        plan := rest, loc := {}
        result := some (.code (if c.loc.flag then .ok else .requestRefused)) }) := by
  simp [runPlan, microStep, State.returned, State.setPlan]

/-! ### Interrupt numbers -/

/-- What a number is taken back to: a bank whose range of numbers holds it, and the offset there
(R91). -/
theorem irqToPinFrom_some {c n : Nat} {l : List Bank} {b i : Nat}
    (h : irqToPinFrom c n l = some (b, i)) :
    ∃ k, c ≤ b ∧ l[b - c]? = some k ∧ k.row.baseIrq + i = n ∧ i < k.row.pinCount := by
  induction l generalizing c with
  | nil => simp [irqToPinFrom] at h
  | cons k rest ih =>
    simp only [irqToPinFrom] at h
    split at h
    · obtain ⟨rfl, rfl⟩ : c = b ∧ n - k.row.baseIrq = i := by simpa using h
      exact ⟨k, le_refl _, by simp, by omega, by omega⟩
    · obtain ⟨k', hc, hk, hp, hi⟩ := ih h
      refine ⟨k', by omega, ?_, hp, hi⟩
      rw [show b - c = (b - (c + 1)) + 1 by omega]
      simpa using hk

/-- A number that is not taken back is in no bank's range (R91). -/
theorem irqToPinFrom_none {c n : Nat} {l : List Bank} (h : irqToPinFrom c n l = none) :
    ∀ k ∈ l, ¬(k.row.baseIrq ≤ n ∧ n < k.row.baseIrq + k.row.pinCount) := by
  induction l generalizing c with
  | nil => simp
  | cons k rest ih =>
    simp only [irqToPinFrom] at h
    split at h
    · simp at h
    · exact List.forall_mem_cons.2 ⟨‹_›, ih h⟩

/-- The ranges of numbers of two banks do not overlap (R33 (c)). -/
theorem irqRanges_apart {b c : Nat} {k q : Bank} (ht : s.tableOk = true)
    (hb : s.banks[b]? = some k) (hc : s.banks[c]? = some q) (hlt : b < c) :
    k.row.baseIrq + k.row.pinCount ≤ q.row.baseIrq ∨
      q.row.baseIrq + q.row.pinCount ≤ k.row.baseIrq := by
  have hpair := (tableOk_rows ht).2
  rw [State.rows, List.pairwise_map, List.pairwise_iff_getElem] at hpair
  obtain ⟨hbl, rfl⟩ := List.getElem?_eq_some_iff.1 hb
  obtain ⟨hcl, rfl⟩ := List.getElem?_eq_some_iff.1 hc
  have hapart := hpair b c hbl hcl hlt
  simp only [rowsApart, Bool.and_eq_true, Bool.or_eq_true, decide_eq_true_eq] at hapart
  exact hapart.2

/-- The number of a bank's pin is taken back to that pin: the search stops at some bank, and no other
bank's range holds the number (R91). -/
theorem irqToPin_of_pin (ht : s.tableOk = true) (hb : s.banks[b]? = some k)
    (hi : i < k.row.pinCount) : s.irqToPin (k.row.baseIrq + i) = some (b, i) := by
  cases hr : s.irqToPin (k.row.baseIrq + i) with
  | none =>
    exact absurd ⟨by omega, by omega⟩ (irqToPinFrom_none hr k (List.mem_of_getElem? hb))
  | some cj =>
    obtain ⟨c, j⟩ := cj
    obtain ⟨q, -, hc, hn, hj⟩ := irqToPinFrom_some hr
    rw [Nat.sub_zero] at hc
    obtain rfl : b = c := by
      rcases Nat.lt_trichotomy b c with hlt | heq | hgt
      · have := irqRanges_apart ht hb hc hlt
        omega
      · exact heq
      · have := irqRanges_apart ht hc hb hgt
        omega
    cases hb.symm.trans hc
    rw [show i = j by omega]

/-! ### Operations one after the other -/

/-- An agent whose operation has ended, having written one bank, may begin the next. -/
theorem canBegin_ended {k' : Bank} {r : OpResult} (hbegin : s.canBegin s.actor = true)
    (hb : s.banks[b]? = some k) (hk : k'.freezing = k.freezing) :
    ((s.setBank b k').ended r).canBegin ((s.setBank b k').ended r).actor = true :=
  canBegin_congr (map_freezing_set hb hk) rfl (by simp [State.ended]) (by simp [State.ended])
    hbegin

theorem putBit_freezing (k : Bank) (r : Reg) (i : Nat) (x : Bool) :
    (k.putBit r i x).freezing = k.freezing := by
  simp [Bank.freezing, Bank.putBit]

/-! ### The statements -/

/-- Settles O25: every pin operation resolves its pin first. -/
theorem pinOutsideEveryBankIsOutOfRange : Obligations.PinOutsideEveryBankIsOutOfRange := by
  intro x p s hx hbegin hnone
  obtain ⟨f, hf⟩ := exec_pinOp hx s
  rw [hf, onPin_none hnone, runOp_codePlan hbegin]

/-- Settles O26: the write sets a lane of the stored word, and edge detection writes no register. -/
theorem pinBitWriteChangesOneLane : Obligations.PinBitWriteChangesOneLane :=
  fun k _ mine i _ x hj hext hstatus heoi => putBit_lane k mine i x hj ⟨hext, hstatus, heoi⟩

/-- Settles O27: the bit of `DIR` written under the lock. -/
theorem setDirectionWritesOneBit : Obligations.SetDirectionWritesOneBit := by
  intro s pin b i output k hbegin hr hb hl hc
  rw [exec, execSetDirection, planSetDirection, onPin_some hr]
  exact runOp_locked_putBit hbegin hb hl hc (by decide)

/-- Settles O28: the bit of `DR` written under the lock. -/
theorem setLevelWritesOneBit : Obligations.SetLevelWritesOneBit := by
  intro s pin b i level k hbegin hr hb hl hc
  rw [exec, execSetLevel, planSetLevel, onPin_some hr]
  exact runOp_locked_putBit hbegin hb hl hc (by decide)

/-- Settles O29: one read of `EXT`, whose lane is the pad's. -/
theorem getLevelReadsThePad : Obligations.GetLevelReadsThePad := by
  intro s pin b i k hbegin hr hb hi hc
  rw [exec, execGetLevel, planGetLevel, onPin_some hr, runOp_eq hbegin, runPlan_readPad hb hc hi,
    runPlan_retLevel, runPlan_nil, State.ended]

/-- Settles O30: each operation leaves the agent ready for the next, and the pad of an output pin is its
bit of `DR`. -/
theorem outputLevelRoundTrips : Obligations.OutputLevelRoundTrips := by
  intro s pin b i level k hbegin hr hb hi hl hc
  obtain ⟨q, hq, -, hpin⟩ := resolvePin_some hr
  cases hb.symm.trans hq
  have hb1 := banks_setBank_same s b (k.putBit .dir i true) k hb
  have hbegin1 := canBegin_ended (r := .code .ok) hbegin hb (putBit_freezing k .dir i true)
  have hr1 := (resolvePin_setBank (p := pin) hb (putBit_row k .dir i true)).trans hr
  have hb2 := banks_setBank_same ((s.setBank b (k.putBit .dir i true)).ended (.code .ok)) b
    ((k.putBit .dir i true).putBit .dr i level) _ hb1
  have hbegin2 := canBegin_ended (r := .code .ok) hbegin1 hb1
    (putBit_freezing (k.putBit .dir i true) .dr i level)
  have hr2 := (resolvePin_setBank (s := (s.setBank b (k.putBit .dir i true)).ended (.code .ok))
    (p := pin) hb1 (putBit_row (k.putBit .dir i true) .dr i level)).trans hr1
  refine ⟨_, _, setDirectionWritesOneBit s pin b i true k hbegin hr hb hl hc,
    setLevelWritesOneBit _ pin b i level _ hbegin1 hr1 hb1 (by simpa using hl) (by simpa using hc),
    ?_⟩
  rw [getLevelReadsThePad _ pin b i _ hbegin2 hr2 hb2 hi (by simpa using hc)]
  have hdir : ((k.putBit .dir i true).putBit .dr i level).dir.getLsbD i = true :=
    (putBit_lane _ .dir i level hi (by decide)).trans
      ((putBit_lane k .dir i true hi (by decide)).trans (by simp [Bank.hasLane, hpin]))
  have hdr : ((k.putBit .dir i true).putBit .dr i level).dr.getLsbD i = level :=
    (putBit_lane _ .dr i level hi (by decide)).trans (by simp [Bank.hasLane, hpin])
  have hpad : ((k.putBit .dir i true).putBit .dr i level).padLane i = level := by
    rw [Bank.padLane, hdir, hdr]
    simp [Bank.hasLane, hpin]
  rw [hpad]

/-- Settles O21: the bit of `PULL1` written under the lock. -/
theorem setPullGenericWritesOneBit : Obligations.SetPullGenericWritesOneBit := by
  intro s pin b i k hbegin hv hr hb hl hc
  have hplan : ∀ m, pullPlan s b i m = pullGenericPlan s b i m := fun m => by rw [pullPlan, hv]
  refine ⟨?_, ?_⟩
  · rw [exec, execSetPull, planSetPull_some (m := .disabled) hr rfl (hplan _)]
    exact runOp_locked_putBit hbegin hb hl hc (by decide)
  · rw [exec, execSetPull, planSetPull_some (m := .defaultEnabled) hr rfl (hplan _)]
    exact runOp_locked_putBit hbegin hb hl hc (by decide)

/-- Settles O22: the pin's place is in the PMU block or in the general one, and the register there
exists. -/
theorem setPullSplitWritesOneField : Obligations.SetPullSplitWritesOneField := by
  intro s pin code b i m val hbegin hv hpins ht hr hcode hval
  obtain ⟨hb, hgroup⟩ := pin_group_lt ht hr
  have hplan : pullPlan s b i m = some (pullFieldPlan b (pullPlaceSplit 12 b i) val) := by
    rw [pullPlan, hv]
    simp [hval, hpins]
  have hexec : exec (.setPull pin code) s = runOp (pullFieldPlan b (pullPlaceSplit 12 b i) val) s := by
    rw [exec, execSetPull, planSetPull_some hr hcode hplan]
  refine ⟨fun hb0 hi => ?_, fun hne => ?_⟩
  · subst hb0
    have hplace : pullPlaceSplit 12 0 i = ⟨.pmu, i / 8, i % 8 * 2⟩ := if_pos ⟨rfl, hi⟩
    obtain ⟨d, hd⟩ := pullExists_held (s := s) (g := .pmu) (b := 0) (n := i / 8)
      (decide_eq_true ⟨hv, rfl, by omega, hb⟩)
    exact ⟨d, hd, by rw [hexec, hplace]; exact runOp_pullFieldPlan hbegin hd⟩
  · have hplace : pullPlaceSplit 12 b i = ⟨.grf, i / 8, (7 - i % 8) * 2⟩ := if_neg hne
    obtain ⟨d, hd⟩ := pullExists_held (s := s) (g := .grf) (b := b) (n := i / 8)
      (decide_eq_true ⟨hv, hgroup, hb⟩)
    exact ⟨d, hd, by rw [hexec, hplace]; exact runOp_pullFieldPlan hbegin hd⟩

/-- Settles O23: the register of the pin's group exists, and its field is written in one step. -/
theorem setPullWritemaskWritesOneField : Obligations.SetPullWritemaskWritesOneField := by
  intro s pin code b i m val hbegin hv ht hr hcode hval
  obtain ⟨hb, hgroup⟩ := pin_group_lt ht hr
  have hplan : pullPlan s b i m = some (pullFieldPlan b (pullPlaceWm i) val) := by
    rw [pullPlan, hv]
    simp [hval]
  obtain ⟨d, hd⟩ := pullExists_held (s := s) (g := .wm) (b := b) (n := i / 8)
    (decide_eq_true ⟨hv, hgroup, hb⟩)
  refine ⟨d, hd, ?_⟩
  rw [exec, execSetPull, planSetPull_some hr hcode hplan]
  exact runOp_pullFieldPlan hbegin hd

/-- Settles O31: the writes of a single kind, under the lock. -/
theorem setTriggerTypeProgramsASingleKind : Obligations.SetTriggerTypeProgramsASingleKind := by
  intro s pin code b i edge high k hbegin hr hb hl hc hmem
  have hplan : planSetTriggerType pin code s =
      lockedOk b (setBitsPlan b .dir (oneHot i) false ++ triggerPlan b (oneHot i) edge high) := by
    simp only [List.mem_cons, Prod.mk.injEq, List.not_mem_nil, or_false] at hmem
    rw [planSetTriggerType, onPin_some hr]
    rcases hmem with ⟨rfl, rfl, rfl⟩ | ⟨rfl, rfl, rfl⟩ | ⟨rfl, rfl, rfl⟩ | ⟨rfl, rfl, rfl⟩ <;> rfl
  refine ⟨_, rfl, ?_⟩
  rw [exec, execSetTriggerType, hplan]
  refine runOp_lockedOk_free (f := fun q => q.singleKind i edge high) hbegin hb hl
    (fun l => singleKind_lock k l edge high) fun rest c => ?_
  obtain ⟨l, h⟩ := runPlan_singleKind (a := s.actor) (c := c) (rest := rest) (i := i)
    (banks_setBank_same s b { k with lock := some s.actor } k hb) (by exact hc) edge high
  exact ⟨l, by rw [h, setBank_setBank]⟩

/-- Settles O32: the writes of both edges, under the lock; the polarity written is the complement of
the pad's lane. -/
theorem edgeBothArmsTheOppositeEdge : Obligations.EdgeBothArmsTheOppositeEdge := by
  intro s pin b i k hbegin hr hb hi hl hc
  obtain ⟨q, hq, -, hpin⟩ := resolvePin_some hr
  cases hb.symm.trans hq
  have hplan : planSetTriggerType pin 4 s =
      lockedOk b (setBitsPlan b .dir (oneHot i) false ++ edgeBothPlan b i) := by
    rw [planSetTriggerType, onPin_some hr]
    rfl
  refine ⟨_, _, rfl, rfl, ?_, ?_, ?_⟩
  · exact (putBit_lane _ .inttype i _ hi (by decide)).trans
      ((putBit_lane _ .inttype i true hi (by decide)).trans (by simp [Bank.hasLane, hpin]))
  · exact (putBit_lane _ .intpol i _ hi (by decide)).trans (by simp [Bank.hasLane, hpin])
  · rw [exec, execSetTriggerType, hplan]
    refine runOp_lockedOk_free (f := fun q => q.bothEdges i) hbegin hb hl
      (fun l => bothEdges_lock k l) fun rest c => ?_
    obtain ⟨l, h⟩ := runPlan_bothEdges (a := s.actor) (c := c) (rest := rest) (i := i)
      (banks_setBank_same s b { k with lock := some s.actor } k hb) (by exact hc) hi
    exact ⟨l, by rw [h, setBank_setBank]⟩

/-- Settles O33: a code that names nothing, or a mode with no steps, is a code at once. -/
theorem unsupportedCodesAreRejected : Obligations.UnsupportedCodesAreRejected := by
  intro s pin code b i hbegin hr
  refine ⟨fun hcode => ?_, fun h => ?_⟩
  · have hplan : planSetTriggerType pin code s = codePlan .unsupportedTrigger := by
      simp [planSetTriggerType, onPin_some hr, triggerOfCode_none hcode]
    rw [exec, execSetTriggerType, hplan, runOp_codePlan hbegin]
  · have hnone : (pullOfCode code).bind (pullPlan s b i) = none := by
      rcases h with hcode | ⟨hv, rfl | rfl⟩ | ⟨hv, m, hm, hval⟩
      · rw [pullOfCode_none hcode, Option.bind_none]
      · simp [pullOfCode, pullPlan, hv, pullGenericPlan]
      · simp [pullOfCode, pullPlan, hv, pullGenericPlan]
      · rw [hm, Option.bind_some, pullPlan_none hv hval]
    rw [exec, execSetPull, planSetPull_none hr hnone, runOp_codePlan hbegin]

/-- Settles O34: one call, and the verdict drawn for it is what is returned. -/
theorem requestReturnsTheVerdict : Obligations.RequestReturnsTheVerdict := by
  intro s pin b i hbegin hr
  have hactor : s.drawVerdict.2.actor = s.actor := by
    unfold State.drawVerdict
    cases s.verdicts <;> rfl
  refine ⟨s.drawVerdict.2.emit (.pinmuxRequest pin), s.drawVerdict.1, ?_, fun v rest hv => ?_,
    fun hv => ?_⟩
  · rw [exec, execRequest, planRequest, onPin_some hr, runOp_eq hbegin, runPlan_pinmux,
      runPlan_retVerdict, runPlan_nil, State.ended, emit_actor, hactor]
  · simp [State.drawVerdict, hv, State.emit]
  · simp [State.drawVerdict, hv, State.emit]

/-- Settles O35: the number of the pin the operand resolves to, which no other bank's range holds. -/
theorem toIrqIsBasePlusOffset : Obligations.ToIrqIsBasePlusOffset := by
  intro s pin b i k hbegin ht hr hb
  obtain ⟨q, hq, -, hpin⟩ := resolvePin_some hr
  cases hb.symm.trans hq
  have hnumber : s.irqNumber b i = k.row.baseIrq + i := by simp [State.irqNumber, hb]
  refine ⟨?_, irqToPin_of_pin ht hb hpin⟩
  rw [exec, execToIrq, planToIrq, onPin_some hr, hnumber, runOp_eq hbegin, runPlan_ret, runPlan_nil,
    State.ended]

/-- Settles O36: the bit of `INTEN` written under the lock, which changes no active sense. -/
theorem irqEnableAndDisableWriteOneBit : Obligations.IrqEnableAndDisableWriteOneBit := by
  intro s pin b i k hbegin hr hb hl hc
  have hput : ∀ x, k.putBit .inten i x = { k with inten := setBit k.inten i x &&& k.pinMask } :=
    fun x => inten_bank k _
  rw [exec, execIrqEnable, planIrqEnable, exec, execIrqDisable, planIrqDisable, onPin_some hr,
    onPin_some hr, ← hput, ← hput]
  exact ⟨runOp_locked_putBit hbegin hb hl hc (by decide),
    runOp_locked_putBit hbegin hb hl hc (by decide)⟩

/-- Settles O37: one write of `EOI`, in the pin's lane. -/
theorem irqAckClearsOneLatch : Obligations.IrqAckClearsOneLatch := by
  intro s pin b i k hbegin hr hb hc
  have hack := runPlan_ack (a := s.actor) (rest := [])
    (c := { plan := planIrqAck pin s, loc := {}, result := none, fault := none }) hr hb hc s rfl
  rw [List.append_nil, runPlan_nil] at hack
  rw [exec, execIrqAck, runOp_eq hbegin, hack, State.ended, setBank_actor]

/-- Settles O38: a read and a write of the software field, under the lock. -/
theorem setWakeWritesOneBit : Obligations.SetWakeWritesOneBit := by
  intro s pin b i on k hbegin hr hb hl
  have hbank := fun q => banks_setBank_same s b q k hb
  rw [exec, execSetWake, planSetWake, onPin_some hr]
  refine runOp_lockedOk_free (f := fun q => { q with wakeMask := setBit q.wakeMask i on }) hbegin hb
    hl (fun l => rfl) fun rest c => ?_
  simp only [List.cons_append, List.nil_append]
  rw [runPlan_softRead (hbank _), runPlan_softWrite (hbank _), setBank_setBank, eval_setBit]
  exact ⟨_, rfl⟩

end Sys2Proof.Machine
end

section
/-! PROOFS. Suspend and resume: a sweep over the banks, each bank's part of it run through under its
lock (spec/44_power.md R220 to R222). -/

namespace Sys2Proof.Machine

open Sys2Proof

variable {a : Agent} {s : State} {b : Nat} {k : Bank} {c : Ctx} {rest : List Micro}

/-! ### Steps of the two coordinators -/

/-- The state with more calls to collaborators. -/
def State.calls (s : State) (l : List HostCall) : State := { s with trace := s.trace ++ l }

theorem calls_nil (s : State) : s.calls [] = s := by
  rw [State.calls, List.append_nil]

theorem calls_setBank (l : List HostCall) (k' : Bank) :
    (s.calls l).setBank b k' = (s.setBank b k').calls l := rfl

theorem banks_calls (s : State) (l : List HostCall) : (s.calls l).banks = s.banks := rfl

/-- The call that disables the clock is made where the wake mask read is 0 (R220). -/
theorem runPlan_clockDisable (hb : s.banks[b]? = some k) :
    runPlan a (.clockDisableIfNoWake b :: rest) (s.setCtx a c) =
      runPlan a rest ((s.calls (if c.loc.wake = 0 then [.clockDisable k.row.clock] else [])).setCtx a
        { c with plan := rest }) := by
  by_cases hw : c.loc.wake = 0
  · simp only [runPlan, microStep, onBank, setCtx_banks, hb, ctx_setCtx_same, hw, if_true,
      emit_setCtx, setPlan_setCtx]
    rfl
  · simp only [runPlan, microStep, onBank, setCtx_banks, hb, ctx_setCtx_same, hw, if_false,
      calls_nil, setPlan_setCtx]

/-- The clock goes off where the wake mask read is 0 (R220). -/
theorem runPlan_clockOff (hb : s.banks[b]? = some k) :
    runPlan a (.clockOffIfNoWake b :: rest) (s.setCtx a c) =
      runPlan a rest ((s.setBank b { k with
        clockOn := k.clockOn && decide (c.loc.wake ≠ 0) }).setCtx a { c with plan := rest }) := by
  by_cases hw : c.loc.wake = 0#32
  · simp [runPlan, microStep, onBank, hb, hw, setPlan_setBank_setCtx]
  · simp [runPlan, microStep, onBank, hb, hw, setPlan_setCtx, setBank_self hb]

/-- The bank is gated where the wake mask read is 0 (R220). -/
theorem runPlan_gate (hb : s.banks[b]? = some k) :
    runPlan a (.gateIfNoWake b :: rest) (s.setCtx a c) =
      runPlan a rest ((s.setBank b { k with
        gated := k.gated || decide (c.loc.wake = 0) }).setCtx a { c with plan := rest }) := by
  by_cases hw : c.loc.wake = 0#32
  · simp [runPlan, microStep, onBank, hb, hw, setPlan_setBank_setCtx]
  · simp [runPlan, microStep, onBank, hb, hw, setPlan_setCtx, setBank_self hb]

/-- Whether the bank is gated is read (R221). -/
theorem runPlan_readGated (hb : s.banks[b]? = some k) :
    runPlan a (.readGated b :: rest) (s.setCtx a c) =
      runPlan a rest (s.setCtx a { c with plan := rest, loc := { c.loc with flag := k.gated } }) := by
  simp [runPlan, microStep, onBank, hb, State.setLoc, State.setPlan]

/-- The call that enables the clock is made where the bank was read as gated (R221). -/
theorem runPlan_clockEnable (hb : s.banks[b]? = some k) :
    runPlan a (.clockEnableIfGated b :: rest) (s.setCtx a c) =
      runPlan a rest ((s.calls (if c.loc.flag then [.clockEnable k.row.clock] else [])).setCtx a
        { c with plan := rest }) := by
  by_cases hf : c.loc.flag = true
  · simp only [runPlan, microStep, onBank, setCtx_banks, hb, ctx_setCtx_same, hf, if_true,
      emit_setCtx, setPlan_setCtx]
    rfl
  · simp only [runPlan, microStep, onBank, setCtx_banks, hb, ctx_setCtx_same, hf, if_false,
      calls_nil, setPlan_setCtx, Bool.false_eq_true]

/-- The clock goes on where the bank was read as gated (R221). -/
theorem runPlan_clockOn (hb : s.banks[b]? = some k) :
    runPlan a (.clockOnIfGated b :: rest) (s.setCtx a c) =
      runPlan a rest ((s.setBank b { k with
        clockOn := k.clockOn || c.loc.flag }).setCtx a { c with plan := rest }) := by
  by_cases hf : c.loc.flag = true
  · simp [runPlan, microStep, onBank, hb, hf, setPlan_setBank_setCtx]
  · simp [runPlan, microStep, onBank, hb, hf, setPlan_setCtx, setBank_self hb]

/-- The bank is gated no longer where it was read as gated (R221). -/
theorem runPlan_ungate (hb : s.banks[b]? = some k) :
    runPlan a (.ungateIfGated b :: rest) (s.setCtx a c) =
      runPlan a rest ((s.setBank b { k with
        gated := k.gated && !c.loc.flag }).setCtx a { c with plan := rest }) := by
  by_cases hf : c.loc.flag = true
  · simp [runPlan, microStep, onBank, hb, hf, setPlan_setBank_setCtx]
  · simp [runPlan, microStep, onBank, hb, hf, setPlan_setCtx, setBank_self hb]

/-- The system's power state is written (R262). -/
theorem runPlan_setPower {p : PowerState} :
    runPlan a (.setPower p :: rest) (s.setCtx a c) =
      runPlan a rest (({ s with power := p } : State).setCtx a { c with plan := rest }) := by
  rw [runPlan_cons_ok rfl]
  exact congrArg (runPlan a rest) (setPlan_setCtx (s := { s with power := p }) rest)

/-! ### One bank's part -/

/-- The call made at a bank in `SUSPEND` (R220). -/
def Bank.suspendCalls (k : Bank) : List HostCall :=
  if k.wakeMask = 0 then [.clockDisable k.row.clock] else []

/-- The call made at a bank in `RESUME` (R221). -/
def Bank.resumeCalls (k : Bank) : List HostCall :=
  if k.gated then [.clockEnable k.row.clock] else []

section
variable (hb : s.banks[b]? = some k)
include hb

/-- The enables of a bank are saved and replaced by its wake mask (R220). -/
theorem runPlan_narrow (hc : k.clockOn = true) :
    runPlan a (.busRead b .inten :: .softWrite b .savedEnable .v :: .softRead b .wakeMask .wake ::
        .busWrite b .inten .wake :: rest) (s.setCtx a c) =
      runPlan a rest ((s.setBank b { k with
        savedEnable := k.inten &&& k.pinMask, inten := k.wakeMask &&& k.pinMask }).setCtx a
        { c with plan := rest
                 loc := { c.loc with v := k.inten &&& k.pinMask, wake := k.wakeMask } }) := by
  have hbank := fun q => banks_setBank_same s b q k hb
  rw [runPlan_busRead hb (busRead_stored hc (by decide)), runPlan_softWrite hb,
    runPlan_softRead (hbank _), runPlan_busWrite (hbank _) (by exact hc), setBank_setBank,
    inten_bank]
  rfl

/-- The clock of a bank with no wake pin is disabled and the bank gated (R220). -/
theorem runPlan_gateClock :
    runPlan a (.softRead b .wakeMask .wake :: .clockDisableIfNoWake b :: .clockOffIfNoWake b ::
        .gateIfNoWake b :: rest) (s.setCtx a c) =
      runPlan a rest (((s.setBank b { k with
        clockOn := k.clockOn && decide (k.wakeMask ≠ 0)
        gated := k.gated || decide (k.wakeMask = 0) }).calls k.suspendCalls).setCtx a
        { c with plan := rest, loc := { c.loc with wake := k.wakeMask } }) := by
  have hcall : ∀ l, (s.calls l).banks[b]? = some k := fun _ => hb
  have hbank : ∀ l q, ((s.calls l).setBank b q).banks[b]? = some q := fun l q =>
    banks_setBank_same (s.calls l) b q k hb
  rw [runPlan_softRead hb, runPlan_clockDisable hb, runPlan_clockOff (hcall _),
    runPlan_gate (hbank _ _), setBank_setBank]
  rfl

/-- The clock of a gated bank is enabled and the bank gated no longer (R221). -/
theorem runPlan_ungateClock :
    runPlan a (.readGated b :: .clockEnableIfGated b :: .clockOnIfGated b :: .ungateIfGated b ::
        rest) (s.setCtx a c) =
      runPlan a rest (((s.setBank b { k with
        clockOn := k.clockOn || k.gated, gated := false }).calls k.resumeCalls).setCtx a
        { c with plan := rest, loc := { c.loc with flag := k.gated } }) := by
  have hcall : ∀ l, (s.calls l).banks[b]? = some k := fun _ => hb
  have hbank : ∀ l q, ((s.calls l).setBank b q).banks[b]? = some q := fun l q =>
    banks_setBank_same (s.calls l) b q k hb
  rw [runPlan_readGated hb, runPlan_clockEnable hb, runPlan_clockOn (hcall _),
    runPlan_ungate (hbank _ _), setBank_setBank, ← Bool.and_not_self k.gated]
  rfl

/-- The enables of a bank are restored, with the pending wake pins (R221). -/
theorem runPlan_restore (hc : k.clockOn = true) :
    runPlan a (.busRead b .intstatus :: .softRead b .savedEnable .saved ::
        .softRead b .wakeMask .wake :: .busWrite b .inten .resumed :: rest) (s.setCtx a c) =
      runPlan a rest ((s.setBank b { k with
        inten := (k.savedEnable ||| (k.status &&& k.wakeMask)) &&& k.pinMask }).setCtx a
        { c with plan := rest
                 loc := { c.loc with v := k.status, saved := k.savedEnable, wake := k.wakeMask } }) := by
  rw [runPlan_busRead hb (busRead_intstatus hc), runPlan_softRead hb, runPlan_softRead hb,
    runPlan_busWrite hb hc, inten_bank]
  rfl

/-- A bank's part of `SUSPEND`, run through (R220). -/
theorem runPlan_suspendBank (hl : k.lock = none) (hc : k.clockOn = true) :
    ∃ l, runPlan a (suspendBankPlan b ++ rest) (s.setCtx a c) =
      runPlan a rest (((s.setBank b k.suspended).calls k.suspendCalls).setCtx a
        { c with plan := rest, loc := l }) := by
  have hbank := fun q => banks_setBank_same s b q k hb
  have hcall : ∀ q l, ((s.setBank b q).calls l).banks[b]? = some q := fun q _ => hbank q
  have hdone : ({ k with
      savedEnable := k.inten &&& k.pinMask, inten := k.wakeMask &&& k.pinMask
      clockOn := k.clockOn && decide (k.wakeMask ≠ 0)
      gated := k.gated || decide (k.wakeMask = 0), lock := none } : Bank) = k.suspended := by
    rw [Bank.suspended, hc, Bool.true_and, ← hl]
  refine ⟨{ c.loc with v := k.inten &&& k.pinMask, wake := k.wakeMask }, ?_⟩
  simp only [suspendBankPlan, List.cons_append, List.nil_append]
  rw [runPlan_lock hb hl, runPlan_narrow (hbank _) (by exact hc), setBank_setBank,
    runPlan_gateClock (hbank _), setBank_setBank, runPlan_unlock (hcall _ _) rfl, calls_setBank,
    setBank_setBank, ← hdone]
  rfl

/-- A bank's part of `RESUME`, run through (R221). -/
theorem runPlan_resumeBank (hl : k.lock = none) (hc : k.clockOn = true ∨ k.gated = true) :
    ∃ l, runPlan a (resumeBankPlan b ++ rest) (s.setCtx a c) =
      runPlan a rest (((s.setBank b k.resumed).calls k.resumeCalls).setCtx a
        { c with plan := rest, loc := l }) := by
  have hbank := fun q => banks_setBank_same s b q k hb
  have hcall : ∀ q l, ((s.setBank b q).calls l).banks[b]? = some q := fun q _ => hbank q
  have hclock : (k.clockOn || k.gated) = true := by simpa using hc
  have hdone : ({ k with
      clockOn := k.clockOn || k.gated, gated := false
      inten := (k.savedEnable ||| (k.status &&& k.wakeMask)) &&& k.pinMask, lock := none } :
        Bank) = k.resumed := by
    rw [Bank.resumed, hclock, ← hl]
  refine ⟨{ v := k.status, wake := k.wakeMask, saved := k.savedEnable, flag := k.gated }, ?_⟩
  simp only [resumeBankPlan, List.cons_append, List.nil_append]
  rw [runPlan_lock hb hl, runPlan_ungateClock (hbank _), setBank_setBank,
    runPlan_restore (hcall _ _) (by exact hclock), calls_setBank, setBank_setBank,
    runPlan_unlock (hcall _ _) rfl, calls_setBank, setBank_setBank, ← hdone]
  rfl

end

/-! ### The sweep over the banks -/

/-- The state in which the banks below `n` have had their part `f`, and the calls `g` were made for
them. -/
def State.swept (s : State) (f : Bank → Bank) (g : Bank → List HostCall) (n : Nat) : State :=
  { s with
    banks := (s.banks.take n).map f ++ s.banks.drop n
    trace := s.trace ++ (s.banks.take n).flatMap g }

variable {f : Bank → Bank} {g : Bank → List HostCall} {n : Nat}

theorem swept_zero : s.swept f g 0 = s := by
  simp [State.swept]

/-- The next bank is as it was. -/
theorem swept_banks_getElem (hb : s.banks[b]? = some k) :
    (s.swept f g b).banks[b]? = some k := by
  obtain ⟨hlt, -⟩ := List.getElem?_eq_some_iff.1 hb
  simp [State.swept, List.getElem?_append_right, hlt.le, hb]

/-- Writing the next bank. -/
theorem swept_banks_set (hb : s.banks[b]? = some k) (k' : Bank) :
    (s.swept f g b).banks.set b k' = (s.banks.take b).map f ++ k' :: s.banks.drop (b + 1) := by
  obtain ⟨hlt, rfl⟩ := List.getElem?_eq_some_iff.1 hb
  have hlen : ((s.banks.take b).map f).length = b := by simp [hlt.le]
  rw [State.swept, List.set_append_right _ _ hlen.le, hlen, Nat.sub_self,
    List.drop_eq_getElem_cons hlt, List.set_cons_zero]

/-- The next bank's part. -/
theorem swept_succ (hb : s.banks[b]? = some k) :
    ((s.swept f g b).setBank b (f k)).calls (g k) = s.swept f g (b + 1) := by
  have hbanks := swept_banks_set (f := f) (g := g) hb (f k)
  obtain ⟨hlt, rfl⟩ := List.getElem?_eq_some_iff.1 hb
  have htake := List.take_concat_get' s.banks b hlt
  rw [State.setBank, hbanks, State.calls, State.swept, State.swept, ← htake]
  simp only [List.map_append, List.map_cons, List.map_nil, List.flatMap_append,
    List.flatMap_singleton, List.append_assoc, List.singleton_append]

/-- After the last bank. -/
theorem swept_all : s.swept f g s.nbanks =
    { s with banks := s.banks.map f, trace := s.trace ++ s.banks.flatMap g } := by
  simp [State.swept, State.nbanks]

/-- The sweep over the banks below `n` runs through if each bank's part does. -/
theorem runPlan_sweep {plan : Nat → List Micro} (hn : n ≤ s.nbanks)
    (hpart : ∀ (j : Nat) (q : Bank) (u : State) (c : Ctx) (rest : List Micro), j < n →
      s.banks[j]? = some q → u.banks[j]? = some q →
      ∃ l, runPlan a (plan j ++ rest) (u.setCtx a c) =
        runPlan a rest (((u.setBank j (f q)).calls (g q)).setCtx a { c with plan := rest, loc := l }))
    (c : Ctx) (hc : c.plan = (List.range n).flatMap plan ++ rest) :
    ∃ l, runPlan a ((List.range n).flatMap plan ++ rest) (s.setCtx a c) =
      runPlan a rest ((s.swept f g n).setCtx a { c with plan := rest, loc := l }) := by
  induction n generalizing rest c with
  | zero =>
    refine ⟨c.loc, ?_⟩
    rw [swept_zero]
    simp only [List.range_zero, List.flatMap_nil, List.nil_append] at hc ⊢
    rw [← hc]
  | succ n ih =>
    have hlt : n < s.banks.length := hn
    have hb := List.getElem?_eq_getElem hlt
    have hplan : (List.range (n + 1)).flatMap plan ++ rest =
        (List.range n).flatMap plan ++ (plan n ++ rest) := by
      rw [List.range_succ, List.flatMap_append, List.append_assoc]
      simp
    obtain ⟨l, hl⟩ := ih (rest := plan n ++ rest) (Nat.le_of_succ_le hn)
      (fun j q u c rest hj => hpart j q u c rest (Nat.lt_succ_of_lt hj)) c (hc.trans hplan)
    obtain ⟨l', hl'⟩ := hpart n _ (s.swept f g n) { c with plan := plan n ++ rest, loc := l } rest
      (Nat.lt_succ_self n) hb (swept_banks_getElem hb)
    refine ⟨l', ?_⟩
    rw [hplan, hl, hl', swept_succ hb]

/-- The steps for the banks from `b` on come after those for the banks below. -/
theorem range_flatMap_split (plan : Nat → List Micro) (h : b < n) :
    ∃ tail, (List.range n).flatMap plan = (List.range b).flatMap plan ++ (plan b ++ tail) := by
  obtain ⟨m, rfl⟩ : ∃ m, n = b + (m + 1) := ⟨n - b - 1, by omega⟩
  rw [List.range_add, List.flatMap_append, List.range_succ_eq_map]
  exact ⟨_, by rw [List.map_cons, List.flatMap_cons]; rfl⟩

section
variable (s)

/-- `SUSPEND` up to bank `n`, where the banks below are unlocked and clocked. -/
theorem runPlan_suspend_below (hn : n ≤ s.nbanks)
    (h : ∀ j k', j < n → s.banks[j]? = some k' → k'.lock = none ∧ k'.clockOn = true)
    (c : Ctx) (hc : c.plan = (List.range n).flatMap suspendBankPlan ++ rest) :
    ∃ l, runPlan a ((List.range n).flatMap suspendBankPlan ++ rest) (s.setCtx a c) =
      runPlan a rest ((s.swept Bank.suspended Bank.suspendCalls n).setCtx a
        { c with plan := rest, loc := l }) :=
  runPlan_sweep hn (fun j q _ _ _ hj hq hu =>
    runPlan_suspendBank hu (h j q hj hq).1 (h j q hj hq).2) c hc

/-- `RESUME` up to bank `n`, where the banks below are unlocked, and clocked or gated. -/
theorem runPlan_resume_below (hn : n ≤ s.nbanks)
    (h : ∀ j k', j < n → s.banks[j]? = some k' →
      k'.lock = none ∧ (k'.clockOn = true ∨ k'.gated = true))
    (c : Ctx) (hc : c.plan = (List.range n).flatMap resumeBankPlan ++ rest) :
    ∃ l, runPlan a ((List.range n).flatMap resumeBankPlan ++ rest) (s.setCtx a c) =
      runPlan a rest ((s.swept Bank.resumed Bank.resumeCalls n).setCtx a
        { c with plan := rest, loc := l }) :=
  runPlan_sweep hn (fun j q _ _ _ hj hq hu =>
    runPlan_resumeBank hu (h j q hj hq).1 (h j q hj hq).2) c hc

end

/-- The calls of `SUSPEND` are those for the banks with no wake pin. -/
theorem flatMap_suspendCalls (l : List Bank) : l.flatMap Bank.suspendCalls =
    (l.filter (·.wakeMask = 0)).map fun k => .clockDisable k.row.clock := by
  induction l with
  | nil => rfl
  | cons k rest ih => by_cases h : k.wakeMask = 0#32 <;> simp [Bank.suspendCalls, h, ih]

/-- The calls of `RESUME` are those for the gated banks. -/
theorem flatMap_resumeCalls (l : List Bank) : l.flatMap Bank.resumeCalls =
    (l.filter (·.gated)).map fun k => .clockEnable k.row.clock := by
  induction l with
  | nil => rfl
  | cons k rest ih => by_cases h : k.gated = true <;> simp [Bank.resumeCalls, h, ih]

/-! ### A suspend and a resume -/

/-- A bank that keeps R32, is clocked and is not gated gains by a suspend and a resume the pending wake
pins (R222). -/
theorem suspended_resumed (hlanes : k.lanesOk = true) (hc : k.clockOn = true)
    (hg : k.gated = false) :
    k.suspended.resumed = { k with
      savedEnable := k.inten, inten := k.inten ||| (k.suspended.status &&& k.wakeMask) } := by
  obtain ⟨-, -, hen, -⟩ := lanesOk_iff.1 hlanes
  have hinten : k.inten &&& k.pinMask = k.inten := and_pinMask_of_within hen
  have hstatus : k.suspended.status &&& k.wakeMask &&& k.pinMask =
      k.suspended.status &&& k.wakeMask := by
    have hmask : k.suspended.status &&& k.pinMask = k.suspended.status := by
      show _ &&& k.pinMask &&& k.pinMask = _
      rw [BitVec.and_assoc, BitVec.and_self]
      rfl
    rw [BitVec.and_assoc, BitVec.and_comm k.wakeMask, ← BitVec.and_assoc, hmask]
  have hen' : (k.inten &&& k.pinMask ||| (k.suspended.status &&& k.wakeMask)) &&& k.pinMask =
      k.inten ||| (k.suspended.status &&& k.wakeMask) := by
    rw [hinten, BitVec.and_comm, BitVec.and_or_distrib_left, BitVec.and_comm _ k.inten,
      hinten, BitVec.and_comm k.pinMask, hstatus]
  show ({ k with
    clockOn := true, gated := false, savedEnable := k.inten &&& k.pinMask
    inten := (k.inten &&& k.pinMask ||| (k.suspended.status &&& k.wakeMask)) &&& k.pinMask } :
      Bank) = _
  rw [hen', hinten, ← hc, ← hg]

/-! ### The statements -/

/-- Settles O39: the sweep over all banks, and then the power state. -/
theorem suspendNarrowsEveryBank : Obligations.SuspendNarrowsEveryBank := by
  intro s hbegin h
  obtain ⟨l, hl⟩ := runPlan_suspend_below (a := s.actor) (rest := [.setPower .suspended, .ret .done])
    s le_rfl (fun j k' _ hk => h k' (List.mem_of_getElem? hk))
    { plan := planSuspend s, loc := {}, result := none, fault := none } rfl
  have hexec : exec .suspend s = .next (runPlan s.actor
      ((List.range s.nbanks).flatMap suspendBankPlan ++ [.setPower .suspended, .ret .done])
      (s.setCtx s.actor
        { plan := planSuspend s, loc := {}, result := none, fault := none })) := runOp_eq hbegin
  rw [hexec, hl, runPlan_setPower, runPlan_ret, runPlan_nil, swept_all, flatMap_suspendCalls]
  rfl

/-- Settles O40: the sweep over all banks, and then the power state. -/
theorem resumeRestoresEveryBank : Obligations.ResumeRestoresEveryBank := by
  intro s hbegin h
  obtain ⟨l, hl⟩ := runPlan_resume_below (a := s.actor) (rest := [.setPower .running, .ret .done])
    s le_rfl (fun j k' _ hk => h k' (List.mem_of_getElem? hk))
    { plan := planResume s, loc := {}, result := none, fault := none } rfl
  have hexec : exec .resume s = .next (runPlan s.actor
      ((List.range s.nbanks).flatMap resumeBankPlan ++ [.setPower .running, .ret .done])
      (s.setCtx s.actor
        { plan := planResume s, loc := {}, result := none, fault := none })) := runOp_eq hbegin
  rw [hexec, hl, runPlan_setPower, runPlan_ret, runPlan_nil, swept_all, flatMap_resumeCalls]
  rfl

/-- Settles O41: the suspend leaves every bank clocked or gated and its agent ready for the resume. -/
theorem suspendThenResumeAddsOnlyPendingWakePins :
    Obligations.SuspendThenResumeAddsOnlyPendingWakePins := by
  intro s hbegin hlanes h
  refine ⟨_, _, suspendNarrowsEveryBank s hbegin fun k hk => ⟨(h k hk).1, (h k hk).2.1⟩,
    resumeRestoresEveryBank _ ?_ ?_, ?_⟩
  · refine canBegin_congr (s := s) ?_ rfl (by simp [State.ended]) (by simp [State.ended]) hbegin
    simp only [State.ended, setCtx_banks, List.map_map]
    rfl
  · intro q hq
    obtain ⟨k, hk, rfl⟩ := List.mem_map.1 hq
    refine ⟨(h k hk).1, ?_⟩
    by_cases hw : k.wakeMask = 0#32 <;> simp [Bank.suspended, hw]
  · simp only [State.ended, setCtx_banks, List.map_map]
    refine List.map_congr_left fun k hk => ?_
    obtain ⟨-, hc, hg⟩ := h k hk
    exact suspended_resumed (List.all_eq_true.1 hlanes k hk) hc hg

end Sys2Proof.Machine
end

section
/-! PROOFS. Operations that stop or wait in the middle: an access to a bank whose clock is off, in an
operation, in the coordinators and in a pass (spec/20_memory.md R77, spec/70_reset_and_hazards.md
R293), and a lock that another agent holds (R60). -/

namespace Sys2Proof.Machine

open Sys2Proof

variable {a : Agent} {s : State} {b : Nat} {k : Bank}

/-! ### The operations that access a bank under its lock -/

/-- The pin operations that access a register under the bank's lock begin with the lock and a read. -/
theorem exec_locked_reads {i : Instr} {pin o c : Nat} {x : Bool} (hr : s.resolvePin pin = some (b, o))
    (hi : i = .setDirection pin x ∨ i = .setLevel pin x ∨ i = .irqEnable pin ∨
      i = .irqDisable pin ∨ (i = .setTriggerType pin c ∧ c ≤ 4) ∨
      (i = .setPull pin c ∧ s.cfg.variant = .pullGeneric ∧ (c = 0 ∨ c = 3))) :
    ∃ r p, exec i s = runOp (.lock b :: .busRead b r :: p) s := by
  have hset : ∀ (r : Reg) (m : Word) (e : Bool) (q : List Micro),
      ∃ r' p, lockedOk b (setBitsPlan b r m e ++ q) = .lock b :: .busRead b r' :: p :=
    fun r m e q => ⟨r, _, rfl⟩
  have hexec : ∀ {p : List Micro}, (∃ r q, p = .lock b :: .busRead b r :: q) →
      exec i s = runOp p s → ∃ r p, exec i s = runOp (.lock b :: .busRead b r :: p) s := by
    rintro _ ⟨r, q, rfl⟩ h
    exact ⟨r, q, h⟩
  rcases hi with rfl | rfl | rfl | rfl | ⟨rfl, hc⟩ | ⟨rfl, hv, hc⟩
  · exact hexec (hset _ _ _ []) (by rw [exec, execSetDirection, planSetDirection, onPin_some hr,
      List.append_nil])
  · exact hexec (hset _ _ _ []) (by rw [exec, execSetLevel, planSetLevel, onPin_some hr,
      List.append_nil])
  · exact hexec (hset _ _ _ []) (by rw [exec, execIrqEnable, planIrqEnable, onPin_some hr,
      List.append_nil])
  · exact hexec (hset _ _ _ []) (by rw [exec, execIrqDisable, planIrqDisable, onPin_some hr,
      List.append_nil])
  · obtain ⟨t, ht⟩ : ∃ t, triggerOfCode c = some t := by
      interval_cases c <;> exact ⟨_, rfl⟩
    refine hexec (hset .dir (oneHot o) false (triggerKindPlan b o t)) ?_
    rw [exec, execSetTriggerType, planSetTriggerType, onPin_some hr, ht]
  · have hplan : ∀ m, pullPlan s b o m = pullGenericPlan s b o m := fun m => by rw [pullPlan, hv]
    rcases hc with rfl | rfl
    · exact hexec (hset _ _ _ []) (by rw [exec, execSetPull,
        planSetPull_some (m := .disabled) hr rfl (hplan _), List.append_nil])
    · exact hexec (hset _ _ _ []) (by rw [exec, execSetPull,
        planSetPull_some (m := .defaultEnabled) hr rfl (hplan _), List.append_nil])

/-! ### Stopping at a gated bank -/

section
variable (hb : s.banks[b]? = some k) (hc : k.clockOn = false)
include hb hc

/-- Steps that begin with an access to a gated bank stop the agent there. -/
theorem runPlan_gated {m : Micro} {rest : List Micro} (hm : m.accesses b = true) (c : Ctx) :
    runPlan a (m :: rest) (s.setCtx a c) =
      s.setCtx a { c with result := none, fault := some .clockGatedAccess } := by
  have hb' : (s.setCtx a c).banks[b]? = some k := hb
  rw [runPlan_cons_fault (microStep_gated hm hb' hc), recordFault_eq, ctx_setCtx_same,
    setCtx_setCtx]

/-- An operation that takes the lock of a gated bank and then accesses it stops holding the lock. -/
theorem runPlan_locked_gated (hl : k.lock = none) {m : Micro} {rest : List Micro}
    (hm : m.accesses b = true) (c : Ctx) :
    runPlan a (.lock b :: m :: rest) (s.setCtx a c) =
      (s.setBank b { k with lock := some a }).setCtx a
        { c with plan := m :: rest, result := none, fault := some .clockGatedAccess } := by
  rw [runPlan_lock hb hl, runPlan_gated (banks_setBank_same s b _ k hb) (by exact hc) hm]

/-- A bank's part of `RESUME`, at a bank that is neither clocked nor gated. -/
theorem runPlan_resumeBank_gated (hl : k.lock = none) (hg : k.gated = false) {rest : List Micro}
    (c : Ctx) :
    ∃ p l, runPlan a (resumeBankPlan b ++ rest) (s.setCtx a c) =
      (s.setBank b { k with lock := some a }).setCtx a
        { c with plan := p, loc := l, result := none, fault := some .clockGatedAccess } := by
  have hb1 := banks_setBank_same s b { k with lock := some a } k hb
  have hsame : ({ k with lock := some a, clockOn := k.clockOn || k.gated, gated := false } : Bank) =
      { k with lock := some a } := by
    rw [hg, Bool.or_false, ← hg]
  simp only [resumeBankPlan, List.cons_append, List.nil_append]
  rw [runPlan_lock hb hl, runPlan_ungateClock hb1, setBank_setBank, hsame,
    show ({ k with lock := some a } : Bank).resumeCalls = [] by simp [Bank.resumeCalls, hg],
    calls_nil, runPlan_gated hb1 (by exact hc) (by simp [Micro.accesses])]
  exact ⟨_, _, rfl⟩

/-- A turn at an access to a gated bank stops the agent. -/
theorem turn_gated {m : Micro} {p : List Micro} (hstep : s.canStep a = true)
    (hp : (s.ctx a).plan = m :: p) (hm : m.accesses b = true) :
    s.advance a = s.recordFault a .clockGatedAccess ∧
      s.runOn a = s.recordFault a .clockGatedAccess := by
  have hfault := microStep_gated (a := a) hm hb hc
  have hdrain : s.drain a = s.recordFault a .clockGatedAccess := by
    rw [State.drain, hp, runPlan_cons_fault hfault]
  refine ⟨advance_fault hstep hp hfault, ?_⟩
  unfold State.runOn
  rw [if_pos hstep]
  cases a with
  | call n => exact hdrain
  | irq d =>
    have hready : (s.recordFault (.irq d) .clockGatedAccess).passReady d = false := by
      rw [← Bool.not_eq_true, passReady_iff, recordFault_eq, ctx_setCtx_same]
      rintro ⟨-, -, h⟩
      cases h
    exact (congrArg (runPass d passBound) hdrain).trans (runPass_of_not_ready hready)

/-- A snapshot read of a gated bank faults (R192, R193). -/
theorem passStep_gated {pos : PassPos} {r : PassRegs} (hp : k.pass = .active pos r)
    (hpos : pos.reads = true) : passStep b s = .fault .clockGatedAccess := by
  cases pos <;> cases hpos <;> simp [passStep, onBank, hb, hp, snapRead, busRead_gated _ hc]

end

/-- One position of a pass that is ready, in its run. -/
theorem runPass_succ {n : Nat} (h : s.passReady b = true) :
    runPass b (n + 1) s = runPass b n ((s.movePass b).drain (.irq b)) := by
  rw [runPass, if_pos h]

/-- A pass that is ready is run by its agent's turn. -/
theorem runOn_pass (h : s.passReady b = true) : s.runOn (.irq b) = runPass b passBound s := by
  obtain ⟨-, hplan, hfault⟩ := passReady_iff.1 h
  have hc : s.canStep (.irq b) = true := by simp [State.canStep, State.interrupted, hfault]
  simp only [State.runOn, hc, if_true, State.drain, hplan, runPlan_nil]

/-- A fault in its interrupt agent's context stops a pass. -/
theorem not_passReady_of_fault {c : Ctx} (h : c.fault ≠ none) :
    (s.setCtx (.irq b) c).passReady b = false := by
  rw [← Bool.not_eq_true, passReady_iff, ctx_setCtx_same]
  exact fun hready => h hready.2.2

/-! ### Waiting for a lock -/

section
variable {h : Agent} (hb : s.banks[b]? = some k) (hl : k.lock = some h) (hne : h ≠ a)
include hb hl hne

/-- Steps that begin with a lock that another agent holds are not taken (R60). -/
theorem runPlan_lock_waits {rest : List Micro} (c : Ctx) :
    runPlan a (.lock b :: rest) (s.setCtx a c) = s.setCtx a c :=
  runPlan_cons_wait (microStep_lock_held (s := s.setCtx a c) hb hl hne)

/-- A turn of an agent that waits for a lock changes nothing. -/
theorem turn_waits {p : List Micro} (hp : (s.ctx a).plan = .lock b :: p) :
    s.advance a = s ∧ s.runOn a = s := by
  by_cases hc : s.canStep a = true
  · have hwait := microStep_lock_held hb hl hne
    have hdrain : s.drain a = s := by rw [State.drain, hp, runPlan_cons_wait hwait]
    refine ⟨advance_wait hc hp hwait, ?_⟩
    unfold State.runOn
    rw [if_pos hc]
    cases a with
    | call n => exact hdrain
    | irq d =>
      have hready : s.passReady d = false := by
        rw [← Bool.not_eq_true, passReady_iff, hp]
        rintro ⟨-, hnil, -⟩
        cases hnil
      exact (congrArg (runPass d passBound) hdrain).trans (runPass_of_not_ready hready)
  · exact ⟨advance_idle (Bool.eq_false_iff.2 hc), runOn_idle (Bool.eq_false_iff.2 hc)⟩

end

/-! ### The coordinators up to a bank -/

/-- `SUSPEND` has done its part for the banks below `b` when it comes to `b`. -/
theorem exec_suspend_upTo (hbegin : s.canBegin s.actor = true) (hlt : b < s.nbanks)
    (h : ∀ j k', j < b → s.banks[j]? = some k' → k'.lock = none ∧ k'.clockOn = true) :
    ∃ rest l, exec .suspend s = .next (runPlan s.actor (suspendBankPlan b ++ rest)
      ((s.swept Bank.suspended Bank.suspendCalls b).setCtx s.actor
        { plan := suspendBankPlan b ++ rest, loc := l, result := none, fault := none })) := by
  obtain ⟨tail, htail⟩ := range_flatMap_split suspendBankPlan hlt
  have hplan : planSuspend s = (List.range b).flatMap suspendBankPlan ++
      (suspendBankPlan b ++ (tail ++ [.setPower .suspended, .ret .done])) := by
    rw [planSuspend, htail]
    simp only [List.append_assoc]
  obtain ⟨l, hl⟩ := runPlan_suspend_below (a := s.actor)
    (rest := suspendBankPlan b ++ (tail ++ [.setPower .suspended, .ret .done])) s hlt.le h
    { plan := planSuspend s, loc := {}, result := none, fault := none } hplan
  refine ⟨tail ++ [.setPower .suspended, .ret .done], l, ?_⟩
  rw [← hl, ← hplan]
  exact runOp_eq hbegin

/-- `RESUME` has done its part for the banks below `b` when it comes to `b`. -/
theorem exec_resume_upTo (hbegin : s.canBegin s.actor = true) (hlt : b < s.nbanks)
    (h : ∀ j k', j < b → s.banks[j]? = some k' →
      k'.lock = none ∧ (k'.clockOn = true ∨ k'.gated = true)) :
    ∃ rest l, exec .resume s = .next (runPlan s.actor (resumeBankPlan b ++ rest)
      ((s.swept Bank.resumed Bank.resumeCalls b).setCtx s.actor
        { plan := resumeBankPlan b ++ rest, loc := l, result := none, fault := none })) := by
  obtain ⟨tail, htail⟩ := range_flatMap_split resumeBankPlan hlt
  have hplan : planResume s = (List.range b).flatMap resumeBankPlan ++
      (resumeBankPlan b ++ (tail ++ [.setPower .running, .ret .done])) := by
    rw [planResume, htail]
    simp only [List.append_assoc]
  obtain ⟨l, hl⟩ := runPlan_resume_below (a := s.actor)
    (rest := resumeBankPlan b ++ (tail ++ [.setPower .running, .ret .done])) s hlt.le h
    { plan := planResume s, loc := {}, result := none, fault := none } hplan
  refine ⟨tail ++ [.setPower .running, .ret .done], l, ?_⟩
  rw [← hl, ← hplan]
  exact runOp_eq hbegin

/-- The state in which the sweep has come to bank `b` and has written it. -/
theorem swept_setBank {f : Bank → Bank} {g : Bank → List HostCall} (hb : s.banks[b]? = some k)
    (k' : Bank) :
    (s.swept f g b).setBank b k' = { s with
      banks := (s.banks.take b).map f ++ k' :: s.banks.drop (b + 1)
      trace := s.trace ++ (s.banks.take b).flatMap g } := by
  rw [State.setBank, swept_banks_set hb]
  rfl

/-! ### Operations and passes at a gated bank -/

section
variable (hb : s.banks[b]? = some k) (hc : k.clockOn = false)
include hb hc

/-- The pin operations that access a gated bank stop there, those that took its lock holding it. -/
theorem pinOps_gated (hbegin : s.canBegin s.actor = true) (i : Instr) (pin o : Nat)
    (hr : s.resolvePin pin = some (b, o)) :
    ((i = .getLevel pin ∨ i = .irqAck pin) →
      ∃ p l, exec i s = .next (s.stoppedBy .clockGatedAccess p l)) ∧
    (∀ x c, (i = .setDirection pin x ∨ i = .setLevel pin x ∨ i = .irqEnable pin ∨
        i = .irqDisable pin ∨ (i = .setTriggerType pin c ∧ c ≤ 4) ∨
        (i = .setPull pin c ∧ s.cfg.variant = .pullGeneric ∧ (c = 0 ∨ c = 3))) →
      k.lock = none →
      ∃ p l, exec i s = .next
        ((s.setBank b { k with lock := some s.actor }).stoppedBy .clockGatedAccess p l)) := by
  refine ⟨?_, fun x c hi hl => ?_⟩
  · rintro (rfl | rfl)
    · rw [exec, execGetLevel, planGetLevel, onPin_some hr]
      exact ⟨_, _, runOp_first_faults hbegin fun c =>
        microStep_gated (s := s.setCtx s.actor c) (by simp [Micro.accesses]) hb hc⟩
    · rw [exec, execIrqAck, planIrqAck, onPin_some hr]
      exact ⟨_, _, runOp_first_faults hbegin fun c =>
        microStep_gated (s := s.setCtx s.actor c) (by simp [Micro.accesses]) hb hc⟩
  · obtain ⟨r, p, hexec⟩ := exec_locked_reads hr hi
    rw [hexec, runOp_eq hbegin, runPlan_locked_gated hb hc hl (by simp [Micro.accesses])]
    exact ⟨_, _, rfl⟩

/-- `SUSPEND` stops at a gated bank, holding its lock. -/
theorem suspend_gated (hbegin : s.canBegin s.actor = true) (hl : k.lock = none)
    (hbelow : ∀ j k', j < b → s.banks[j]? = some k' → k'.lock = none ∧ k'.clockOn = true) :
    ∃ p l, exec .suspend s = .next (State.stoppedBy { s with
        banks := (s.banks.take b).map (·.suspended) ++
          { k with lock := some s.actor } :: s.banks.drop (b + 1)
        trace := s.trace ++
          ((s.banks.take b).filter (·.wakeMask = 0)).map fun k => .clockDisable k.row.clock }
      .clockGatedAccess p l) := by
  obtain ⟨hlt, -⟩ := List.getElem?_eq_some_iff.1 hb
  obtain ⟨rest, l, hexec⟩ := exec_suspend_upTo hbegin hlt hbelow
  rw [hexec, suspendBankPlan, List.cons_append, List.cons_append,
    runPlan_locked_gated (swept_banks_getElem hb) hc hl (by simp [Micro.accesses]),
    swept_setBank hb, flatMap_suspendCalls]
  exact ⟨_, _, rfl⟩

/-- `RESUME` stops at a bank that is neither clocked nor gated, holding its lock. -/
theorem resume_gated (hbegin : s.canBegin s.actor = true) (hl : k.lock = none)
    (hg : k.gated = false)
    (hbelow : ∀ j k', j < b → s.banks[j]? = some k' →
      k'.lock = none ∧ (k'.clockOn = true ∨ k'.gated = true)) :
    ∃ p l, exec .resume s = .next (State.stoppedBy { s with
        banks := (s.banks.take b).map (·.resumed) ++
          { k with lock := some s.actor } :: s.banks.drop (b + 1)
        trace := s.trace ++
          ((s.banks.take b).filter (·.gated)).map fun k => .clockEnable k.row.clock }
      .clockGatedAccess p l) := by
  obtain ⟨hlt, -⟩ := List.getElem?_eq_some_iff.1 hb
  obtain ⟨rest, l, hexec⟩ := exec_resume_upTo hbegin hlt hbelow
  obtain ⟨p, l', hstop⟩ := runPlan_resumeBank_gated (a := s.actor) (rest := rest)
    (swept_banks_getElem (f := Bank.resumed) (g := Bank.resumeCalls) hb) hc hl hg
    { plan := resumeBankPlan b ++ rest, loc := l, result := none, fault := none }
  rw [hexec, hstop, swept_setBank hb, flatMap_resumeCalls]
  exact ⟨_, _, rfl⟩

/-- A pass of a gated bank stops at its next snapshot read. -/
theorem pass_read_gated {pos : PassPos} {r : PassRegs} (hready : s.passReady b = true)
    (hp : k.pass = .active pos r) (hpos : pos.reads = true) :
    s.advance (.irq b) = s.recordFault (.irq b) .clockGatedAccess ∧
      s.runOn (.irq b) = s.recordFault (.irq b) .clockGatedAccess := by
  obtain ⟨-, hplan, -⟩ := passReady_iff.1 hready
  have hmove : s.movePass b = s.recordFault (.irq b) .clockGatedAccess :=
    movePass_fault (passStep_gated hb hc hp hpos)
  refine ⟨(advance_pass hready).trans hmove, ?_⟩
  rw [runOn_pass hready, passBound, runPass_succ hready, hmove, State.drain, recordFault_eq,
    ctx_setCtx_same, hplan, runPlan_nil, runPass_of_not_ready (not_passReady_of_fault (by simp))]

/-- A pass of a gated bank stops in its rewrite of the polarity, holding the lock. -/
theorem pass_update_gated {r : PassRegs} (hready : s.passReady b = true)
    (hp : k.pass = .active .update r) (hpol : r.newPol.isSome = true) (hl : k.lock = none) :
    ∃ p l, s.runOn (.irq b) = (s.setBank b { k with lock := some (.irq b) }).setCtx (.irq b)
      { plan := p, loc := l, result := none, fault := some .clockGatedAccess } := by
  obtain ⟨n, hn⟩ := Option.isSome_iff_exists.1 hpol
  have hmove : s.movePass b = s.setPlan (.irq b) (updatePlan b n ++ [.updated b]) :=
    movePass_ok (by simp [passStep, onBank, hb, hp, hn])
  rw [runOn_pass hready, passBound, runPass_succ hready, hmove, State.drain, setPlan_eq,
    ctx_setCtx_same, updatePlan, List.cons_append, List.cons_append,
    runPlan_locked_gated hb hc hl (by simp [Micro.accesses]),
    runPass_of_not_ready (not_passReady_of_fault (by simp))]
  exact ⟨_, _, rfl⟩

end

/-! ### The statements -/

/-- Settles O15: each operation comes, with nothing changed or with its part for the banks below done,
to an access of the gated bank. -/
theorem gatedBankAccessStopsTheAgent : Obligations.GatedBankAccessStopsTheAgent := by
  intro s b k hb hc
  refine ⟨fun hbegin i pin o hr => pinOps_gated hb hc hbegin i pin o hr,
    fun hbegin hl hbelow => suspend_gated hb hc hbegin hl hbelow,
    fun hbegin hl hg hbelow => resume_gated hb hc hbegin hl hg hbelow,
    fun pos r hp hstep hplan => ?_, fun a m p hstep hp hm => turn_gated hb hc hstep hp hm⟩
  have hready : s.passReady b = true :=
    passReady_iff.2 ⟨⟨k, pos, r, hb, hp⟩, hplan, fault_of_canStep hstep⟩
  refine ⟨fun hpos => pass_read_gated hb hc hready hp hpos, ?_⟩
  rintro rfl hpol hl
  exact pass_update_gated hb hc hready hp hpol hl

end Sys2Proof.Machine
end

section
/-! PROOFS. The pins of a pass, the highest first, and the calls made for them: lists alone, without the
machine (spec/43_demux.md R194, R195, R203, R204). -/

namespace Sys2Proof.Machine

open Sys2Proof

variable {v w : Word} {i n : Nat}

/-! ### The set bits of a word, the highest first -/

/-- The offsets below `n` of a word's set bits, the highest first. -/
def pinsBelow (v : Word) (n : Nat) : List Nat := (List.range n).reverse.filter fun i => v.getLsbD i

theorem pinsBelow_succ (v : Word) (n : Nat) :
    pinsBelow v (n + 1) = if v.getLsbD n then n :: pinsBelow v n else pinsBelow v n := by
  rw [pinsBelow, List.range_succ, List.reverse_concat, List.filter_cons]
  rfl

theorem mem_pinsBelow : i ∈ pinsBelow v n ↔ i < n ∧ v.getLsbD i = true := by
  simp [pinsBelow]

/-- Words that agree below `n` have the same pins there. -/
theorem pinsBelow_congr (h : ∀ i < n, v.getLsbD i = w.getLsbD i) : pinsBelow v n = pinsBelow w n :=
  List.filter_congr fun i hi => h i (by simpa using hi)

/-- A word with one bit cleared, lane by lane. -/
theorem clearBit_lane (v : Word) (i : Nat) {j : Nat} (hj : j < 32) :
    (v &&& ~~~(oneHot i)).getLsbD j = (v.getLsbD j && !decide (j = i)) := by
  rw [BitVec.getLsbD_and, BitVec.getLsbD_not, oneHot_lane i hj]
  simp [hj]

/-- The first of the pins below `n` is the highest set bit there, and the rest are those of the word
without it. -/
theorem pinsBelow_msb (hn : n ≤ 32) (h : ∃ i < n, v.getLsbD i = true) :
    pinsBelow v n = msbBelow v n :: pinsBelow (v &&& ~~~(oneHot (msbBelow v n))) n := by
  induction n with
  | zero => obtain ⟨i, hi, -⟩ := h; omega
  | succ n ih =>
    rw [pinsBelow_succ, pinsBelow_succ, msbBelow]
    by_cases hbit : v.getLsbD n = true
    · rw [if_pos hbit, if_pos hbit, clearBit_lane v n (by omega), if_neg (by simp)]
      congr 1
      refine pinsBelow_congr fun i hi => ?_
      rw [clearBit_lane v n (by omega)]
      simp [hi.ne]
    · have hex : ∃ i < n, v.getLsbD i = true := by
        obtain ⟨i, hi, hvi⟩ := h
        refine ⟨i, lt_of_le_of_ne (Nat.lt_succ_iff.1 hi) ?_, hvi⟩
        rintro rfl
        exact hbit hvi
      rw [if_neg hbit, if_neg hbit, clearBit_lane v _ (by omega), if_neg (by simp [hbit])]
      exact ih (by omega) hex

/-- A word is 0 when it has no set bit. -/
theorem eq_zero_of_lanes (h : ∀ i < 32, v.getLsbD i = false) : v = 0 :=
  BitVec.eq_of_getLsbD_eq fun i hi => by rw [h i hi]; exact BitVec.getLsbD_zero.symm

theorem exists_lane_of_ne_zero (h : v ≠ 0) : ∃ i < 32, v.getLsbD i = true := by
  by_contra hnone
  push Not at hnone
  exact h (eq_zero_of_lanes fun i hi => Bool.eq_false_iff.2 (hnone i hi))

theorem pinsDown_zero : pinsDown 0 = [] := by decide

/-- The pins of a word that is not 0: the highest, and then those of the word without it. -/
theorem pinsDown_msb (h : v ≠ 0) :
    pinsDown v = msb v :: pinsDown (v &&& ~~~(oneHot (msb v))) :=
  pinsBelow_msb le_rfl (exists_lane_of_ne_zero h)

theorem mem_pinsDown : i ∈ pinsDown v ↔ i < 32 ∧ v.getLsbD i = true := mem_pinsBelow

/-- The highest set bit is set. -/
theorem msb_lane (h : v ≠ 0) : msb v < 32 ∧ v.getLsbD (msb v) = true :=
  mem_pinsDown.1 (by rw [pinsDown_msb h]; exact List.mem_cons_self)

theorem pinsDown_eq_nil (h : pinsDown v = []) : v = 0 := by
  by_contra hne
  rw [pinsDown_msb hne] at h
  cases h

theorem length_pinsDown_le (v : Word) : (pinsDown v).length ≤ 32 := by
  have hlen := List.length_filter_le (fun i => v.getLsbD i) (List.range 32).reverse
  rwa [List.length_reverse, List.length_range] at hlen

/-- The pins go down. -/
theorem pairwise_pinsDown (v : Word) : (pinsDown v).Pairwise (· > ·) := by
  refine List.Pairwise.filter _ ?_
  rw [List.pairwise_reverse]
  exact List.pairwise_lt_range

/-- The pins of two words are those of the one that are of the other. -/
theorem pinsDown_and (v w : Word) :
    pinsDown (v &&& w) = (pinsDown v).filter fun i => w.getLsbD i := by
  rw [pinsDown, pinsDown, List.filter_filter]
  exact List.filter_congr fun i _ => by rw [BitVec.getLsbD_and, Bool.and_comm]

/-! ### The calls made for the pins -/

variable {b base : Nat} {ilr : Word} {acked : Bool} {pins : List Nat}

/-- The calls made for one pin (R195, R197). -/
def pinCalls (b base : Nat) (ilr : Word) (acked : Bool) (i : Nat) : List HostCall :=
  (if ilr.getLsbD i && !acked then [.chainedExit b] else []) ++ [.dispatch (base + i)]

theorem passCalls_nil :
    passCalls b base ilr acked [] = if acked then [] else [.chainedExit b] := rfl

/-- The calls for a list of pins are those for the first, and those for the rest with the cascade
exited if the first is an edge pin. -/
theorem passCalls_cons :
    passCalls b base ilr acked (i :: pins) =
      pinCalls b base ilr acked i ++ passCalls b base ilr (acked || ilr.getLsbD i) pins := by
  cases acked <;> cases hi : ilr.getLsbD i <;> simp [passCalls, pinCalls, hi]

/-- The pins are dispatched, in their order (R203). -/
theorem dispatched_passCalls : dispatched (passCalls b base ilr acked pins) = pins.map (base + ·) := by
  induction pins generalizing acked with
  | nil => cases acked <;> rfl
  | cons i rest ih =>
    rw [passCalls_cons, List.map_cons, ← ih (acked := acked || ilr.getLsbD i), pinCalls]
    split <;> rfl

/-- Steps 4 to 6 do not enter the cascade. -/
theorem count_chainedEnter_passCalls : (passCalls b base ilr acked pins).count (.chainedEnter b) = 0 := by
  induction pins generalizing acked with
  | nil => cases acked <;> simp [passCalls]
  | cons i rest ih =>
    rw [passCalls_cons, List.count_append, ih, pinCalls]
    split <;> simp

/-- They exit it once, unless it has been exited (R204). -/
theorem count_chainedExit_passCalls :
    (passCalls b base ilr acked pins).count (.chainedExit b) = if acked then 0 else 1 := by
  induction pins generalizing acked with
  | nil => cases acked <;> simp [passCalls]
  | cons i rest ih =>
    rw [passCalls_cons, List.count_append, ih, pinCalls]
    cases acked <;> cases ilr.getLsbD i <;> simp

/-- With no edge pin the exit comes last. -/
theorem getLast?_passCalls (h : ∀ i ∈ pins, ilr.getLsbD i = false) :
    (passCalls b base ilr false pins).getLast? = some (.chainedExit b) := by
  have hcalls : ∃ l, passCalls b base ilr false pins = l ++ [.chainedExit b] := by
    induction pins with
    | nil => exact ⟨[], rfl⟩
    | cons i rest ih =>
      obtain ⟨l, hl⟩ := ih fun j hj => h j (List.mem_cons_of_mem _ hj)
      rw [passCalls_cons, h i List.mem_cons_self, Bool.or_false, hl]
      exact ⟨_, (List.append_assoc _ _ _).symm⟩
  obtain ⟨l, hl⟩ := hcalls
  rw [hl, List.getLast?_concat]

/-- With an edge pin the exit comes immediately before the dispatch of the first. -/
theorem passCalls_first_edge {rest : List Nat}
    (h : (pins.filter fun j => ilr.getLsbD j) = i :: rest) :
    ∃ first last, passCalls b base ilr false pins =
      first ++ .chainedExit b :: .dispatch (base + i) :: last := by
  induction pins with
  | nil => cases h
  | cons j others ih =>
    by_cases hj : ilr.getLsbD j = true
    · rw [List.filter_cons_of_pos hj] at h
      cases h
      refine ⟨[], passCalls b base ilr true others, ?_⟩
      rw [passCalls_cons, hj]
      simp [pinCalls, hj]
    · rw [List.filter_cons_of_neg hj] at h
      obtain ⟨first, last, hcalls⟩ := ih h
      refine ⟨pinCalls b base ilr false j ++ first, last, ?_⟩
      rw [passCalls_cons, Bool.eq_false_iff.2 hj, Bool.or_false, hcalls, List.append_assoc]

end Sys2Proof.Machine
end

section
/-! PROOFS. A pass run with no other agent's step between its own: the states it goes through, and its
positions up to the scan of the pins (spec/43_demux.md R191 to R193). -/

namespace Sys2Proof.Machine

open Sys2Proof

variable {s : State} {b n : Nat} {k q q' : Bank} {hs : List (List Instr)} {tr : List HostCall}
  {c : Ctx} {r : PassRegs}

/-! ### The states of a pass -/

/-- The state with one bank, the queue of handlers and the record of calls replaced. -/
def State.passBase (s : State) (b : Nat) (q : Bank) (hs : List (List Instr)) (tr : List HostCall) :
    State :=
  { s with banks := s.banks.set b q, handlers := hs, trace := tr }

/-- The same, with the context of the bank's interrupt agent replaced: all that a pass changes. -/
def State.passAt (s : State) (b : Nat) (q : Bank) (hs : List (List Instr)) (tr : List HostCall)
    (c : Ctx) : State :=
  (s.passBase b q hs tr).setCtx (.irq b) c

theorem passBase_setBank : (s.passBase b q hs tr).setBank b q' = s.passBase b q' hs tr := by
  simp [State.passBase, State.setBank]

theorem passAt_setBank : (s.passAt b q hs tr c).setBank b q' = s.passAt b q' hs tr c := by
  rw [State.passAt, setBank_setCtx, passBase_setBank, State.passAt]

theorem passAt_setPass {p : Pass} :
    (s.passAt b q hs tr c).setPass b q' p = s.passAt b { q' with pass := p } hs tr c :=
  passAt_setBank

theorem passAt_emit {x : HostCall} :
    (s.passAt b q hs tr c).emit x = s.passAt b q hs (tr ++ [x]) c := rfl

theorem passAt_ctx : (s.passAt b q hs tr c).ctx (.irq b) = c := ctx_setCtx_same _ _ _

theorem passAt_setCtx {c' : Ctx} :
    (s.passAt b q hs tr c).setCtx (.irq b) c' = s.passAt b q hs tr c' := setCtx_setCtx _ _ _ _

theorem passBase_bank (hb : s.banks[b]? = some k) : (s.passBase b q hs tr).banks[b]? = some q :=
  banks_setBank_same s b q k hb

theorem passAt_bank (hb : s.banks[b]? = some k) : (s.passAt b q hs tr c).banks[b]? = some q :=
  passBase_bank (hs := hs) (tr := tr) hb

theorem passBase_resolvePin (hb : s.banks[b]? = some k) (hrow : q.row = k.row) (p : Nat) :
    (s.passBase b q hs tr).resolvePin p = s.resolvePin p :=
  resolveFrom_set hb hrow

theorem passAt_ready (hb : s.banks[b]? = some k) {pos : PassPos} (hp : q.pass = .active pos r)
    (hplan : c.plan = []) (hfault : c.fault = none) :
    (s.passAt b q hs tr c).passReady b = true :=
  passReady_iff.2 ⟨⟨q, pos, r, passAt_bank hb, hp⟩, by rw [passAt_ctx, hplan],
    by rw [passAt_ctx, hfault]⟩

/-- A pass does not run on while steps of its agent are left. -/
theorem runPass_of_plan {m : Micro} {p : List Micro} (hplan : c.plan = m :: p) :
    runPass b n (s.passAt b q hs tr c) = s.passAt b q hs tr c := by
  refine runPass_of_not_ready ?_
  rw [← Bool.not_eq_true, passReady_iff, passAt_ctx, hplan]
  rintro ⟨-, hnil, -⟩
  cases hnil

/-- A pass does not run on once it is idle. -/
theorem runPass_of_idle (hb : s.banks[b]? = some k) (hp : q.pass = .idle) :
    runPass b n (s.passAt b q hs tr c) = s.passAt b q hs tr c := by
  refine runPass_of_not_ready ?_
  rw [← Bool.not_eq_true, passReady_iff, passAt_bank hb]
  rintro ⟨⟨q', pos, r', hq, hp'⟩, -, -⟩
  cases hq
  rw [hp] at hp'
  cases hp'

/-! ### Positions that leave no steps -/

/-- A bank at a position of its pass, its line in service. -/
def Bank.inPass (k : Bank) (p : Pass) : Bank := { k with inService := true, pass := p }

/-- A pass plays no part in what the bank's registers read as. -/
theorem inPass_busRead (k : Bank) (p : Pass) (reg : Reg) :
    (k.inPass p).busRead reg = k.busRead reg := rfl

theorem pad_masked (k : Bank) : k.pad &&& k.pinMask = k.pad := by
  rw [Bank.pad, BitVec.and_assoc, BitVec.and_self]

section
variable (hb : s.banks[b]? = some k) (hplan : c.plan = []) (hfault : c.fault = none)
include hb hplan hfault

/-- A position whose step leaves none to be taken. -/
theorem runPass_move {pos : PassPos} {hs' : List (List Instr)} {tr' : List HostCall} {c' : Ctx}
    (hp : q.pass = .active pos r) (hplan' : c'.plan = [])
    (hstep : passStep b (s.passAt b q hs tr c) = .ok (s.passAt b q' hs' tr' c')) :
    runPass b (n + 1) (s.passAt b q hs tr c) = runPass b n (s.passAt b q' hs' tr' c') := by
  rw [runPass_succ (passAt_ready hb hp hplan hfault), movePass_ok hstep, State.drain, passAt_ctx,
    hplan', runPlan_nil]

/-- Step 1 (R191). -/
theorem runPass_enter :
    runPass b (n + 1) (s.passAt b { k with pass := .active .enter r } hs tr c) = runPass b n
      (s.passAt b (k.inPass (.active .snapIsr r)) hs (tr ++ [.chainedEnter b]) c) := by
  refine runPass_move hb hplan hfault rfl hplan ?_
  simp [passStep, onBank, passAt_bank hb, passAt_setBank, passAt_emit, Bank.chainedEnter, Bank.inPass]

/-- A snapshot read that succeeds (R192, R193). -/
theorem runPass_snap {pos : PassPos} {reg : Reg} {f : Word → Pass} {w : Word}
    (hread : k.busRead reg = .ok w)
    (hstep : ∀ t : State, t.banks[b]? = some (k.inPass (.active pos r)) →
      passStep b t = snapRead t b (k.inPass (.active pos r)) reg f) :
    runPass b (n + 1) (s.passAt b (k.inPass (.active pos r)) hs tr c) =
      runPass b n (s.passAt b (k.inPass (f w)) hs tr c) := by
  refine runPass_move hb hplan hfault rfl hplan ?_
  rw [hstep _ (passAt_bank hb), snapRead, inPass_busRead, hread]
  exact congrArg MicroOut.ok passAt_setPass

/-- Steps 2 and 3 up to the toggle mask: the status and the type (R192). -/
theorem runPass_snapIsr (hc : k.clockOn = true) (hty : k.inttype &&& k.pinMask = k.inttype) :
    runPass b (n + 2) (s.passAt b (k.inPass (.active .snapIsr r)) hs tr c) = runPass b n
      (s.passAt b (k.inPass (.active .snapTmask { r with
        isrSnap := k.status, ilrSnap := k.inttype })) hs tr c) := by
  rw [runPass_snap hb hplan hfault (w := k.status) (busRead_intstatus hc)
      (f := fun w => .active .snapIlr { r with isrSnap := w })
      fun t ht => by simp [passStep, onBank, ht, Bank.inPass],
    runPass_snap hb hplan hfault (w := k.inttype)
      ((busRead_stored (r := .inttype) hc (by decide)).trans (congrArg _ hty))
      (f := fun w => .active .snapTmask { r with isrSnap := k.status, ilrSnap := w })
      fun t ht => by simp [passStep, onBank, ht, Bank.inPass]]

/-- With no pin under both-edge emulation the pass begins to scan (R193). -/
theorem runPass_snapTmask_none (ht : k.toggleEdgeMask = 0) :
    runPass b (n + 1) (s.passAt b (k.inPass (.active .snapTmask r)) hs tr c) = runPass b n
      (s.passAt b (k.inPass (.active .scan
        (PassRegs.scanStart { r with tmaskSnap := k.toggleEdgeMask }))) hs tr c) := by
  refine runPass_move hb hplan hfault rfl hplan ?_
  simp [passStep, onBank, passAt_bank hb, passAt_setPass, Bank.inPass, ht]

/-- With such a pin it reads the polarity and the level first (R193). -/
theorem runPass_snapTmask_some (ht : k.toggleEdgeMask ≠ 0) :
    runPass b (n + 1) (s.passAt b (k.inPass (.active .snapTmask r)) hs tr c) = runPass b n
      (s.passAt b (k.inPass (.active .snapPol { r with tmaskSnap := k.toggleEdgeMask })) hs tr
        c) := by
  have ht : ¬k.toggleEdgeMask = 0#32 := ht
  refine runPass_move hb hplan hfault rfl hplan ?_
  simp [passStep, onBank, passAt_bank hb, passAt_setPass, Bank.inPass, ht]

theorem runPass_snapPol (hc : k.clockOn = true) (hpol : k.intpol &&& k.pinMask = k.intpol) :
    runPass b (n + 2) (s.passAt b (k.inPass (.active .snapPol r)) hs tr c) = runPass b n
      (s.passAt b (k.inPass (.active .scan (PassRegs.scanStart { r with
        polSnap := some k.intpol, lvlSnap := some k.pad }))) hs tr c) := by
  rw [runPass_snap hb hplan hfault (w := k.intpol)
      ((busRead_stored (r := .intpol) hc (by decide)).trans (congrArg _ hpol))
      (f := fun w => .active .snapLvl { r with polSnap := some w })
      fun t ht => by simp [passStep, onBank, ht, Bank.inPass],
    runPass_snap hb hplan hfault (w := k.pad)
      ((busRead_ext hc).trans (congrArg _ (pad_masked k)))
      (f := fun w => .active .scan (PassRegs.scanStart { r with
        polSnap := some k.intpol, lvlSnap := some w }))
      fun t ht => by simp [passStep, onBank, ht, Bank.inPass]]

end

/-! ### The snapshots -/

/-- The registers of a pass when it begins to scan (R192, R193). -/
def Bank.firstScan (k : Bank) : PassRegs :=
  if k.toggleEdgeMask = 0 then
    { isrSnap := k.status, ilrSnap := k.inttype, tmaskSnap := k.toggleEdgeMask
      remaining := k.status }
  else
    { isrSnap := k.status, ilrSnap := k.inttype, tmaskSnap := k.toggleEdgeMask
      polSnap := some k.intpol, lvlSnap := some k.pad, newPol := some k.intpol
      remaining := k.status }

/-- The state of a pass that scans, its bank's latches `L`: the line is in service until the exit that
`acked` records. -/
def State.scanning (s : State) (b : Nat) (k : Bank) (L : Word) (hs : List (List Instr))
    (tr : List HostCall) (c : Ctx) (r : PassRegs) : State :=
  s.passAt b { k with latch := L, inService := !r.acked, pass := .active .scan r } hs tr c

/-- Steps 1 to 3 of a pass (R191 to R193). -/
theorem runPass_snapshots (hb : s.banks[b]? = some k) (hc : k.clockOn = true)
    (hlanes : k.lanesOk = true) (hplan : c.plan = []) (hfault : c.fault = none) :
    ∃ m, n ≤ m ∧ runPass b (n + 6) (s.passAt b { k with pass := .active .enter {} } hs tr c) =
      runPass b m (s.scanning b k k.latch hs (tr ++ [.chainedEnter b]) c k.firstScan) := by
  obtain ⟨-, -, -, hty, hpol, -, -⟩ := lanesOk_iff.1 hlanes
  rw [runPass_enter hb hplan hfault,
    runPass_snapIsr hb hplan hfault hc (and_pinMask_of_within hty)]
  by_cases ht : k.toggleEdgeMask = 0
  · refine ⟨n + 2, by omega, ?_⟩
    rw [runPass_snapTmask_none hb hplan hfault ht, State.scanning, Bank.firstScan, if_pos ht]
    rfl
  · refine ⟨n, le_rfl, ?_⟩
    rw [runPass_snapTmask_some hb hplan hfault ht,
      runPass_snapPol hb hplan hfault hc (and_pinMask_of_within hpol), State.scanning,
      Bank.firstScan, if_neg ht]
    rfl

end Sys2Proof.Machine
end

section
/-! PROOFS. The scan of a pass: one pin after the other, the rewrite of the polarity and the end
(spec/43_demux.md R194 to R200). -/

namespace Sys2Proof.Machine

open Sys2Proof

variable {s : State} {b n i : Nat} {k q : Bank} {hs : List (List Instr)} {tr : List HostCall}
  {c : Ctx} {r : PassRegs} {L : Word}

/-! ### One dispatch -/

/-- A pin is dispatched as edge-type when it is under both-edge emulation or of edge type (R48,
R255). -/
theorem isEdgeTrigger_triggerType (k : Bank) (i : Nat) :
    isEdgeTrigger (k.triggerType i) = (k.toggleEdgeMask.getLsbD i || k.inttype.getLsbD i) := by
  unfold Bank.triggerType
  cases k.toggleEdgeMask.getLsbD i <;> cases k.inttype.getLsbD i <;>
    cases k.intpol.getLsbD i <;> rfl

/-- The context of an interrupt agent whose dispatch has run to its end. -/
def dispatchedCtx : Ctx := { plan := [], loc := {}, result := some (.code .ok), fault := none }

/-- The bank of a pass at a position, its latches `L` and its line in service or not. -/
def Bank.atPos (k : Bank) (L : Word) (x : Bool) (pos : PassPos) (r : PassRegs) : Bank :=
  { k with latch := L, inService := x, pass := .active pos r }

/-- Steps 4b and 4c with an empty handler: the host flow's steps are the agent's to take. -/
theorem servicePin_at {x : Bool} {p : List Micro}
    (hp : p = flowPlan (s.passAt b (k.atPos L x .service r) ([] :: hs) tr c)
      (k.row.basePin + r.cur) (k.triggerType r.cur) [] ++ [.serviced b]) :
    (servicePin (s.passAt b (k.atPos L x .service r) ([] :: hs) tr c) b
        (k.atPos L x .service r) r).drain (.irq b) =
      runPlan (.irq b) p (s.passAt b (k.atPos L x .service r.toggle) hs
        (tr ++ [.dispatch (k.row.baseIrq + r.cur)]) { c with plan := p }) := by
  have hdraw : ∀ q, (s.passAt b q ([] :: hs) tr c).drawHandler = ([], s.passAt b q hs tr c) :=
    fun _ => rfl
  subst hp
  simp only [servicePin, hdraw, passAt_setPass, passAt_emit, setPlan_eq, passAt_ctx, passAt_setCtx,
    State.drain]
  rfl

/-- The default flow of an edge pin with an empty handler is an acknowledge (R255). -/
theorem flowPlan_edge {pin : Nat} {t : Trigger} (hflow : s.cfg.hostFlow = HostFlow.default)
    (ht : isEdgeTrigger t = true) : flowPlan s pin t [] = planIrqAck pin s := by
  simp [flowPlan, ht, hflow, HostFlow.default, flowStepPlan, handlerPlan]

/-- That of a level pin begins with a mask (R255). -/
theorem flowPlan_level {pin : Nat} {t : Trigger} (hflow : s.cfg.hostFlow = HostFlow.default)
    (ht : isEdgeTrigger t = false) : ∃ rest, flowPlan s pin t [] = planIrqDisable pin s ++ rest :=
  ⟨planIrqAck pin s ++ planIrqEnable pin s, by
    simp [flowPlan, ht, hflow, HostFlow.default, flowStepPlan, handlerPlan, handlerDisables]⟩

/-- What a dispatch needs: the bank clocked and its enables within its pins, the default flow, and
the pin one of the bank's that is enabled. -/
structure Serviceable (s : State) (b : Nat) (k : Bank) (i : Nat) : Prop where
  bank : s.banks[b]? = some k
  clocked : k.clockOn = true
  flow : s.cfg.hostFlow = HostFlow.default
  pin : s.resolvePin (k.row.basePin + i) = some (b, i)
  lanes : k.inten &&& k.pinMask = k.inten
  enabled : k.inten.getLsbD i = true

/-- An acknowledge, and the mark that ends step 4c. -/
theorem runPlan_ack_serviced {x : Bool} {t : State} (H : Serviceable s b k r.cur)
    (hfault : c.fault = none)
    (ht : t.resolvePin (k.row.basePin + r.cur) = s.resolvePin (k.row.basePin + r.cur)) :
    runPlan (.irq b) (planIrqAck (k.row.basePin + r.cur) t ++ [.serviced b])
        (s.passAt b (k.atPos L x .service r) hs tr c) =
      s.passAt b (k.atPos (setBit L r.cur false) x .clear r) hs tr
        dispatchedCtx := by
  have hpin : (s.passBase b (k.atPos L x .service r) hs tr).resolvePin (k.row.basePin + r.cur) =
      s.resolvePin (k.row.basePin + r.cur) :=
    passBase_resolvePin (q := k.atPos L x .service r) H.bank rfl _
  rw [State.passAt, runPlan_ack (hpin.trans H.pin) (passBase_bank H.bank) (by exact H.clocked) t
    (ht.trans hpin.symm), passBase_setBank, runPlan_serviced (passBase_bank H.bank) rfl,
    passBase_setBank, runPlan_nil, hfault]
  rfl

/-- Steps 4b and 4c on one pin, where the lock is free or the pin takes the edge flow: the pin is
dispatched and its latch is clear (R196, R197, R255). -/
theorem drain_service {x : Bool} (H : Serviceable s b k r.cur) (hfault : c.fault = none)
    (hfree : k.lock = none ∨ isEdgeTrigger (k.triggerType r.cur) = true) :
    (servicePin (s.passAt b (k.atPos L x .service r) ([] :: hs) tr c) b
        (k.atPos L x .service r) r).drain (.irq b) =
      s.passAt b (k.atPos (setBit L r.cur false) x .clear r.toggle) hs
        (tr ++ [.dispatch (k.row.baseIrq + r.cur)]) dispatchedCtx := by
  have hpin : (s.passAt b (k.atPos L x .service r) ([] :: hs) tr c).resolvePin
      (k.row.basePin + r.cur) = s.resolvePin (k.row.basePin + r.cur) :=
    passBase_resolvePin (q := k.atPos L x .service r) (hs := [] :: hs) (tr := tr) H.bank rfl _
  by_cases hedge : isEdgeTrigger (k.triggerType r.cur) = true
  · have hflow := flowPlan_edge (s := s.passAt b (k.atPos L x .service r) ([] :: hs) tr c)
      (pin := k.row.basePin + r.cur) H.flow hedge
    have hrun := runPlan_ack_serviced (L := L) (x := x) (r := r.toggle) (hs := hs)
      (t := s.passAt b (k.atPos L x .service r) ([] :: hs) tr c)
      (tr := tr ++ [.dispatch (k.row.baseIrq + r.cur)])
      (c := { c with
        plan := planIrqAck (k.row.basePin + r.cur)
          (s.passAt b (k.atPos L x .service r) ([] :: hs) tr c) ++ [.serviced b] })
      (by rwa [toggle_cur]) hfault (by rw [toggle_cur]; exact hpin)
    rw [toggle_cur] at hrun
    rw [servicePin_at (by rw [hflow]), hrun]
  · have hl := hfree.resolve_right hedge
    rw [drain_servicePin (passAt_bank H.bank) (by exact hl) (by exact H.clocked)
      (by exact H.flow) rfl (by exact hpin.trans H.pin) (by exact H.lanes) (by exact H.enabled)
      (by rw [passAt_ctx, hfault])]
    refine (congrArg (fun t : State => (t.emit _).setCtx (.irq b) dispatchedCtx)
      (passAt_setBank (s := s) (b := b) (hs := hs) (tr := tr) (c := c))).trans ?_
    rw [passAt_emit, passAt_setCtx]
    rfl

/-- Where another agent holds the lock, the dispatch of a level pin waits for it. -/
theorem drain_service_waits {x : Bool} {h : Agent} (H : Serviceable s b k r.cur)
    (hl : k.lock = some h) (hne : h ≠ .irq b)
    (hlevel : isEdgeTrigger (k.triggerType r.cur) = false) :
    ∃ p, (servicePin (s.passAt b (k.atPos L x .service r) ([] :: hs) tr c) b
        (k.atPos L x .service r) r).drain (.irq b) =
      s.passAt b (k.atPos L x .service r.toggle) hs (tr ++ [.dispatch (k.row.baseIrq + r.cur)])
        { c with plan := .lock b :: p } := by
  have hpin : (s.passAt b (k.atPos L x .service r) ([] :: hs) tr c).resolvePin
      (k.row.basePin + r.cur) = s.resolvePin (k.row.basePin + r.cur) :=
    passBase_resolvePin (q := k.atPos L x .service r) (hs := [] :: hs) (tr := tr) H.bank rfl _
  obtain ⟨rest, hflow⟩ := flowPlan_level (s := s.passAt b (k.atPos L x .service r) ([] :: hs) tr c)
    (pin := k.row.basePin + r.cur) H.flow hlevel
  obtain ⟨p, hp⟩ : ∃ p, flowPlan (s.passAt b (k.atPos L x .service r) ([] :: hs) tr c)
      (k.row.basePin + r.cur) (k.triggerType r.cur) [] ++ [.serviced b] = .lock b :: p := by
    rw [hflow, planIrqDisable, onPin_some (hpin.trans H.pin), lockedOk]
    exact ⟨_, rfl⟩
  refine ⟨p, ?_⟩
  rw [servicePin_at hp.symm]
  exact runPlan_lock_waits (passBase_bank (q := k.atPos L x .service r.toggle) H.bank) hl hne _

/-! ### One pin -/

/-- The pass registers when a pin has been chosen, and the exit from the cascade made if it is an
edge pin (R194, R195). -/
def PassRegs.select (r : PassRegs) : PassRegs :=
  { r with cur := msb r.remaining, acked := r.acked || r.ilrSnap.getLsbD (msb r.remaining) }

/-- The pass registers when that pin is done (R196 to R198). -/
def PassRegs.afterPin (r : PassRegs) : PassRegs :=
  { r.select.toggle with
    remaining := r.select.toggle.remaining &&& ~~~(oneHot r.select.toggle.cur) }

section
variable (hb : s.banks[b]? = some k) (hplan : c.plan = []) (hfault : c.fault = none)
include hb hplan hfault

/-- Steps 4 and 4a: the highest pin left is chosen (R194, R195). -/
theorem runPass_select (hrem : r.remaining ≠ 0) :
    runPass b (n + 1) (s.scanning b k L hs tr c r) = runPass b n
      (s.passAt b (k.atPos L (!r.select.acked) .service r.select) hs
        (tr ++ if r.ilrSnap.getLsbD (msb r.remaining) && !r.acked then [.chainedExit b] else [])
        c) := by
  have hrem : ¬r.remaining = 0#32 := hrem
  refine runPass_move hb hplan hfault rfl hplan ?_
  by_cases hexit : (r.ilrSnap.getLsbD (msb r.remaining) && !r.acked) = true
  · have hedge : r.ilrSnap.getLsbD (msb r.remaining) = true ∧ r.acked = false := by
      simpa using hexit
    simp [passStep, onBank, passAt_bank hb, hrem, hedge, passAt_setBank, passAt_emit,
      Bank.chainedExit, Bank.atPos, PassRegs.select]
  · have hsame : (r.acked || r.ilrSnap.getLsbD (msb r.remaining)) = r.acked := by
      revert hexit
      cases r.acked <;> cases r.ilrSnap.getLsbD (msb r.remaining) <;> simp
    simp [passStep, onBank, passAt_bank hb, hrem, hexit, passAt_setPass, Bank.atPos,
      PassRegs.select, hsame]

/-- The position after a dispatch (R198). -/
theorem runPass_clear {x : Bool} :
    runPass b (n + 1) (s.passAt b (k.atPos L x .clear r) hs tr c) = runPass b n
      (s.passAt b (k.atPos L x .scan
        { r with remaining := r.remaining &&& ~~~(oneHot r.cur) }) hs tr c) := by
  refine runPass_move hb hplan hfault rfl hplan ?_
  simp [passStep, onBank, passAt_bank hb, passAt_setPass, Bank.atPos]

end

/-- The dispatch that a pass makes at its position `Service`, run to its end or to a wait. -/
theorem runPass_service {x : Bool} (hb : s.banks[b]? = some k) (hplan : c.plan = [])
    (hfault : c.fault = none) :
    runPass b (n + 1) (s.passAt b (k.atPos L x .service r) hs tr c) =
      runPass b n ((servicePin (s.passAt b (k.atPos L x .service r) hs tr c) b
        (k.atPos L x .service r) r).drain (.irq b)) := by
  rw [runPass_succ (passAt_ready hb rfl hplan hfault), movePass_ok]
  simp [passStep, onBank, passAt_bank hb, Bank.atPos]

/-- Steps 4 to 4d on one pin, where the lock is free or the pin takes the edge flow: the pin is
dispatched, its latch is clear, and it is no more among those that remain (R194 to R198). -/
theorem runPass_pin (H : Serviceable s b k (msb r.remaining)) (hplan : c.plan = [])
    (hfault : c.fault = none) (hrem : r.remaining ≠ 0)
    (hfree : k.lock = none ∨ isEdgeTrigger (k.triggerType (msb r.remaining)) = true) :
    runPass b (n + 3) (s.scanning b k L ([] :: hs) tr c r) =
      runPass b n (s.scanning b k (setBit L (msb r.remaining) false) hs
        (tr ++ pinCalls b k.row.baseIrq r.ilrSnap r.acked (msb r.remaining)) dispatchedCtx
        r.afterPin) := by
  rw [runPass_select H.bank hplan hfault hrem, runPass_service H.bank hplan hfault,
    drain_service (r := r.select) H hfault hfree, runPass_clear H.bank rfl rfl, State.scanning,
    PassRegs.afterPin, toggle_acked, pinCalls, List.append_assoc]
  rfl

end Sys2Proof.Machine
end

section
/-! PROOFS. The whole of a pass: what holds while it scans, its end, and all its pins one after the
other, run through or up to a lock that another agent holds (spec/43_demux.md R194 to R207). -/

namespace Sys2Proof.Machine

open Sys2Proof

variable {s : State} {b n i base : Nat} {k q : Bank} {hs : List (List Instr)} {tr : List HostCall}
  {c : Ctx} {r : PassRegs} {L pol v w T lvl : Word}

/-! ### The polarity to be written -/

/-- The polarity after a pass, lane by lane (R196, R205). -/
theorem rearmed_lane (hi : i < 32) :
    (rearmed pol v T lvl).getLsbD i =
      if v.getLsbD i && T.getLsbD i then !lvl.getLsbD i else pol.getLsbD i := by
  simp only [rearmed, BitVec.getLsbD_or, BitVec.getLsbD_and, BitVec.getLsbD_not, hi]
  cases v.getLsbD i <;> cases T.getLsbD i <;> simp

/-- One both-edge pin is armed for the edge away from its level. -/
theorem rearmed_oneHot (h : T.getLsbD i = true) :
    rearmed pol (oneHot i) T lvl = setBit pol i (!lvl.getLsbD i) := by
  refine BitVec.eq_of_getLsbD_eq fun j hj => ?_
  rw [rearmed_lane hj, setBit_lane pol i _ hj, oneHot_lane i hj]
  by_cases hij : j = i
  · subst hij; simp [h]
  · simp [hij]

/-- A pin that is not under both-edge emulation keeps its polarity. -/
theorem rearmed_oneHot_not (h : T.getLsbD i = false) : rearmed pol (oneHot i) T lvl = pol := by
  refine BitVec.eq_of_getLsbD_eq fun j hj => ?_
  rw [rearmed_lane hj, oneHot_lane i hj]
  by_cases hij : j = i
  · subst hij; simp [h]
  · simp [hij]

/-- The pins may be rearmed one after the other. -/
theorem rearmed_step (h : v.getLsbD i = true) :
    rearmed (rearmed pol (oneHot i) T lvl) (v &&& ~~~(oneHot i)) T lvl = rearmed pol v T lvl := by
  refine BitVec.eq_of_getLsbD_eq fun j hj => ?_
  rw [rearmed_lane hj, rearmed_lane hj, rearmed_lane hj, clearBit_lane v i hj, oneHot_lane i hj]
  by_cases hij : j = i
  · subst hij; simp [h]
  · simp [hij]

theorem rearmed_none : rearmed pol 0 T lvl = pol := by
  refine BitVec.eq_of_getLsbD_eq fun j hj => ?_
  rw [rearmed_lane hj]
  simp

/-- A rearmed pin of the bank leaves the polarity within its pins. -/
theorem rearmed_lanes (hpol : pol &&& k.pinMask = pol) (hv : v &&& k.pinMask = v) :
    rearmed pol v T lvl &&& k.pinMask = rearmed pol v T lvl := by
  refine BitVec.eq_of_getLsbD_eq fun j hj => ?_
  have hpolj := congrArg (BitVec.getLsbD · j) hpol
  have hvj := congrArg (BitVec.getLsbD · j) hv
  simp only [BitVec.getLsbD_and] at hpolj hvj
  rw [BitVec.getLsbD_and, rearmed_lane hj]
  revert hpolj hvj
  cases pol.getLsbD j <;> cases v.getLsbD j <;> cases k.pinMask.getLsbD j <;> simp

/-! ### Latches cleared one after the other -/

theorem clear_none : L &&& ~~~(0 : Word) = L := by
  rw [show ~~~(0 : Word) = BitVec.allOnes 32 from BitVec.not_zero, BitVec.and_allOnes]

theorem clear_then_clear (h : v.getLsbD i = true) :
    setBit L i false &&& ~~~(v &&& ~~~(oneHot i)) = L &&& ~~~v := by
  refine BitVec.eq_of_getLsbD_eq fun j hj => ?_
  rw [BitVec.getLsbD_and, BitVec.getLsbD_and, BitVec.getLsbD_not, BitVec.getLsbD_not,
    setBit_lane L i false hj, clearBit_lane v i hj]
  by_cases hij : j = i
  · subst hij; simp [h]
  · simp [hij]

/-! ### What holds while a pass scans -/

/-- The registers of a pass that scans bank `k`: its snapshots, and `pol`, the polarity computed so
far, which is to be written if a both-edge pin has been serviced (R193, R196). -/
structure Scanning (k : Bank) (r : PassRegs) (pol : Word) : Prop where
  ilr : r.ilrSnap = k.inttype
  tmask : r.tmaskSnap = k.toggleEdgeMask
  level : k.toggleEdgeMask ≠ 0 → r.lvlSnap = some k.pad ∧ r.newPol = some pol
  kept : r.needUpdate = false → pol = k.intpol
  rewritten : r.needUpdate = true → k.toggleEdgeMask ≠ 0
  lanes : pol &&& k.pinMask = pol

/-- It holds when the snapshots have been taken. -/
theorem scanning_firstScan (hlanes : k.lanesOk = true) : Scanning k k.firstScan k.intpol := by
  obtain ⟨-, -, -, -, hpol, -, -⟩ := lanesOk_iff.1 hlanes
  have hpol := and_pinMask_of_within hpol
  unfold Bank.firstScan
  split
  case isTrue h => exact ⟨rfl, rfl, fun hne => absurd h hne, fun _ => rfl, nofun, hpol⟩
  case isFalse h => exact ⟨rfl, rfl, fun _ => ⟨rfl, rfl⟩, fun _ => rfl, nofun, hpol⟩

theorem firstScan_remaining (k : Bank) : k.firstScan.remaining = k.status := by
  unfold Bank.firstScan
  split <;> rfl

theorem firstScan_acked (k : Bank) : k.firstScan.acked = false := by
  unfold Bank.firstScan
  split <;> rfl

theorem toggle_remaining (r : PassRegs) : r.toggle.remaining = r.remaining := by
  unfold PassRegs.toggle; split <;> rfl

/-- One pin fewer remains. -/
theorem afterPin_remaining (r : PassRegs) :
    r.afterPin.remaining = r.remaining &&& ~~~(oneHot (msb r.remaining)) := by
  simp only [PassRegs.afterPin, toggle_remaining, toggle_cur]
  rfl

theorem afterPin_acked (r : PassRegs) :
    r.afterPin.acked = (r.acked || r.ilrSnap.getLsbD (msb r.remaining)) :=
  toggle_acked r.select

/-- A both-edge pin leaves the rewrite to be made (R196). -/
theorem afterPin_needUpdate (r : PassRegs) :
    r.afterPin.needUpdate = (r.needUpdate || r.tmaskSnap.getLsbD (msb r.remaining)) := by
  have htoggle : ∀ x : PassRegs,
      x.toggle.needUpdate = (x.needUpdate || x.tmaskSnap.getLsbD x.cur) := by
    intro x
    unfold PassRegs.toggle
    split
    case isTrue h => simp [h]
    case isFalse h => simp [Bool.eq_false_iff.2 h]
  exact htoggle r.select

/-- It holds again after a pin, that pin's polarity computed. -/
theorem Scanning.afterPin (H : Scanning k r pol) (hpin : oneHot (msb r.remaining) &&& k.pinMask =
    oneHot (msb r.remaining)) :
    Scanning k r.afterPin (rearmed pol (oneHot (msb r.remaining)) k.toggleEdgeMask k.pad) := by
  have hlanes := rearmed_lanes (T := k.toggleEdgeMask) (lvl := k.pad) H.lanes hpin
  have hneed := afterPin_needUpdate r
  rw [H.tmask] at hneed
  by_cases hT : k.toggleEdgeMask.getLsbD (msb r.remaining) = true
  · have hne : k.toggleEdgeMask ≠ 0 := by
      rintro h0
      rw [h0] at hT
      cases BitVec.getLsbD_zero.symm.trans hT
    obtain ⟨hlvl, hnew⟩ := H.level hne
    have htoggle : r.select.toggle = { r.select with
        newPol := some (rearmed pol (oneHot (msb r.remaining)) k.toggleEdgeMask k.pad)
        needUpdate := true } := by
      have hsel : r.select.tmaskSnap.getLsbD r.select.cur = true :=
        (congrArg (BitVec.getLsbD · _) H.tmask).trans hT
      rw [PassRegs.toggle, if_pos hsel, rearmed_oneHot hT]
      simp [PassRegs.select, hlvl, hnew]
    rw [hT, Bool.or_true] at hneed
    refine ⟨?_, ?_, fun _ => ⟨?_, ?_⟩, fun h => absurd (hneed.symm.trans h) (by simp), fun _ => hne,
      hlanes⟩
    · rw [PassRegs.afterPin, htoggle]; exact H.ilr
    · rw [PassRegs.afterPin, htoggle]; exact H.tmask
    · rw [PassRegs.afterPin, htoggle]; exact hlvl
    · rw [PassRegs.afterPin, htoggle]
  · have hT := Bool.eq_false_iff.2 hT
    have htoggle : r.select.toggle = r.select := by
      have hsel : r.select.tmaskSnap.getLsbD r.select.cur = false :=
        (congrArg (BitVec.getLsbD · _) H.tmask).trans hT
      rw [PassRegs.toggle, if_neg (by simp [hsel])]
    rw [hT, Bool.or_false] at hneed
    rw [rearmed_oneHot_not hT, PassRegs.afterPin, htoggle] at *
    exact ⟨H.ilr, H.tmask, H.level, H.kept, H.rewritten, H.lanes⟩

/-! ### The end of a pass -/

/-- The mark that ends step 5. -/
theorem runPlan_updated {a : Agent} {rest : List Micro} (hb : s.banks[b]? = some q)
    (hp : q.pass = .active .update r) :
    runPlan a (.updated b :: rest) (s.setCtx a c) =
      runPlan a rest ((s.setBank b { q with pass := .active .exit r }).setCtx a
        { c with plan := rest, loc := {} }) := by
  simp [runPlan, microStep, onBank, hb, hp, setLoc_eq, setPlan_eq, setBank_setCtx]

/-- The context of an interrupt agent whose pass has ended: nothing is returned (R98, R202). -/
def passEndedCtx : Ctx := { plan := [], loc := {}, result := some .done, fault := none }

/-- The bank of a pass that has ended. -/
def Bank.afterPass (k : Bank) (L pol : Word) : Bank :=
  { k with latch := L, intpol := pol, inService := false, pass := .idle }

section
variable (hb : s.banks[b]? = some k) (hplan : c.plan = []) (hfault : c.fault = none)
include hb hplan hfault

/-- Step 6: the pass ends, with its cascade exit if it has not been made (R200, R201). -/
theorem runPass_exit (hp : q.pass = .active .exit r) (hin : q.inService = !r.acked) :
    runPass b (n + 1) (s.passAt b q hs tr c) =
      s.passAt b { q with inService := false, pass := .idle } hs
        (tr ++ if r.acked then [] else [.chainedExit b]) passEndedCtx := by
  rw [runPass_move hb hplan hfault hp (q' := { q with inService := false, pass := .idle })
    (hs' := hs) (tr' := tr ++ if r.acked then [] else [.chainedExit b]) (c' := passEndedCtx) rfl,
    runPass_of_idle hb rfl]
  cases hacked : r.acked with
  | true =>
    have hq : q.inService = false := by rw [hin, hacked]; rfl
    simp [passStep, onBank, passAt_bank hb, hp, hacked, passAt_setPass, returned_eq, passAt_ctx,
      passAt_setCtx, passEndedCtx, hplan, hfault, hq]
  | false =>
    simp [passStep, onBank, passAt_bank hb, hp, hacked, passAt_setBank, passAt_emit, returned_eq,
      passAt_ctx, passAt_setCtx, passEndedCtx, hplan, hfault, Bank.chainedExit]

/-- With no pin left the pass goes on to the rewrite, if it is to be made, or to its end (R199). -/
theorem runPass_scanned (hrem : r.remaining = 0) :
    runPass b (n + 1) (s.scanning b k L hs tr c r) = runPass b n
      (s.passAt b (k.atPos L (!r.acked) (if r.needUpdate then .update else .exit) r) hs tr c) := by
  refine runPass_move hb hplan hfault rfl hplan ?_
  have hrem : r.remaining = 0#32 := hrem
  cases hneed : r.needUpdate <;>
    simp [passStep, onBank, passAt_bank hb, passAt_setPass, Bank.atPos, hrem, hneed]

/-- Step 5 begins with the lock (R199). -/
theorem runPass_update (hp : q.pass = .active .update r) (hpol : r.newPol = some pol) :
    runPass b (n + 1) (s.passAt b q hs tr c) = runPass b n
      (runPlan (.irq b) (updatePlan b pol ++ [.updated b]) (s.passAt b q hs tr
        { c with plan := updatePlan b pol ++ [.updated b] })) := by
  have hstep : passStep b (s.passAt b q hs tr c) = .ok (s.passAt b q hs tr
      { c with plan := updatePlan b pol ++ [.updated b] }) := by
    simp [passStep, onBank, passAt_bank hb, hp, hpol, setPlan_eq, passAt_ctx, passAt_setCtx]
  rw [runPass_succ (passAt_ready hb hp hplan hfault), movePass_ok hstep, State.drain, passAt_ctx]

/-- The rewrite run through (R199, R205). -/
theorem runPass_updated (hp : q.pass = .active .update r) (hpol : r.newPol = some pol)
    (hl : q.lock = none) (hc : q.clockOn = true) :
    runPass b (n + 1) (s.passAt b q hs tr c) = runPass b n
      (s.passAt b { q with
        intpol := pol &&& q.pinMask, inten := q.inten &&& q.pinMask, pass := .active .exit r } hs tr
        { plan := [], loc := {}, result := c.result, fault := none }) := by
  rw [runPass_update hb hplan hfault hp hpol, State.passAt]
  obtain ⟨l, hrun⟩ := runPlan_updatePlan (a := .irq b) (rest := [.updated b]) pol
    { c with plan := updatePlan b pol ++ [.updated b] } (passBase_bank (hs := hs) (tr := tr) hb)
    hl hc
  rw [hrun, passBase_setBank, runPlan_updated (passBase_bank hb) (by exact hp), passBase_setBank,
    runPlan_nil, hfault]
  rfl

/-- A pass with no pin left runs to its end, and has written the polarity that it computed (R199 to
R201). -/
theorem runPass_end (H : Scanning k r pol) (hl : k.lock = none) (hc : k.clockOn = true)
    (hen : k.inten &&& k.pinMask = k.inten) (hrem : r.remaining = 0) :
    runPass b (n + 3) (s.scanning b k L hs tr c r) =
      s.passAt b (k.afterPass L pol) hs (tr ++ passCalls b base r.ilrSnap r.acked [])
        passEndedCtx := by
  rw [runPass_scanned hb hplan hfault hrem, passCalls_nil]
  cases hneed : r.needUpdate with
  | false =>
    rw [if_neg (by simp), runPass_exit hb hplan hfault rfl rfl, H.kept hneed]
    rfl
  | true =>
    obtain ⟨-, hpol⟩ := H.level (H.rewritten hneed)
    rw [if_pos rfl,
      runPass_updated hb hplan hfault (q := k.atPos L (!r.acked) .update r) rfl hpol hl hc,
      runPass_exit hb rfl rfl rfl rfl]
    have hbank : (k.afterPass L pol) = { k with
        latch := L, intpol := pol &&& k.pinMask, inten := k.inten &&& k.pinMask
        inService := false, pass := .idle } := by
      rw [H.lanes, hen]
      rfl
    rw [hbank]
    rfl

end

/-! ### All the pins -/

/-- A pin that can be serviced has its lane. -/
theorem Serviceable.lane (H : Serviceable s b k i) : oneHot i &&& k.pinMask = oneHot i := by
  refine BitVec.eq_of_getLsbD_eq fun j hj => ?_
  have henj := congrArg (BitVec.getLsbD · j) H.lanes
  simp only [BitVec.getLsbD_and] at henj
  rw [BitVec.getLsbD_and, oneHot_lane i hj]
  by_cases hij : j = i
  · subst hij
    rw [H.enabled] at henj
    simpa using henj
  · simp [hij]

/-- A queue that supplies a first handler begins with it. -/
theorem exists_cons_of_first {x : List Instr} (h : hs[0]? = some x) : ∃ hs', hs = x :: hs' := by
  cases hs with
  | nil => cases h
  | cons y hs' => exact ⟨hs', congrArg (· :: hs') (Option.some.inj h)⟩

/-- A pass run from its scan to its end: the pins that remain are dispatched, the highest first,
their latches are clear, and those under both-edge emulation are rearmed (R194 to R205). -/
theorem runPass_scan (hb : s.banks[b]? = some k) (hl : k.lock = none) (hc : k.clockOn = true)
    (hen : k.inten &&& k.pinMask = k.inten) {pins : List Nat} (hpins : pinsDown r.remaining = pins)
    (H : Scanning k r pol) (hserve : ∀ i ∈ pins, Serviceable s b k i)
    (hhs : ∀ j < pins.length, hs[j]? = some []) (hplan : c.plan = []) (hfault : c.fault = none) :
    runPass b (n + 3 * pins.length + 3) (s.scanning b k L hs tr c r) =
      s.passAt b
        (k.afterPass (L &&& ~~~r.remaining) (rearmed pol r.remaining k.toggleEdgeMask k.pad))
        (hs.drop pins.length) (tr ++ passCalls b k.row.baseIrq k.inttype r.acked pins)
        passEndedCtx := by
  induction pins generalizing r pol L hs tr c with
  | nil =>
    have hrem := pinsDown_eq_nil hpins
    rw [List.length_nil, List.drop_zero,
      runPass_end (base := k.row.baseIrq) hb hplan hfault H hl hc hen hrem, H.ilr, hrem,
      rearmed_none, clear_none]
  | cons i rest ih =>
    have hrem : r.remaining ≠ 0 := by
      intro h0
      rw [h0, pinsDown_zero] at hpins
      cases hpins
    obtain ⟨-, hlane⟩ := msb_lane hrem
    rw [pinsDown_msb hrem] at hpins
    obtain ⟨rfl, hrest⟩ := List.cons.inj hpins
    have hpin := hserve _ List.mem_cons_self
    obtain ⟨hs', rfl⟩ := exists_cons_of_first (hhs 0 (by simp))
    rw [show n + 3 * (msb r.remaining :: rest).length + 3 = n + 3 * rest.length + 3 + 3 by
        rw [List.length_cons]; omega,
      runPass_pin hpin hplan hfault hrem (.inl hl),
      ih (by rw [afterPin_remaining, hrest]) (H.afterPin hpin.lane)
        (fun j hj => hserve j (List.mem_cons_of_mem _ hj))
        (fun j hj => by simpa using hhs (j + 1) (by simpa using hj)) rfl rfl,
      afterPin_remaining, afterPin_acked, clear_then_clear hlane, rearmed_step hlane, H.ilr,
      passCalls_cons, Bool.or_comm, ← List.append_assoc]
    rfl

/-! ### A pass that waits for a lock -/

/-- A pass of bank `k`, its latches `L` when its scan began with the pins `v`, waits for the lock: of
the bank only its position and the latches of some of those pins have changed. -/
def Waits (s : State) (b : Nat) (k : Bank) (L v : Word) (t : State) : Prop :=
  ∃ (l : Word) (x : Bool) (q : Pass) (hs : List (List Instr)) (tr : List HostCall) (c : Ctx)
    (p : List Micro),
    t = s.passAt b { k with latch := L &&& ~~~l, inService := x, pass := q } hs tr c ∧
      l &&& ~~~v = 0 ∧ q ≠ .idle ∧ c.plan = .lock b :: p ∧ c.fault = none

theorem waits_atPos {x : Bool} {pos : PassPos} {p : List Micro} (hfault : c.fault = none) :
    Waits s b k L v (s.passAt b (k.atPos L x pos r) hs tr { c with plan := .lock b :: p }) :=
  ⟨0, x, .active pos r, hs, tr, { c with plan := .lock b :: p }, p, by rw [clear_none]; rfl,
    BitVec.zero_and, nofun, rfl, hfault⟩

/-- A pass that waits after a pin waits as well since before it. -/
theorem Waits.after_pin {t : State} (h : Waits s b k (setBit L i false) (v &&& ~~~(oneHot i)) t)
    (hi : v.getLsbD i = true) : Waits s b k L v t := by
  obtain ⟨l, x, q, hs, tr, c, p, rfl, hl, hq, hp, hf⟩ := h
  refine ⟨l ||| oneHot i, x, q, hs, tr, c, p, ?_, ?_, hq, hp, hf⟩
  · have hlatch : setBit L i false &&& ~~~l = L &&& ~~~(l ||| oneHot i) := by
      rw [setBit, if_neg (by simp), BitVec.not_or, BitVec.and_assoc, BitVec.and_comm (~~~l)]
    rw [hlatch]
  · refine eq_zero_of_lanes fun j hj => ?_
    have hlj := congrArg (BitVec.getLsbD · j) hl
    simp only [BitVec.getLsbD_and, BitVec.getLsbD_not, hj, oneHot_lane i hj] at hlj ⊢
    rw [BitVec.getLsbD_or, oneHot_lane i hj]
    by_cases hij : j = i
    · subst hij; simp [hi]
    · simpa [hij] using hlj

/-- A pass needs the lock when a both-edge pin has been serviced, or a pin that remains is dispatched
as level-type or is under both-edge emulation. -/
def NeedsLock (k : Bank) (r : PassRegs) : Prop :=
  r.needUpdate = true ∨ r.remaining &&& (~~~k.inttype ||| k.toggleEdgeMask) ≠ 0

/-- It still does after a pin that it has dispatched as edge-type. -/
theorem NeedsLock.afterPin (h : NeedsLock k r) (H : Scanning k r pol)
    (hedge : isEdgeTrigger (k.triggerType (msb r.remaining)) = true) : NeedsLock k r.afterPin := by
  rw [NeedsLock, afterPin_needUpdate, H.tmask]
  rw [isEdgeTrigger_triggerType] at hedge
  cases hT : k.toggleEdgeMask.getLsbD (msb r.remaining) with
  | true => exact .inl (Bool.or_true _)
  | false =>
    rw [hT, Bool.false_or] at hedge
    rw [Bool.or_false]
    refine h.imp_right fun hne h0 => hne ?_
    refine eq_zero_of_lanes fun j hj => ?_
    have hj0 := congrArg (BitVec.getLsbD · j) h0
    rw [afterPin_remaining] at hj0
    simp only [BitVec.getLsbD_and, BitVec.getLsbD_or, BitVec.getLsbD_not, hj,
      oneHot_lane _ hj] at hj0 ⊢
    by_cases hij : j = msb r.remaining
    · subst hij; simp [hT, hedge]
    · simpa [hij] using hj0

/-- A pass that needs the lock, run from its scan while another agent holds it, waits for it: at the
dispatch of a level pin, or else at the rewrite of the polarity. -/
theorem runPass_scan_waits {h : Agent} (hb : s.banks[b]? = some k) (hl : k.lock = some h)
    (hne : h ≠ .irq b) {pins : List Nat} (hpins : pinsDown r.remaining = pins)
    (H : Scanning k r pol) (hneed : NeedsLock k r) (hserve : ∀ i ∈ pins, Serviceable s b k i)
    (hhs : ∀ j < pins.length, hs[j]? = some []) (hplan : c.plan = []) (hfault : c.fault = none) :
    Waits s b k L r.remaining
      (runPass b (n + 3 * pins.length + 3) (s.scanning b k L hs tr c r)) := by
  induction pins generalizing r pol L hs tr c with
  | nil =>
    have hrem := pinsDown_eq_nil hpins
    have hupdate : r.needUpdate = true := hneed.resolve_right (by simp [hrem])
    obtain ⟨-, hpol⟩ := H.level (H.rewritten hupdate)
    rw [runPass_scanned hb hplan hfault hrem, hupdate, if_pos rfl,
      runPass_update hb hplan hfault (q := k.atPos L (!r.acked) .update r) rfl hpol, State.passAt,
      updatePlan, List.cons_append, runPlan_lock_waits (passBase_bank hb) (by exact hl) hne,
      ← State.passAt, runPass_of_plan rfl]
    exact waits_atPos hfault
  | cons i rest ih =>
    have hrem : r.remaining ≠ 0 := by
      intro h0
      rw [h0, pinsDown_zero] at hpins
      cases hpins
    obtain ⟨-, hlane⟩ := msb_lane hrem
    rw [pinsDown_msb hrem] at hpins
    obtain ⟨rfl, hrest⟩ := List.cons.inj hpins
    have hpin := hserve _ List.mem_cons_self
    obtain ⟨hs', rfl⟩ := exists_cons_of_first (hhs 0 (by simp))
    rw [show n + 3 * (msb r.remaining :: rest).length + 3 = n + 3 * rest.length + 3 + 3 by
        rw [List.length_cons]; omega]
    by_cases hedge : isEdgeTrigger (k.triggerType (msb r.remaining)) = true
    · rw [runPass_pin hpin hplan hfault hrem (.inr hedge)]
      have hwaits := ih (L := setBit L (msb r.remaining) false) (c := dispatchedCtx)
        (tr := tr ++ pinCalls b k.row.baseIrq r.ilrSnap r.acked (msb r.remaining))
        (by rw [afterPin_remaining, hrest]) (H.afterPin hpin.lane) (hneed.afterPin H hedge)
        (fun j hj => hserve j (List.mem_cons_of_mem _ hj))
        (fun j hj => by simpa using hhs (j + 1) (by simpa using hj)) rfl rfl
      rw [afterPin_remaining] at hwaits
      exact hwaits.after_pin hlane
    · obtain ⟨p, hrun⟩ := drain_service_waits (L := L) (x := !r.select.acked) (r := r.select)
        (tr := tr ++
          if r.ilrSnap.getLsbD (msb r.remaining) && !r.acked then [.chainedExit b] else [])
        (hs := hs') (c := c) hpin hl hne (Bool.eq_false_iff.2 hedge)
      rw [runPass_select hb hplan hfault hrem, runPass_service hb hplan hfault, hrun,
        runPass_of_plan rfl]
      exact waits_atPos hfault

end Sys2Proof.Machine
end

section
/-! PROOFS. `DEMUX` from its beginning: the passes that run through, and what a step that ends a pass
leaves (spec/43_demux.md R202 to R207). -/

namespace Sys2Proof.Machine

open Sys2Proof

variable {s : State} {b i : Nat} {k : Bank}

/-! ### A pass that begins -/

/-- The context of an interrupt agent whose pass begins. -/
def passBegunCtx : Ctx := { plan := [], loc := {}, result := none, fault := none }

section
variable (H : PassBegins s b k)
include H

/-- The bank of a pass that may begin is idle and out of service, and clocked. -/
theorem PassBegins.idle : k.pass = .idle ∧ k.inService = false ∧ k.clockOn = true := by
  obtain ⟨hidle, hin, ⟨hc, -⟩, -⟩ := (deliveryConditions s b k H.bank).1 H.delivered
  exact ⟨hidle, hin, hc⟩

/-- `DEMUX` is the run of the pass from its entry (R202, R257). -/
theorem PassBegins.exec_begins : exec (.demux b) s = .next (runPass b passBound
    (s.passAt b { k with pass := .active .enter {} } s.handlers s.trace passBegunCtx)) := by
  obtain ⟨hlt, -⟩ := List.getElem?_eq_some_iff.1 H.bank
  obtain ⟨-, hfault⟩ := canBegin_ctx H.begins
  have hbegin : beginDemux b s = .next ((s.enterPass b).beginPlan (.irq b) []) := by
    have hbanks : ¬s.nbanks ≤ b := Nat.not_le.2 hlt
    simp [beginDemux, H.actor, H.begins, H.delivered, hbanks]
  have hstate : (s.enterPass b).beginPlan (.irq b) [] =
      s.passAt b { k with pass := .active .enter {} } s.handlers s.trace passBegunCtx := by
    simp only [State.enterPass, H.bank, beginPlan_eq, passBegunCtx, ← hfault]
    rfl
  rw [exec, execDemux, hbegin, hstate]

/-- A pending pin can be serviced. -/
theorem PassBegins.serviceable (hi : i ∈ pinsDown k.status) : Serviceable s b k i := by
  obtain ⟨hlt, hpending⟩ := mem_pinsDown.1 hi
  obtain ⟨-, -, hen, -⟩ := lanesOk_iff.1 H.lanes
  obtain ⟨-, -, hc⟩ := H.idle
  rw [status_lane k hlt] at hpending
  simp only [Bool.and_eq_true, decide_eq_true_eq] at hpending
  obtain ⟨⟨henabled, -⟩, hpin⟩ := hpending
  have hresolve := resolvePin_of_held (p := k.row.basePin + i) H.table H.bank ⟨by omega, by omega⟩
  rw [Nat.add_sub_cancel_left] at hresolve
  exact ⟨H.bank, hc, H.flow, hresolve, and_pinMask_of_within hen, henabled⟩

/-- A handler is supplied for each pending pin. -/
theorem PassBegins.supplied : ∀ j < (pinsDown k.status).length, s.handlers[j]? = some [] :=
  fun j hj => H.handlers j (lt_of_lt_of_le hj (length_pinsDown_le _))

/-- `DEMUX` runs the pass from where it begins to scan. -/
theorem PassBegins.exec_scan :
    ∃ n, exec (.demux b) s = .next (runPass b (n + 3 * (pinsDown k.status).length + 3)
      (s.scanning b k k.latch s.handlers (s.trace ++ [.chainedEnter b]) passBegunCtx
        k.firstScan)) := by
  obtain ⟨-, -, hc⟩ := H.idle
  have hlen := length_pinsDown_le k.status
  obtain ⟨m, hm, hrun⟩ := runPass_snapshots (n := 99) (hs := s.handlers) (tr := s.trace)
    (c := passBegunCtx) H.bank hc H.lanes rfl rfl
  refine ⟨m - (3 * (pinsDown k.status).length + 3), ?_⟩
  rw [show m - (3 * (pinsDown k.status).length + 3) + 3 * (pinsDown k.status).length + 3 = m by omega,
    ← hrun, H.exec_begins]
  rfl

end

/-! ### A pass that runs through -/

/-- `DEMUX` run through: all of its outcome (R202 to R205). -/
theorem PassRuns.exec_demux (H : PassRuns s b k) :
    exec (.demux b) s = .next (s.passAt b
      { k with
        latch := k.latch &&& ~~~k.status
        intpol := rearmed k.intpol k.status k.toggleEdgeMask k.pad }
      (s.handlers.drop (pinsDown k.status).length)
      (s.trace ++ .chainedEnter b ::
        passCalls b k.row.baseIrq k.inttype false (pinsDown k.status)) passEndedCtx) := by
  obtain ⟨-, -, hen, -⟩ := lanesOk_iff.1 H.lanes
  obtain ⟨hidle, hin, hc⟩ := H.idle
  obtain ⟨n, hexec⟩ := H.exec_scan
  have hbank : ∀ L pol, k.afterPass L pol = { k with latch := L, intpol := pol } := fun L pol => by
    rw [Bank.afterPass, ← hidle, ← hin]
  rw [hexec, runPass_scan H.bank H.free hc (and_pinMask_of_within hen)
    (by rw [firstScan_remaining]) (scanning_firstScan H.lanes) (fun i hi => H.serviceable hi)
    H.supplied rfl rfl, firstScan_remaining, firstScan_acked, hbank, List.append_assoc]
  rfl

/-! ### A step that ends a pass -/

/-- Whether bank `b`'s pass is under way. -/
def State.passActive (s : State) (b : Nat) : Option Bool := s.banks[b]?.map (·.pass.isActive)

theorem passActive_eq (hb : s.banks[b]? = some k) : s.passActive b = some k.pass.isActive := by
  rw [State.passActive, hb, Option.map_some]

theorem passActive_congr {s' : State}
    (h : s'.banks.map Bank.freezing = s.banks.map Bank.freezing) :
    s'.passActive b = s.passActive b := by
  have hfreezing : ∀ u : State, u.passActive b = ((u.banks.map Bank.freezing)[b]?).map (·.1) := by
    intro u
    rw [List.getElem?_map, Option.map_map]
    rfl
  rw [hfreezing, hfreezing, h]

/-- Writing another bank leaves a bank's pass. -/
theorem passActive_set {s' : State} {c : Nat} {q : Bank} (h : s'.banks = s.banks.set c q)
    (hc : c ≠ b) : s'.passActive b = s.passActive b := by
  rw [State.passActive, h, List.getElem?_set_ne hc, State.passActive]

/-- Entering a pass ends none. -/
theorem enterPass_passActive {c : Nat} (ha : s.passActive b = some true) :
    (s.enterPass c).passActive b = some true := by
  unfold State.enterPass
  split
  case h_2 => exact ha
  case h_1 q hc =>
    by_cases hcb : c = b
    · subst hcb
      exact passActive_eq (banks_setBank_same s c _ q hc)
    · exact (passActive_set rfl hcb).trans ha

/-- The environment begins and ends no pass. -/
theorem setEnv_passActive {c : Nat} {v : Word} : (s.setEnv c v).passActive b = s.passActive b := by
  unfold State.setEnv
  split
  case h_2 => rfl
  case h_1 q hc => exact passActive_congr (map_freezing_set hc rfl)

/-- The beginning of a step ends no pass. -/
theorem Started.passActive {s' : State} (h : Started s s') (ha : s.passActive b = some true) :
    s'.passActive b = some true := by
  cases h with
  | frame | begun => exact ha
  | entered c xs =>
    exact enterPass_passActive (s := { s with actor := .irq c, inputs := xs }) ha
  | env c v xs => exact (setEnv_passActive (s := { s with inputs := xs })).trans ha

/-- A turn leaves every other agent's context as it was. -/
theorem Advanced.ctx_other {a x : Agent} {s' : State} (h : Advanced a s s') (hx : x ≠ a) :
    s'.ctx x = s.ctx x := by
  cases h with
  | stays => rfl
  | micro hc hp h => rw [setPlan_eq, ctx_setCtx_other _ _ _ _ hx, (microStep_ok h).ctx_other hx]
  | fault | passFault => rw [recordFault_eq, ctx_setCtx_other _ _ _ _ hx]
  | pass ha hr h => subst ha; exact (passStep_ok h).ctx_other hx

/-- What a pass leaves, from a state in which it was under way: it still is, or it has ended, and its
agent returns nothing and has no fault (R98, R207). -/
def PassLeft (b : Nat) (s : State) : Prop :=
  s.passActive b = some true ∨ (s.passActive b = some false ∧ s.ctx (.irq b) = passEndedCtx)

/-- A pass's own step keeps it: only the step at `Exit` ends the pass. -/
theorem passStep_passLeft {s' : State} (hr : s.passReady b = true) (h : passStep b s = .ok s') :
    PassLeft b s' := by
  obtain ⟨⟨k, pos, r, hb, hp⟩, hplan, hfault⟩ := passReady_iff.1 hr
  obtain ⟨q, k', hq, hw, hbanks⟩ := (passStep_ok h).banks
  obtain rfl : k = q := Option.some.inj (hb.symm.trans hq)
  have hactive : s'.passActive b = some k'.pass.isActive := passActive_eq (by
    rw [hbanks]; exact banks_setBank_same s b k' k hb)
  have hctx : ({ s.ctx (.irq b) with loc := {}, result := some .done } : Ctx) = passEndedCtx := by
    simp only [hplan, hfault]
    rfl
  cases hw with
  | lateExit r' hexit hacked =>
    refine .inr ⟨hactive, ?_⟩
    simp only [passStep, onBank, hb, hexit, hacked] at h
    cases h
    rw [← hctx]
    exact ctx_setCtx_same _ _ _
  | ended r' hexit hacked =>
    refine .inr ⟨hactive, ?_⟩
    simp only [passStep, onBank, hb, hexit, hacked] at h
    cases h
    rw [← hctx]
    exact ctx_setCtx_same _ _ _
  | kept => exact .inl (by rw [hactive, hp]; rfl)
  | _ => exact .inl hactive

/-- Every turn keeps it. -/
theorem Advanced.passLeft {a : Agent} {s' : State} (h : Advanced a s s') (hl : PassLeft b s) :
    PassLeft b s' := by
  have hsame : s'.passActive b = s.passActive b → a ≠ .irq b → PassLeft b s' := fun hact hne => by
    rwa [PassLeft, hact, h.ctx_other (Ne.symm hne)]
  cases h with
  | stays => exact hl
  | micro hc hp hm =>
    have hact := passActive_congr (b := b) (microStep_ok hm).freezing
    refine hl.elim (fun hon => .inl (hact.trans hon)) fun ⟨_, hctx⟩ => hsame hact ?_
    rintro rfl
    rw [hctx] at hp
    cases hp
  | fault hc hp hm =>
    refine hl.elim .inl fun ⟨_, hctx⟩ => hsame rfl ?_
    rintro rfl
    rw [hctx] at hp
    cases hp
  | @pass c t ha hr hm =>
    subst ha
    by_cases hcb : c = b
    · subst hcb
      exact passStep_passLeft hr hm
    · obtain ⟨_, q, _, _, hbanks⟩ := (passStep_ok hm).banks
      exact hsame (passActive_set hbanks hcb) (fun h => hcb (Agent.irq.inj h))
  | passFault ha hr hm =>
    subst ha
    refine hl.elim .inl fun ⟨hoff, _⟩ => hsame rfl ?_
    intro hcb
    cases hcb
    obtain ⟨⟨k, pos, r, hb, hp⟩, -⟩ := passReady_iff.1 hr
    rw [passActive_eq hb, hp] at hoff
    cases hoff

/-! ### The statements -/

/-- Settles O51: the trace and the queue of the outcome. -/
theorem passDispatchesThePendingPins : Obligations.PassDispatchesThePendingPins :=
  fun _ _ _ H => ⟨_, H.exec_demux, rfl, rfl⟩

/-- Settles O52: the outcome changes one bank and one context beside the queue and the trace. -/
theorem passAcknowledgesAndRearms : Obligations.PassAcknowledgesAndRearms :=
  fun _ _ _ H => ⟨_, H.exec_demux, rfl⟩

/-- Settles O53: the laws of the calls are facts about the list of them, and every turn leaves a pass
that is under way so, or ended with nothing returned. -/
theorem passKeepsItsLaws : Obligations.PassKeepsItsLaws := by
  refine ⟨fun s b k H => ?_, fun s s' b k k' hstep hb hb' hactive hidle => ?_⟩
  · refine ⟨_, .chainedEnter b :: passCalls b k.row.baseIrq k.inttype false (pinsDown k.status),
      pinsDown k.status, H.exec_demux, rfl, rfl, ?_, ?_, pairwise_pinsDown _,
      fun i => mem_pinsDown, ?_, fun hnone => ?_, fun hedge => ?_⟩
    · rw [List.count_cons_self, count_chainedEnter_passCalls]
    · exact dispatched_passCalls
    · rw [List.count_cons_of_ne (by simp), count_chainedExit_passCalls]
      rfl
    · have hlast := getLast?_passCalls (b := b) (base := k.row.baseIrq) (ilr := k.inttype)
        (pins := pinsDown k.status) fun i hi => ?_
      · rw [List.getLast?_cons, hlast]
        rfl
      · have hlane := congrArg (BitVec.getLsbD · i) hnone
        simpa [(mem_pinsDown.1 hi).2] using hlane
    · have hpins := pinsDown_msb hedge
      rw [pinsDown_and] at hpins
      obtain ⟨first, last, hcalls⟩ := passCalls_first_edge (b := b) (base := k.row.baseIrq) hpins
      exact ⟨.chainedEnter b :: first, last, by rw [hcalls]; rfl⟩
  · obtain ⟨t, a, n, hstart, rfl⟩ := step_stepRun hstep
    have hon : s.passActive b = some true := by
      rw [passActive_eq hb, Bool.eq_true_of_not_eq_false (isActive_eq_false.not.2 hactive)]
    have hleft := turns_keep (a := a) (P := PassLeft b) (fun _ _ h hadv => hadv.passLeft h) n
      (.inl (hstart.passActive hon))
    rcases hleft with hon' | ⟨-, hctx⟩
    · rw [passActive_eq hb', hidle] at hon'
      cases hon'
    · rw [hctx]
      exact ⟨rfl, rfl⟩

end Sys2Proof.Machine
end

section
/-! PROOFS. Operations and passes that wait for a lock that another agent holds (spec/20_memory.md R60,
R62). -/

namespace Sys2Proof.Machine

open Sys2Proof

variable {s : State} {b : Nat} {k : Bank} {h : Agent}

/-- A sweep over the banks that comes to one whose lock another agent holds waits there. -/
theorem sweep_waits {f : Bank → Bank} {g : Bank → List HostCall} {i : Instr} {p : List Micro}
    {l : Locals} (hb : s.banks[b]? = some k) (hl : k.lock = some h) (hne : h ≠ s.actor)
    (hexec : exec i s = .next (runPlan s.actor (.lock b :: p)
      ((s.swept f g b).setCtx s.actor
        { plan := .lock b :: p, loc := l, result := none, fault := none }))) :
    ∃ t, t = (s.swept f g b).setCtx s.actor
        { plan := .lock b :: p, loc := l, result := none, fault := none } ∧
      exec i s = .next t ∧ t.advance s.actor = t ∧ t.runOn s.actor = t := by
  have hswept := swept_banks_getElem (f := f) (g := g) hb
  refine ⟨_, rfl, ?_, turn_waits hswept hl hne (by rw [ctx_setCtx_same])⟩
  rw [hexec, runPlan_lock_waits hswept hl hne]

section
variable (hbegin : s.canBegin s.actor = true) (hb : s.banks[b]? = some k) (hl : k.lock = some h)
  (hne : h ≠ s.actor)
include hbegin hb hl hne

/-- Steps that begin with the lock are not taken, and the agent waits before them. -/
theorem runOp_lock_waits (p : List Micro) :
    ∃ t, t = s.setCtx s.actor { plan := .lock b :: p, loc := {}, result := none, fault := none } ∧
      runOp (.lock b :: p) s = .next t ∧ t.advance s.actor = t ∧ t.runOn s.actor = t := by
  refine ⟨_, rfl, ?_, turn_waits hb hl hne (by rw [ctx_setCtx_same])⟩
  rw [runOp_eq hbegin, runPlan_lock_waits hb hl hne]

/-- The pin operations that take the lock wait for it. -/
theorem pinOps_wait {i : Instr} {pin o c : Nat} {x : Bool} (hr : s.resolvePin pin = some (b, o))
    (hi : i = .setDirection pin x ∨ i = .setLevel pin x ∨ i = .irqEnable pin ∨
      i = .irqDisable pin ∨ i = .setWake pin x ∨ (i = .setTriggerType pin c ∧ c ≤ 4) ∨
      (i = .setPull pin c ∧ s.cfg.variant = .pullGeneric ∧ (c = 0 ∨ c = 3))) :
    ∃ p t, t = s.setCtx s.actor
        { plan := .lock b :: p, loc := {}, result := none, fault := none } ∧
      exec i s = .next t ∧ t.advance s.actor = t ∧ t.runOn s.actor = t := by
  obtain ⟨p, hexec⟩ : ∃ p, exec i s = runOp (.lock b :: p) s := by
    by_cases hwake : i = .setWake pin x
    · subst hwake
      rw [exec, execSetWake, planSetWake, onPin_some hr, lockedOk]
      exact ⟨_, rfl⟩
    · obtain ⟨r, p, hexec⟩ := exec_locked_reads hr (i := i) (c := c) (x := x)
        (by simpa only [hwake, false_or] using hi)
      exact ⟨_, hexec⟩
  rw [hexec]
  exact ⟨p, runOp_lock_waits hbegin hb hl hne p⟩

/-- `SUSPEND` waits at the first bank whose lock another agent holds. -/
theorem suspend_waits
    (hbelow : ∀ j k', j < b → s.banks[j]? = some k' → k'.lock = none ∧ k'.clockOn = true) :
    ∃ p l t, t = State.setCtx { s with
        banks := (s.banks.take b).map (·.suspended) ++ s.banks.drop b
        trace := s.trace ++
          ((s.banks.take b).filter (·.wakeMask = 0)).map fun k => .clockDisable k.row.clock }
        s.actor { plan := .lock b :: p, loc := l, result := none, fault := none } ∧
      exec .suspend s = .next t ∧ t.advance s.actor = t ∧ t.runOn s.actor = t := by
  obtain ⟨hlt, -⟩ := List.getElem?_eq_some_iff.1 hb
  obtain ⟨rest, l, hexec⟩ := exec_suspend_upTo hbegin hlt hbelow
  rw [← flatMap_suspendCalls]
  exact ⟨_, l, sweep_waits hb hl hne hexec⟩

/-- So does `RESUME`. -/
theorem resume_waits
    (hbelow : ∀ j k', j < b → s.banks[j]? = some k' →
      k'.lock = none ∧ (k'.clockOn = true ∨ k'.gated = true)) :
    ∃ p l t, t = State.setCtx { s with
        banks := (s.banks.take b).map (·.resumed) ++ s.banks.drop b
        trace := s.trace ++
          ((s.banks.take b).filter (·.gated)).map fun k => .clockEnable k.row.clock }
        s.actor { plan := .lock b :: p, loc := l, result := none, fault := none } ∧
      exec .resume s = .next t ∧ t.advance s.actor = t ∧ t.runOn s.actor = t := by
  obtain ⟨hlt, -⟩ := List.getElem?_eq_some_iff.1 hb
  obtain ⟨rest, l, hexec⟩ := exec_resume_upTo hbegin hlt hbelow
  rw [← flatMap_resumeCalls]
  exact ⟨_, l, sweep_waits hb hl hne hexec⟩

end

/-- `DEMUX` of a bank with a pending pin that is not dispatched as edge-type alone waits in its pass. -/
theorem PassBegins.exec_waits (H : PassBegins s b k) (hl : k.lock = some h) (hne : h ≠ .irq b)
    (hpins : k.status &&& (~~~k.inttype ||| k.toggleEdgeMask) ≠ 0) :
    ∃ t, exec (.demux b) s = .next t ∧ Waits s b k k.latch k.status t := by
  obtain ⟨n, hexec⟩ := H.exec_scan
  have hwaits := runPass_scan_waits (n := n) (L := k.latch) (hs := s.handlers)
    (tr := s.trace ++ [.chainedEnter b]) (c := passBegunCtx) H.bank hl hne
    (pins := pinsDown k.status) (by rw [firstScan_remaining]) (scanning_firstScan H.lanes)
    (.inr (by rwa [firstScan_remaining])) (fun i hi => H.serviceable hi) H.supplied rfl rfl
  rw [firstScan_remaining] at hwaits
  exact ⟨_, hexec, hwaits⟩

/-- Settles O47: the operation, or the pass, comes to the lock with nothing changed, or with its part
for the banks below or for the pins above done, and no turn takes it on. -/
theorem lockedOperationWaitsForTheHolder : Obligations.LockedOperationWaitsForTheHolder := by
  refine ⟨fun s a b k h p hb hl hne hp => turn_waits hb hl hne hp,
    fun s b k h hbegin hb hl hne => ⟨fun i pin o x c hr hi => pinOps_wait hbegin hb hl hne hr hi,
      suspend_waits hbegin hb hl hne, resume_waits hbegin hb hl hne, fun H hpins => ?_⟩⟩
  rw [H.actor] at hne
  obtain ⟨t, hexec, l, x, q, hs, tr, c, p, rfl, hlanes, hq, hp, hfault⟩ :=
    H.exec_waits hl hne hpins
  refine ⟨l, x, q, c, p, _, rfl, hlanes, hq, hp, hfault, hexec, ?_⟩
  exact turn_waits (k := { k with latch := k.latch &&& ~~~l, inService := x, pass := q })
    (passAt_bank hb) hl hne (by rw [passAt_ctx]; exact hp)

end Sys2Proof.Machine
end
